-- ==== Sys2Proof/Word.lean ====
section
/-! DEFINITION. The words of the Mode Engine: bytes, 16-bit fields, 16-byte blocks, key handles and failure codes. -/

namespace Sys2Proof

/-- A byte, 8 bits (spec/00_scope.md R6). -/
abbrev Byte := BitVec 8

/-- A 16-bit packet field: `OUTCAP`, `LEN`, `OLEN`, `REQ` (spec/30_encoding.md R40, R41). -/
abbrev Half := BitVec 16

/-- A block: a byte string of length 16, byte 0 first on the wire (spec/00_scope.md R6). -/
abbrev Block := Vector Byte 16

/-- `ZERO`, the block of sixteen `0x00` bytes (spec/00_scope.md R6). -/
abbrev Block.zero : Block := Vector.replicate 16 0

/-- A key handle: 16-bit slot id and 8-bit sub-block index, never interpreted (spec/10_state.md R11). -/
structure KeyRef where
  slot : BitVec 16
  blk  : BitVec 8
deriving DecidableEq, Repr

/-- A BlockCipher failure code: 8 bits, never zero (spec/20_memory.md R30). -/
abbrev IoCode := { c : BitVec 8 // c ≠ 0 }

end Sys2Proof
end

