-- ==== Sys2Proof/Machine/Bytes.lean ====
section
/-! DEFINITION. Byte strings: big-endian integers, slices, blocks (spec/00_scope.md R6, spec/20_memory.md R27). -/

namespace Sys2Proof

/-- `be(v, n)`: the `n`-byte big-endian encoding of `v` (R6); of `v mod 2^(8n)` where `v` is larger. -/
def be (v : Nat) : Nat → List Byte
  | 0 => []
  | n + 1 => BitVec.ofNat 8 (v / 256 ^ n) :: be v n

/-- `int_be(B)`: the unsigned integer whose big-endian encoding is `B`; 0 for the empty string (R6). -/
def intBe (bs : List Byte) : Nat := bs.foldl (fun acc b => acc * 256 + b.toNat) 0

/-- `rep(v, n)`: `n` copies of the byte `v` (R6). -/
def rep (v : Byte) (n : Nat) : List Byte := List.replicate n v

/-- `zeros(n)` (R6). -/
def zeros (n : Nat) : List Byte := rep 0 n

/-- `B[i .. i+n-1]` (R6). -/
def slice (bs : List Byte) (i n : Nat) : List Byte := (bs.drop i).take n

/-- The block whose bytes are `bs`; where `bs` is shorter than 16 bytes it is continued with `0x00`. -/
def Block.ofList (bs : List Byte) : Block := Vector.ofFn fun i : Fin 16 => bs.getD i 0

/-- The bytewise exclusive-or of two blocks (R6, spec/46_common_laws.md R140). -/
def Block.xor (a b : Block) : Block := Vector.ofFn fun i : Fin 16 => a[i] ^^^ b[i]

/-- A block as a 128-bit big-endian integer (R27). -/
def Block.toInt (x : Block) : Nat := intBe x.toList

end Sys2Proof
end

