-- ==== Sys2Proof/Config.lean ====
section
/-! DEFINITION. What an implementation fixes: the constants of spec/00_scope.md R4, the three straps of
spec/10_state.md R23, and the one free parameter, the BlockCipher collaborator's cipher. -/

namespace Sys2Proof

/-- Strap `CAP_POLICY`: how a block-granular update computes the capacity it demands (R23, R109). -/
inductive CapPolicy where
  | conservative
  | exact
deriving DecidableEq, Repr

/-- Strap `CTR_WIDTH0`: what a CTR block command does when the stored width is 0 (R23, R81). -/
inductive CtrWidth0 where
  | reject
  | noop
deriving DecidableEq, Repr

/-- The three straps, sampled at reset and constant until the next reset (spec/10_state.md R23). -/
structure Straps where
  legacyZeroPad : Bool
  capPolicy     : CapPolicy
  ctrWidth0     : CtrWidth0
deriving DecidableEq, Repr

/-- The value of the parameter `BlockCipher` (R4, I1): which cipher the collaborator computes. -/
inductive Cipher where
  /-- FREE: the cipher of some key material, of which nothing is known but R32 (log entry 2). -/
  | keyed (epoch : Nat)
  /-- The fixture TOY of spec/95_test_vectors.md 2.1. -/
  | toy
deriving DecidableEq, Repr

namespace Config

/-- The strap values R23 gives as defaults. -/
def defaultStraps : Straps :=
  { legacyZeroPad := true, capPolicy := .conservative, ctrWidth0 := .reject }

/-- `MAXLEN`, the largest payload length of a command packet (R4, spec/30_encoding.md R47). -/
def maxLen : Nat := 65520

/-- `RB`, the CMAC reduction constant (R4). -/
def rb : Byte := 0x87

/-- FREE: the collaborator's cipher. For each state of its key material (a plain number, log entry 2) and each key
handle, a permutation of the blocks: `BC_ENC` applies it and `BC_DEC` applies its inverse (spec/20_memory.md R30,
R32(b), R32(c)). It has no body: nothing more can be proved of it, as R32(d) asks. -/
opaque blockCipher : Nat → KeyRef → Equiv.Perm Block

end Config
end Sys2Proof
end

