-- ==== Sys2Proof/Syntax.lean ====
section
/-! DEFINITION. The 23 commands of spec/30_encoding.md R50, one constructor per row of spec/opcode_table.json. -/

namespace Sys2Proof

/-- A command. Every constructor carries the three operand fields of the packet (spec/30_encoding.md R40): `ARG`,
`OUTCAP` and `PAYLOAD`; `LEN` is the payload's length. They are kept raw because a value a command does not allow is
an error of that command, raised after its phase check (R45, spec/60_exceptions.md R115), not of the decoder. -/
inductive Instr where
  /-- 0x00, R57: pad a buffer. -/
  | p7Pad (arg : Byte) (outcap : Half) (payload : List Byte)
  /-- 0x01, R58: validate and strip padding. -/
  | p7Unpad (arg : Byte) (outcap : Half) (payload : List Byte)
  /-- 0x10, R62: start a CBC stream. -/
  | cbcInit (arg : Byte) (outcap : Half) (payload : List Byte)
  /-- 0x11, R63: feed plaintext. -/
  | cbcEncUpdate (arg : Byte) (outcap : Half) (payload : List Byte)
  /-- 0x12, R64: end an encrypt stream. -/
  | cbcEncFinish (arg : Byte) (outcap : Half) (payload : List Byte)
  /-- 0x13, R65: feed ciphertext. -/
  | cbcDecUpdate (arg : Byte) (outcap : Half) (payload : List Byte)
  /-- 0x14, R66: end a decrypt stream. -/
  | cbcDecFinish (arg : Byte) (outcap : Half) (payload : List Byte)
  /-- 0x20, R72: start a CMAC stream. -/
  | cmacInit (arg : Byte) (outcap : Half) (payload : List Byte)
  /-- 0x21, R73: feed message bytes. -/
  | cmacUpdate (arg : Byte) (outcap : Half) (payload : List Byte)
  /-- 0x22, R74: return the MAC. -/
  | cmacFinish (arg : Byte) (outcap : Half) (payload : List Byte)
  /-- 0x30, R77: load key handle, counter block and counter width. -/
  | ctrInit (arg : Byte) (outcap : Half) (payload : List Byte)
  /-- 0x31, R78: transform one block and step the counter. -/
  | ctrEncBlock (arg : Byte) (outcap : Half) (payload : List Byte)
  /-- 0x32, R80: the same function under a second opcode. -/
  | ctrDecBlock (arg : Byte) (outcap : Half) (payload : List Byte)
  /-- 0x40, R84: start a CBC-MAC stream. -/
  | macInit (arg : Byte) (outcap : Half) (payload : List Byte)
  /-- 0x41, R85: feed message bytes. -/
  | macUpdate (arg : Byte) (outcap : Half) (payload : List Byte)
  /-- 0x42, R86: check alignment and return the MAC. -/
  | macFinish (arg : Byte) (outcap : Half) (payload : List Byte)
  /-- 0x50, R94: check the parameters, feed `B0`, set up the counter. -/
  | ccmInit (arg : Byte) (outcap : Half) (payload : List Byte)
  /-- 0x51, R95: feed AAD bytes. -/
  | ccmAadUpdate (arg : Byte) (outcap : Half) (payload : List Byte)
  /-- 0x52, R96: close the AAD. -/
  | ccmAadFinish (arg : Byte) (outcap : Half) (payload : List Byte)
  /-- 0x53, R98: encrypt text bytes and authenticate the plaintext. -/
  | ccmEncUpdate (arg : Byte) (outcap : Half) (payload : List Byte)
  /-- 0x54, R101: produce the tag. -/
  | ccmEncFinish (arg : Byte) (outcap : Half) (payload : List Byte)
  /-- 0x55, R99: decrypt text bytes and authenticate the recovered plaintext. -/
  | ccmDecUpdate (arg : Byte) (outcap : Half) (payload : List Byte)
  /-- 0x56, R102: derive the tag and compare it with the expected one. -/
  | ccmDecFinish (arg : Byte) (outcap : Half) (payload : List Byte)
deriving DecidableEq, Repr

/-- The packet's `ARG` field. -/
def Instr.arg : Instr → Byte
  | .p7Pad a _ _ | .p7Unpad a _ _
  | .cbcInit a _ _ | .cbcEncUpdate a _ _ | .cbcEncFinish a _ _ | .cbcDecUpdate a _ _ | .cbcDecFinish a _ _
  | .cmacInit a _ _ | .cmacUpdate a _ _ | .cmacFinish a _ _
  | .ctrInit a _ _ | .ctrEncBlock a _ _ | .ctrDecBlock a _ _
  | .macInit a _ _ | .macUpdate a _ _ | .macFinish a _ _
  | .ccmInit a _ _ | .ccmAadUpdate a _ _ | .ccmAadFinish a _ _ | .ccmEncUpdate a _ _ | .ccmEncFinish a _ _
  | .ccmDecUpdate a _ _ | .ccmDecFinish a _ _ => a

/-- The packet's `OUTCAP` field. -/
def Instr.outcap : Instr → Half
  | .p7Pad _ c _ | .p7Unpad _ c _
  | .cbcInit _ c _ | .cbcEncUpdate _ c _ | .cbcEncFinish _ c _ | .cbcDecUpdate _ c _ | .cbcDecFinish _ c _
  | .cmacInit _ c _ | .cmacUpdate _ c _ | .cmacFinish _ c _
  | .ctrInit _ c _ | .ctrEncBlock _ c _ | .ctrDecBlock _ c _
  | .macInit _ c _ | .macUpdate _ c _ | .macFinish _ c _
  | .ccmInit _ c _ | .ccmAadUpdate _ c _ | .ccmAadFinish _ c _ | .ccmEncUpdate _ c _ | .ccmEncFinish _ c _
  | .ccmDecUpdate _ c _ | .ccmDecFinish _ c _ => c

/-- The packet's `PAYLOAD`. -/
def Instr.payload : Instr → List Byte
  | .p7Pad _ _ d | .p7Unpad _ _ d
  | .cbcInit _ _ d | .cbcEncUpdate _ _ d | .cbcEncFinish _ _ d | .cbcDecUpdate _ _ d | .cbcDecFinish _ _ d
  | .cmacInit _ _ d | .cmacUpdate _ _ d | .cmacFinish _ _ d
  | .ctrInit _ _ d | .ctrEncBlock _ _ d | .ctrDecBlock _ _ d
  | .macInit _ _ d | .macUpdate _ _ d | .macFinish _ _ d
  | .ccmInit _ _ d | .ccmAadUpdate _ _ d | .ccmAadFinish _ _ d | .ccmEncUpdate _ _ d | .ccmEncFinish _ _ d
  | .ccmDecUpdate _ _ d | .ccmDecFinish _ _ d => d

end Sys2Proof
end

