-- ==== Sys2Proof/WellFormed.lean ====
section
/-! DEFINITION. Which commands a packet can carry. -/

namespace Sys2Proof

/-- A command is well formed when its payload fits the packet: `LEN <= MAXLEN` (spec/30_encoding.md R43, R47).
It is the packet's one constraint: `ARG`, `OUTCAP` and every other payload length are operands the command itself
judges (R45). -/
abbrev Instr.WellFormed (i : Instr) : Prop := i.payload.length ≤ Config.maxLen

end Sys2Proof
end

