-- ==== Sys2Proof/Decode.lean ====
section
/-! DEFINITION. The decoder of spec/30_encoding.md R40 to R51, total on any byte string, and the encoder. -/

namespace Sys2Proof

/-- Why a byte string is no command. All four get the response `BadParam` and change no state (R43, R44). -/
inductive DecodeError where
  /-- Shorter than the 6-byte header (R43). -/
  | tooShort
  /-- `LEN > MAXLEN` (R43). -/
  | lenAboveMax
  /-- The length is not `6 + LEN` (R43). -/
  | lengthMismatch
  /-- `OPC` is not listed in R50 (R44). -/
  | reservedOpcode (opc : Byte)
deriving DecidableEq, Repr

/-- The opcode map of R50: the match is on all 8 bits of `OPC`, and no other field takes part. -/
def commandOf (opc arg : Byte) (outcap : Half) (payload : List Byte) : Option Instr :=
  match opc.toNat with
  | 0x00 => some (.p7Pad arg outcap payload)
  | 0x01 => some (.p7Unpad arg outcap payload)
  | 0x10 => some (.cbcInit arg outcap payload)
  | 0x11 => some (.cbcEncUpdate arg outcap payload)
  | 0x12 => some (.cbcEncFinish arg outcap payload)
  | 0x13 => some (.cbcDecUpdate arg outcap payload)
  | 0x14 => some (.cbcDecFinish arg outcap payload)
  | 0x20 => some (.cmacInit arg outcap payload)
  | 0x21 => some (.cmacUpdate arg outcap payload)
  | 0x22 => some (.cmacFinish arg outcap payload)
  | 0x30 => some (.ctrInit arg outcap payload)
  | 0x31 => some (.ctrEncBlock arg outcap payload)
  | 0x32 => some (.ctrDecBlock arg outcap payload)
  | 0x40 => some (.macInit arg outcap payload)
  | 0x41 => some (.macUpdate arg outcap payload)
  | 0x42 => some (.macFinish arg outcap payload)
  | 0x50 => some (.ccmInit arg outcap payload)
  | 0x51 => some (.ccmAadUpdate arg outcap payload)
  | 0x52 => some (.ccmAadFinish arg outcap payload)
  | 0x53 => some (.ccmEncUpdate arg outcap payload)
  | 0x54 => some (.ccmEncFinish arg outcap payload)
  | 0x55 => some (.ccmDecUpdate arg outcap payload)
  | 0x56 => some (.ccmDecFinish arg outcap payload)
  | _ => none

/-- Decoding of a byte string presented on the command port (R40, R43, R44, R51): header
`OPC ARG OUTCAP(2) LEN(2)`, both 16-bit fields big-endian, then exactly `LEN` payload bytes. -/
def decode : List Byte → Except DecodeError Instr
  | opc :: arg :: c1 :: c0 :: l1 :: l0 :: payload =>
    if intBe [l1, l0] > Config.maxLen then .error .lenAboveMax
    else if payload.length ≠ intBe [l1, l0] then .error .lengthMismatch
    else
      match commandOf opc arg (BitVec.ofNat 16 (intBe [c1, c0])) payload with
      | some i => .ok i
      | none => .error (.reservedOpcode opc)
  | _ => .error .tooShort

/-- The opcode of a command (R50; spec/opcode_table.json). -/
def Instr.opcode : Instr → Byte
  | .p7Pad .. => 0x00
  | .p7Unpad .. => 0x01
  | .cbcInit .. => 0x10
  | .cbcEncUpdate .. => 0x11
  | .cbcEncFinish .. => 0x12
  | .cbcDecUpdate .. => 0x13
  | .cbcDecFinish .. => 0x14
  | .cmacInit .. => 0x20
  | .cmacUpdate .. => 0x21
  | .cmacFinish .. => 0x22
  | .ctrInit .. => 0x30
  | .ctrEncBlock .. => 0x31
  | .ctrDecBlock .. => 0x32
  | .macInit .. => 0x40
  | .macUpdate .. => 0x41
  | .macFinish .. => 0x42
  | .ccmInit .. => 0x50
  | .ccmAadUpdate .. => 0x51
  | .ccmAadFinish .. => 0x52
  | .ccmEncUpdate .. => 0x53
  | .ccmEncFinish .. => 0x54
  | .ccmDecUpdate .. => 0x55
  | .ccmDecFinish .. => 0x56

/-- The packet of a command (R40). -/
def encode (i : Instr) : List Byte :=
  [i.opcode, i.arg] ++ be i.outcap.toNat 2 ++ be i.payload.length 2 ++ i.payload

/-- The packet whose first `nbits` bits, as spec/opcode_table.json numbers them, are `w`: the table reads the header
as one big-endian word `OPC[47:40] ARG[39:32] OUTCAP[31:16] LEN[15:0]`, so its first byte on the wire is its most
significant one (R40; log entry 7). Bits past `nbits` are zero, and `LEN` zero payload bytes follow the header. -/
def tablePacket (nbits w : Nat) : List Byte :=
  let given := be w (nbits / 8)
  let header := given ++ zeros (6 - given.length)
  header ++ zeros (6 + intBe (slice header 4 2) - header.length)

/-- The command this decoder reads from the table word `w`. -/
def decodeTableWord (nbits w : Nat) : Option Instr := (decode (tablePacket nbits w)).toOption

end Sys2Proof
end

