-- ==== Sys2Proof/Machine/Cipher.lean ====
section
/-! DEFINITION. The cipher behind the BlockCipher port: for each value of the parameter, one fixed permutation of the
blocks per key handle (spec/20_memory.md R30, R32). -/

namespace Sys2Proof.Machine

/-- The byte that TOY xors at index `i` (spec/95_test_vectors.md 2.1). -/
def toyRamp (k : KeyRef) (i : Nat) : Byte := BitVec.ofNat 8 ((k.slot.toNat + k.blk.toNat) % 256 + i)

/-- `TOY_ENC` (spec/95_test_vectors.md 2.1). -/
def toyEnc (k : KeyRef) (x : Block) : Block :=
  Vector.ofFn fun i : Fin 16 => x[(i.val + 1) % 16] ^^^ toyRamp k i.val

/-- `TOY_DEC` (spec/95_test_vectors.md 2.1): the index `j - 1 mod 16` is `j + 15 mod 16`. -/
def toyDec (k : KeyRef) (y : Block) : Block :=
  Vector.ofFn fun j : Fin 16 => y[(j.val + 15) % 16] ^^^ toyRamp k ((j.val + 15) % 16)

theorem toyDec_toyEnc (k : KeyRef) (x : Block) : toyDec k (toyEnc k x) = x := by
  ext i h : 1
  have hi : ((i + 15) % 16 + 1) % 16 = i := by omega
  simp only [toyDec, toyEnc, Vector.getElem_ofFn, BitVec.xor_assoc, BitVec.xor_self, BitVec.xor_zero, hi]

theorem toyEnc_toyDec (k : KeyRef) (y : Block) : toyEnc k (toyDec k y) = y := by
  ext i h : 1
  have hi : ((i + 1) % 16 + 15) % 16 = i := by omega
  simp only [toyDec, toyEnc, Vector.getElem_ofFn, BitVec.xor_assoc, BitVec.xor_self, BitVec.xor_zero, hi]

/-- The cipher of a parameter value, for one key handle: `BC_ENC(k, ·)` is the permutation, `BC_DEC(k, ·)` its inverse
(R32(b), R32(c)). -/
def cipherPerm (c : Cipher) (k : KeyRef) : Equiv.Perm Block :=
  match c with
  | .keyed epoch => Config.blockCipher epoch k
  | .toy => { toFun := toyEnc k, invFun := toyDec k, left_inv := toyDec_toyEnc k, right_inv := toyEnc_toyDec k }

end Sys2Proof.Machine
end

