-- ==== Sys2Proof/Machine/State.lean ====
section
/-! DEFINITION. The state of the Mode Engine as spec/10_state.md gives it: five contexts and three straps, and the two
ports the block is seen through. All of it is plain data. -/

namespace Sys2Proof.Machine

/-! ## The context types -/

/-- `CbcCore` (R12): key handle, chaining value, pending bytes and their number (4 bits), padding mode. -/
structure CbcCore where
  keyref : KeyRef
  chain  : Block
  pend   : Block
  plen   : Fin 16
  pad    : Bool
deriving DecidableEq, Repr

/-- `PHASE` of the CBC context (R20). -/
inductive CbcPhase where
  | idle
  | ready
  | enc
  | dec
deriving DecidableEq, Repr

/-- The CBC context (R13): a `CbcCore`, the held-back plaintext block and its valid bit, the phase. -/
structure CbcCtx where
  core  : CbcCore
  held  : Block
  heldv : Bool
  phase : CbcPhase
deriving DecidableEq, Repr

/-- `PHASE` of the CMAC, CTR and CBC-MAC contexts (R20). -/
inductive Phase where
  | idle
  | active
deriving DecidableEq, Repr

/-- The CMAC context (R14): an inner `CbcCore`, CMAC's own lookahead and the number of bytes in it (0..16), the phase. -/
structure CmacCtx where
  cbc   : CbcCore
  pend  : Block
  plen  : Fin 17
  phase : Phase
deriving DecidableEq, Repr

/-- `CtrCore` (R15): key handle, counter block, width of the counter field in bytes (8 bits, stored unchecked). -/
structure CtrCore where
  keyref : KeyRef
  cb     : Block
  w      : Byte
deriving DecidableEq, Repr

/-- The CTR context (R15). -/
structure CtrCtx where
  core  : CtrCore
  phase : Phase
deriving DecidableEq, Repr

/-- `MacCore` (R16): an inner `CbcCore`, the bytes of the incomplete block and their number. -/
structure MacCore where
  cbc  : CbcCore
  pend : Block
  plen : Fin 16
deriving DecidableEq, Repr

/-- The CBC-MAC context (R16). -/
structure MacCtx where
  core  : MacCore
  phase : Phase
deriving DecidableEq, Repr

/-- `PHASE` of the CCM context (R20): `idle` is also DOC's state DONE. -/
inductive CcmPhase where
  | idle
  | init
  | aad
  | aadFinish
  | encryptText
  | decryptText
deriving DecidableEq, Repr

/-- The CCM context (R17). -/
structure CcmCtx where
  mac      : MacCore
  ctr      : CtrCore
  ivsize   : BitVec 8
  tagsize  : BitVec 8
  aadsize  : BitVec 64
  textsize : BitVec 64
  aadcons  : BitVec 64
  textcons : BitVec 64
  ks       : Block
  phase    : CcmPhase
deriving DecidableEq, Repr

/-! ## The BlockCipher port -/

/-- The operation of a BlockCipher request (spec/20_memory.md R30). -/
inductive BcOp where
  | enc
  | dec
deriving DecidableEq, Repr

/-- A request on the BlockCipher port: the triple `(op, k, X)` (R30). -/
structure Request where
  op  : BcOp
  key : KeyRef
  blk : Block
deriving DecidableEq, Repr

/-- FREE: how the collaborator meets one future request: whether it fails, and with which code (R32(a); log entry 3). A
success has no other answer than the cipher's. -/
inductive Draw where
  /-- It succeeds, and the answer is the cipher's (R32(b), R32(c)). -/
  | cipher
  /-- It fails with this code (R31). -/
  | err (c : IoCode)
deriving DecidableEq, Repr

/-- The far side of the BlockCipher port, the model's own fields: the collaborator's cipher, which
never changes, how it meets the next requests (those past the list's end succeed with the cipher's answer), and the requests issued so far,
oldest first. -/
structure BcPort where
  cipher : Cipher
  draws  : List Draw
  trace  : List Request
deriving DecidableEq, Repr

/-! ## The host port -/

/-- The outcome a response reports (spec/60_exceptions.md R105). -/
inductive Status where
  | ok
  | nullPointer
  | badParam
  | bufferTooSmall
  | protocolViolation
  | genFail
  | badState
  | ioError
deriving DecidableEq, Repr

/-- A response (spec/30_encoding.md R41). `OLEN` is the length of `out`. -/
structure Response where
  status : Status
  aux    : Byte
  req    : Half
  out    : List Byte
deriving DecidableEq, Repr

/-- What the host does next: present a byte string on the command port (spec/20_memory.md R26), or assert reset and
release it with these values on the strap inputs (spec/70_reset_and_hazards.md R125). -/
inductive HostEvent where
  | command (packet : List Byte)
  | reset (straps : Straps)
deriving DecidableEq, Repr

/-! ## The state -/

/-- The whole state: R10's five contexts and straps, and the model's own view of the two ports: what the host will
still do, the responses presented so far (oldest first), and the BlockCipher port. -/
structure State where
  cbc       : CbcCtx
  cmac      : CmacCtx
  ctr       : CtrCtx
  mac       : MacCtx
  ccm       : CcmCtx
  straps    : Straps
  pending   : List HostEvent
  responses : List Response
  bc        : BcPort
deriving DecidableEq, Repr

/-- Why a step stops with a fault. It has no constructor: the spec has no behaviour that stops the block
(spec/93_implementation_defined.md preamble), and every error is a response (spec/60_exceptions.md R112). Safe. -/
inductive Fault where
deriving DecidableEq, Repr

/-- Why a step is refused. -/
inductive Refusal where
  /-- Raised only by an arm of `exec` whose command has no meaning yet. Safe: it stops. No arm raises it. -/
  | notModelled (mnemonic : String)
deriving DecidableEq, Repr

/-- The outcome of a step. -/
abbrev Result := Host.Outcome State Fault Refusal

/-! ## Reset -/

/-- `(slot 0, blk 0)` (R24). -/
def keyRefReset : KeyRef := { slot := 0, blk := 0 }

/-- Reset value of a `CbcCore` (R24). -/
def CbcCore.reset : CbcCore := { keyref := keyRefReset, chain := Block.zero, pend := Block.zero, plen := 0, pad := false }

/-- Reset value of a `CtrCore` (R24). -/
def CtrCore.reset : CtrCore := { keyref := keyRefReset, cb := Block.zero, w := 0 }

/-- Reset value of a `MacCore` (R24). -/
def MacCore.reset : MacCore := { cbc := CbcCore.reset, pend := Block.zero, plen := 0 }

/-- Reset value of `CBC` (R24). -/
def CbcCtx.reset : CbcCtx := { core := CbcCore.reset, held := Block.zero, heldv := false, phase := .idle }

/-- Reset value of `CMAC` (R24). -/
def CmacCtx.reset : CmacCtx := { cbc := CbcCore.reset, pend := Block.zero, plen := 0, phase := .idle }

/-- Reset value of `CTR` (R24). -/
def CtrCtx.reset : CtrCtx := { core := CtrCore.reset, phase := .idle }

/-- Reset value of `MAC` (R24). -/
def MacCtx.reset : MacCtx := { core := MacCore.reset, phase := .idle }

/-- Reset value of `CCM` (R24). -/
def CcmCtx.reset : CcmCtx :=
  { mac := MacCore.reset, ctr := CtrCore.reset, ivsize := 0, tagsize := 0, aadsize := 0, textsize := 0,
    aadcons := 0, textcons := 0, ks := Block.zero, phase := .idle }

/-- The machine right after reset (spec/10_state.md R24, spec/70_reset_and_hazards.md R125), with the default strap
values (R23; log entry 4), nothing presented by the host and nothing exchanged yet (log entries 1, 2, 3 and 5). -/
def State.reset : State :=
  { cbc := CbcCtx.reset, cmac := CmacCtx.reset, ctr := CtrCtx.reset, mac := MacCtx.reset, ccm := CcmCtx.reset,
    straps := Config.defaultStraps, pending := [], responses := [],
    bc := { cipher := .keyed 0, draws := [], trace := [] } }

/-! ## Writing one field -/

/-- `s` with this CBC context. -/
def State.setCbc (s : State) (c : CbcCtx) : State := { s with cbc := c }
/-- `s` with this CMAC context. -/
def State.setCmac (s : State) (c : CmacCtx) : State := { s with cmac := c }
/-- `s` with this CTR context. -/
def State.setCtr (s : State) (c : CtrCtx) : State := { s with ctr := c }
/-- `s` with this CBC-MAC context. -/
def State.setMac (s : State) (c : MacCtx) : State := { s with mac := c }
/-- `s` with this CCM context. -/
def State.setCcm (s : State) (c : CcmCtx) : State := { s with ccm := c }
/-- `s` with these strap values. -/
def State.setStraps (s : State) (v : Straps) : State := { s with straps := v }
/-- `s` with these host events still to come. -/
def State.setPending (s : State) (l : List HostEvent) : State := { s with pending := l }
/-- `s` after this response has been presented. -/
def State.addResponse (s : State) (r : Response) : State := { s with responses := s.responses ++ [r] }
/-- `s` with this BlockCipher port. -/
def State.setBc (s : State) (p : BcPort) : State := { s with bc := p }

end Sys2Proof.Machine
end

