-- ==== Sys2Proof/Machine/Flags.lean ====
section
/-! DEFINITION. What takes the place of flags (spec/10_state.md R22): the status codes, the response of a command, and
the output capacity a command demands. -/

namespace Sys2Proof.Machine

/-- The `STATUS` byte, `class << 4 | detail` (spec/60_exceptions.md R105). -/
def statusCode : Status → Byte
  | .ok => 0x00
  | .nullPointer => 0x11
  | .badParam => 0x12
  | .bufferTooSmall => 0x21
  | .protocolViolation => 0x31
  | .genFail => 0x32
  | .badState => 0x33
  | .ioError => 0x41

/-- What a command raises (R105, R112). -/
inductive Err where
  | nullPointer
  | badParam
  /-- With the required capacity, reported in `REQ` (R109). -/
  | bufferTooSmall (n : Nat)
  | protocolViolation
  | genFail
  | badState
  /-- With the BlockCipher's failure code, reported in `AUX` (R114). -/
  | ioError (c : IoCode)
deriving DecidableEq, Repr

/-- The status of an error (R105). -/
def errStatus : Err → Status
  | .nullPointer => .nullPointer
  | .badParam => .badParam
  | .bufferTooSmall _ => .bufferTooSmall
  | .protocolViolation => .protocolViolation
  | .genFail => .genFail
  | .badState => .badState
  | .ioError _ => .ioError

/-- `AUX` of an error: the failure code on `IOError`, else `0x00` (R112). -/
def errAux : Err → Byte
  | .ioError c => c.val
  | _ => 0

/-- `REQ` of an error: the required capacity on `BufferTooSmall`, else 0 (R112). -/
def errReq : Err → Half
  | .bufferTooSmall n => BitVec.ofNat 16 n
  | _ => 0

/-- The response of an error: no output (R112). -/
def errResponse (e : Err) : Response := { status := errStatus e, aux := errAux e, req := errReq e, out := [] }

/-- The response of a success with this `AUX`, demand and output (R41, R109). -/
def okResponse (aux : Byte) (req : Nat) (out : List Byte) : Response :=
  { status := .ok, aux := aux, req := BitVec.ofNat 16 req, out := out }

/-- A response as the byte string on the response port: `STATUS AUX OLEN(2) REQ(2) OUT` (spec/30_encoding.md R41). -/
def responseBytes (r : Response) : List Byte :=
  [statusCode r.status, r.aux] ++ be r.out.length 2 ++ be r.req.toNat 2 ++ r.out

/-- `upd_req(exact, LEN)`: the capacity a block-granular update demands (R109). -/
def updReq (st : Straps) (exact len : Nat) : Nat :=
  match st.capPolicy with
  | .exact => exact
  | .conservative => 16 * ((len + 15) / 16)

end Sys2Proof.Machine
end

