-- ==== Sys2Proof/Machine/Operands.lean ====
section
/-! DEFINITION. The operands inside `PAYLOAD` (spec/30_encoding.md R48, R49) and `ARG` (R45). -/

namespace Sys2Proof.Machine

/-- `keyref(PAYLOAD[0..2])`: `be(slot, 2) || blk` (R48). -/
def payloadKeyRef (payload : List Byte) : KeyRef :=
  { slot := BitVec.ofNat 16 (intBe (slice payload 0 2)), blk := BitVec.ofNat 8 (intBe (slice payload 2 1)) }

/-- `PAYLOAD[3..18]`: the `iv` of CBC.INIT, the `counterBlock` of CTR.INIT (R48). -/
def payloadBlock (payload : List Byte) : Block := Block.ofList (slice payload 3 16)

/-- `ARG` bit 0 of CBC.INIT: padding enabled (R45). -/
def argPadding (arg : Byte) : Bool := arg.getLsbD 0

/-- `ARG[7:1]` of CBC.INIT, reserved (R45). -/
def argReserved (arg : Byte) : Byte := arg >>> 1

/-- `ivSize`, byte 3 of the CCM.INIT parameter block (R49). -/
def ccmIvSize (payload : List Byte) : Nat := intBe (slice payload 3 1)

/-- `aadSize`, bytes 4..11 (R49). -/
def ccmAadSize (payload : List Byte) : Nat := intBe (slice payload 4 8)

/-- `textSize`, bytes 12..19 (R49). -/
def ccmTextSize (payload : List Byte) : Nat := intBe (slice payload 12 8)

/-- `iv`, bytes 20..19+ivSize (R49). -/
def ccmIv (payload : List Byte) : List Byte := slice payload 20 (ccmIvSize payload)

/-- The legal values of `tagSize` (spec/45_ccm.md R89). -/
def ccmTagSizes : List Nat := [4, 6, 8, 10, 12, 14, 16]

end Sys2Proof.Machine
end

