-- ==== Sys2Proof/Machine/Ops.lean ====
section
/-! DEFINITION. The operations the commands share: the BlockCipher port, buffering, clearing a context, presenting a
response, error entry (this block's exception) and reset. -/

namespace Sys2Proof.Machine

/-! ## The BlockCipher port -/

/-- The outcome of a computation that makes BlockCipher requests: a value, or the failure code of the request that
failed, and the port afterwards. -/
inductive BcResult (α : Type) where
  | ok (a : α) (p : BcPort)
  | failed (c : IoCode) (p : BcPort)

/-- Go on after a success; a failure ends everything and no further request is issued (spec/20_memory.md R31). -/
def BcResult.andThen {α β : Type} (r : BcResult α) (f : α → BcPort → BcResult β) : BcResult β :=
  match r with
  | .ok a p => f a p
  | .failed c p => .failed c p

/-- The answer of the collaborator's cipher (R30, R32): `BC_ENC` is a permutation per key handle, `BC_DEC` its inverse. -/
def cipherAnswer (c : Cipher) (op : BcOp) (k : KeyRef) (x : Block) : Block :=
  match op with
  | .enc => cipherPerm c k x
  | .dec => (cipherPerm c k).symm x

/-- One request on the BlockCipher port (R30, R31, R32): it is recorded, one draw is used up, and the draw says whether
it fails; a success is answered by the one cipher, so equal requests get equal answers. -/
def bcRequest (op : BcOp) (k : KeyRef) (x : Block) (p : BcPort) : BcResult Block :=
  let p' : BcPort :=
    { cipher := p.cipher, draws := p.draws.tail, trace := p.trace ++ [{ op := op, key := k, blk := x }] }
  match p.draws.head? with
  | some (.err c) => .failed c p'
  | some .cipher | none => .ok (cipherAnswer p.cipher op k x) p'

/-- `cbc_enc_block(S, X)` (spec/41_cbc.md R60): the result and the core with its new chaining value. -/
def cbcEncBlock (S : CbcCore) (x : Block) (p : BcPort) : BcResult (Block × CbcCore) :=
  (bcRequest .enc S.keyref (x.xor S.chain) p).andThen fun y p' => .ok (y, { S with chain := y }) p'

/-- `cbc_dec_block(S, C)` (R61): the new chaining value is the ciphertext block just consumed. -/
def cbcDecBlock (S : CbcCore) (c : Block) (p : BcPort) : BcResult (Block × CbcCore) :=
  (bcRequest .dec S.keyref c p).andThen fun y p' => .ok (y.xor S.chain, { S with chain := c }) p'

/-! ## Buffering -/

/-- What appending a byte to a pending buffer leaves: a block still incomplete, or a complete one. -/
inductive Buffered where
  | part (pend : Block) (plen : Fin 16)
  | full (x : Block)
deriving DecidableEq, Repr

/-- Append a byte at index `PLEN` and increment `PLEN`; at 16 the block is complete (spec/46_common_laws.md R142). -/
def bufferByte (pend : Block) (plen : Fin 16) (b : Byte) : Buffered :=
  let pend' := pend.set plen.val b
  if h : plen.val + 1 < 16 then .part pend' ⟨plen.val + 1, h⟩ else .full pend'

/-- Consume a byte string in order, first byte first (R142): `f` takes one byte and gives the bytes emitted and the
new context; the outputs are appended in order. -/
def feed {σ : Type} (f : σ → Byte → BcPort → BcResult (List Byte × σ)) :
    σ → List Byte → BcPort → BcResult (List Byte × σ)
  | S, [], p => .ok ([], S) p
  | S, b :: bs, p =>
    (f S b p).andThen fun r p' =>
      (feed f r.2 bs p').andThen fun r' p'' => .ok (r.1 ++ r'.1, r'.2) p''

/-! ## Clearing a context -/

/-- `clear` of a `CbcCore`: all but the key handle (spec/10_state.md R21). -/
def clearCbcCore (S : CbcCore) : CbcCore :=
  { keyref := S.keyref, chain := Block.zero, pend := Block.zero, plen := 0, pad := false }

/-- `clear` of a `MacCore` (R21). -/
def clearMacCore (M : MacCore) : MacCore := { cbc := clearCbcCore M.cbc, pend := Block.zero, plen := 0 }

/-- `clear` of a `CtrCore` (R21). -/
def clearCtrCore (C : CtrCore) : CtrCore := { keyref := C.keyref, cb := Block.zero, w := 0 }

/-- `clear(CBC)` (R21). -/
def clearCbc (C : CbcCtx) : CbcCtx :=
  { core := clearCbcCore C.core, held := Block.zero, heldv := false, phase := .idle }

/-- `clear(CMAC)` (R21). -/
def clearCmac (C : CmacCtx) : CmacCtx :=
  { cbc := clearCbcCore C.cbc, pend := Block.zero, plen := 0, phase := .idle }

/-- `clear(CTR)` (R21). -/
def clearCtr (C : CtrCtx) : CtrCtx := { core := clearCtrCore C.core, phase := .idle }

/-- `clear(MAC)` (R21). -/
def clearMac (C : MacCtx) : MacCtx := { core := clearMacCore C.core, phase := .idle }

/-- `clear(CCM)` (R21). -/
def clearCcm (C : CcmCtx) : CcmCtx :=
  { mac := clearMacCore C.mac, ctr := clearCtrCore C.ctr, ivsize := 0, tagsize := 0, aadsize := 0, textsize := 0,
    aadcons := 0, textcons := 0, ks := Block.zero, phase := .idle }

/-- The engine a command names by `ENG = OPC[7:4]` (spec/30_encoding.md R42). -/
inductive Eng where
  | p7
  | cbc
  | cmac
  | ctr
  | mac
  | ccm
deriving DecidableEq, Repr

/-- `clear(S)` for the context `S` of an engine; the PKCS7 codec has none (R21, R42). -/
def clearEng (e : Eng) (s : State) : State :=
  match e with
  | .p7 => s
  | .cbc => s.setCbc (clearCbc s.cbc)
  | .cmac => s.setCmac (clearCmac s.cmac)
  | .ctr => s.setCtr (clearCtr s.ctr)
  | .mac => s.setMac (clearMac s.mac)
  | .ccm => s.setCcm (clearCcm s.ccm)

/-! ## The end of a command -/

/-- A command ends well: its response is presented (spec/30_encoding.md R41, R54). -/
def respond (aux : Byte) (req : Nat) (out : List Byte) (s : State) : Result :=
  .next (s.addResponse (okResponse aux req out))

/-- Error entry, what `raise E` does (spec/60_exceptions.md R112): the output is discarded, the context the command's
`ENG` names is cleared but for its key handle, the response is presented. There is no return from it: R116 leaves only
the engine's INIT command. -/
def raise (e : Eng) (err : Err) (s : State) : Result :=
  .next ((clearEng e s).addResponse (errResponse err))

/-- Run a computation that makes BlockCipher requests; a failed request ends the command with `IOError` (R114). -/
def runCipher {α : Type} (e : Eng) (r : BcResult α) (s : State) (k : α → State → Result) : Result :=
  match r with
  | .ok a p => k a (s.setBc p)
  | .failed c p => raise e (.ioError c) (s.setBc p)

/-- The answer to a malformed packet or a reserved opcode: `BadParam`, and no context is touched
(spec/30_encoding.md R43, R44). -/
def rejectPacket (s : State) : Result := .next (s.addResponse (errResponse .badParam))

/-! ## The host's events -/

/-- Reset asserted and released: every context at its reset value, the straps sampled; the host's later events, what it
has received and the BlockCipher collaborator are not reached (spec/70_reset_and_hazards.md R125). -/
def resetEvent (straps : Straps) (s : State) : State :=
  { cbc := CbcCtx.reset, cmac := CmacCtx.reset, ctr := CtrCtx.reset, mac := MacCtx.reset, ccm := CcmCtx.reset,
    straps := straps, pending := s.pending, responses := s.responses, bc := s.bc }

/-- The host presents a packet as its next action, in place of the one it would have taken. -/
def presentNext (packet : List Byte) (s : State) : State := s.setPending (.command packet :: s.pending.tail)

end Sys2Proof.Machine
end

