-- ==== Sys2Proof/Machine/Pkcs7.lean ====
section
/-! DEFINITION. The PKCS7 codec (spec/40_pkcs7.md): P7.PAD, P7.UNPAD. It has no context. -/

namespace Sys2Proof.Machine

/-- `pad7(B)` (R55). -/
def pad7 (bs : List Byte) : List Byte :=
  let p := 16 - bs.length % 16
  bs ++ rep (BitVec.ofNat 8 p) p

/-- `unpad7(B)`, `none` where it fails (R56). -/
def unpad7 (bs : List Byte) : Option (List Byte) :=
  let n := bs.length
  if n = 0 ∨ n % 16 ≠ 0 then none
  else
    let last := bs.getD (n - 1) 0
    let p := last.toNat
    if p < 1 ∨ p > 16 then none
    else if (bs.drop (n - p)).any (fun b => b != last) then none
    else some (bs.take (n - p))

/-- P7.PAD (R57). -/
def execP7Pad (arg : Byte) (outcap : Half) (payload : List Byte) (s : State) : Result :=
  let req := 16 * (payload.length / 16 + 1)
  if arg ≠ 0 then raise .p7 .badParam s
  else if req > 65535 then raise .p7 .badParam s
  else if outcap.toNat < req then raise .p7 (.bufferTooSmall req) s
  else respond 0 req (pad7 payload) s

/-- P7.UNPAD (R58). -/
def execP7Unpad (arg : Byte) (outcap : Half) (payload : List Byte) (s : State) : Result :=
  let len := payload.length
  let req := len - 1
  if arg ≠ 0 then raise .p7 .badParam s
  else if len = 0 ∨ len % 16 ≠ 0 then raise .p7 .genFail s
  else if outcap.toNat < req then raise .p7 (.bufferTooSmall req) s
  else
    match unpad7 payload with
    | none => raise .p7 .genFail s
    | some out => respond 0 req out s

end Sys2Proof.Machine
end

