-- ==== Sys2Proof/Machine/Cbc.lean ====
section
/-! DEFINITION. The CBC Engine (spec/41_cbc.md): CBC.INIT, CBC.ENC_UPDATE, CBC.ENC_FINISH, CBC.DEC_UPDATE,
CBC.DEC_FINISH. -/

namespace Sys2Proof.Machine

/-- One plaintext byte of CBC.ENC_UPDATE: a block is encrypted as soon as its sixteenth byte arrives (R63). -/
def cbcEncByte (S : CbcCore) (b : Byte) (p : BcPort) : BcResult (List Byte × CbcCore) :=
  match bufferByte S.pend S.plen b with
  | .part pend plen => .ok ([], { S with pend := pend, plen := plen }) p
  | .full x =>
    (cbcEncBlock S x p).andThen fun r p' => .ok (r.1.toList, { r.2 with pend := Block.zero, plen := 0 }) p'

/-- A decrypted block leaves the engine: with padding enabled it is held back and the one held before is released, else
it is released at once (R65). -/
def cbcRelease (C : CbcCtx) (x : Block) : List Byte × CbcCtx :=
  if C.core.pad then
    (if C.heldv then C.held.toList else [], { C with held := x, heldv := true })
  else (x.toList, C)

/-- One ciphertext byte of CBC.DEC_UPDATE (R65). -/
def cbcDecByte (C : CbcCtx) (b : Byte) (p : BcPort) : BcResult (List Byte × CbcCtx) :=
  match bufferByte C.core.pend C.core.plen b with
  | .part pend plen => .ok ([], { C with core := { C.core with pend := pend, plen := plen } }) p
  | .full x =>
    (cbcDecBlock C.core x p).andThen fun r p' =>
      .ok (cbcRelease { C with core := { r.2 with pend := Block.zero, plen := 0 } } r.1) p'

/-- `exact` of CBC.ENC_UPDATE: the bytes it will produce (R63). -/
def cbcEncExact (C : CbcCtx) (len : Nat) : Nat := 16 * ((C.core.plen.val + len) / 16)

/-- `exact` of CBC.DEC_UPDATE: with padding enabled the first block of the stream is held and none released (R65). -/
def cbcDecExact (C : CbcCtx) (len : Nat) : Nat :=
  let nb := (C.core.plen.val + len) / 16
  if C.core.pad ∧ nb > 0 ∧ ¬ C.heldv then 16 * nb - 16 else 16 * nb

/-- The context CBC.INIT leaves (R62). -/
def cbcStart (arg : Byte) (payload : List Byte) : CbcCtx :=
  { core := { keyref := payloadKeyRef payload, chain := payloadBlock payload, pend := Block.zero, plen := 0,
              pad := argPadding arg },
    held := Block.zero, heldv := false, phase := .ready }

/-- CBC.INIT (R62): the absent `iv` is `LEN = 3` (R107). `OUTCAP` is ignored (R46). -/
def execCbcInit (arg : Byte) (_outcap : Half) (payload : List Byte) (s : State) : Result :=
  if payload.length = 3 then raise .cbc .nullPointer s
  else if payload.length ≠ 19 ∨ argReserved arg ≠ 0 then raise .cbc .badParam s
  else respond 0 0 [] (s.setCbc (cbcStart arg payload))

/-- CBC.ENC_UPDATE (R63). -/
def execCbcEncUpdate (arg : Byte) (outcap : Half) (payload : List Byte) (s : State) : Result :=
  let req := updReq s.straps (cbcEncExact s.cbc payload.length) payload.length
  if s.cbc.phase ≠ .ready ∧ s.cbc.phase ≠ .enc then raise .cbc .badState s
  else if arg ≠ 0 then raise .cbc .badParam s
  else if outcap.toNat < req then raise .cbc (.bufferTooSmall req) s
  else
    runCipher .cbc (feed cbcEncByte s.cbc.core payload s.bc) s fun r s' =>
      respond 0 req r.1 (s'.setCbc { s.cbc with core := r.2, phase := .enc })

/-- The end of CBC.ENC_FINISH: encrypt this last block, emit it, clear (R64). -/
def cbcEncLast (x : Block) (s : State) : Result :=
  runCipher .cbc (cbcEncBlock s.cbc.core x s.bc) s fun r s' =>
    respond 0 16 r.1.toList (s'.setCbc (clearCbc s.cbc))

/-- CBC.ENC_FINISH (R64, R69). -/
def execCbcEncFinish (arg : Byte) (outcap : Half) (payload : List Byte) (s : State) : Result :=
  let C := s.cbc.core
  if s.cbc.phase ≠ .ready ∧ s.cbc.phase ≠ .enc then raise .cbc .badState s
  else if payload.length ≠ 0 ∨ arg ≠ 0 then raise .cbc .badParam s
  else if C.pad then
    if outcap.toNat < 16 then raise .cbc (.bufferTooSmall 16) s
    else cbcEncLast (Block.ofList (pad7 (C.pend.toList.take C.plen.val))) s
  else if C.plen = 0 then respond 0 0 [] (s.setCbc (clearCbc s.cbc))
  else if ¬ s.straps.legacyZeroPad then raise .cbc .protocolViolation s
  else if outcap.toNat < 16 then raise .cbc (.bufferTooSmall 16) s
  else cbcEncLast C.pend s

/-- CBC.DEC_UPDATE (R65). -/
def execCbcDecUpdate (arg : Byte) (outcap : Half) (payload : List Byte) (s : State) : Result :=
  let req := updReq s.straps (cbcDecExact s.cbc payload.length) payload.length
  if s.cbc.phase ≠ .ready ∧ s.cbc.phase ≠ .dec then raise .cbc .badState s
  else if arg ≠ 0 then raise .cbc .badParam s
  else if outcap.toNat < req then raise .cbc (.bufferTooSmall req) s
  else
    runCipher .cbc (feed cbcDecByte s.cbc payload s.bc) s fun r s' =>
      respond 0 req r.1 (s'.setCbc { r.2 with phase := .dec })

/-- CBC.DEC_FINISH (R66, R69). -/
def execCbcDecFinish (arg : Byte) (outcap : Half) (payload : List Byte) (s : State) : Result :=
  let C := s.cbc.core
  if s.cbc.phase ≠ .ready ∧ s.cbc.phase ≠ .dec then raise .cbc .badState s
  else if payload.length ≠ 0 ∨ arg ≠ 0 then raise .cbc .badParam s
  else if C.pad then
    if C.plen ≠ 0 ∨ ¬ s.cbc.heldv then raise .cbc .genFail s
    else if outcap.toNat < 15 then raise .cbc (.bufferTooSmall 15) s
    else
      match unpad7 s.cbc.held.toList with
      | none => raise .cbc .genFail s
      | some out => respond 0 15 out (s.setCbc (clearCbc s.cbc))
  else if C.plen = 0 then respond 0 0 [] (s.setCbc (clearCbc s.cbc))
  else if ¬ s.straps.legacyZeroPad then raise .cbc .protocolViolation s
  else if outcap.toNat < 16 then raise .cbc (.bufferTooSmall 16) s
  else
    runCipher .cbc (cbcDecBlock C C.pend s.bc) s fun r s' =>
      respond 0 16 r.1.toList (s'.setCbc (clearCbc s.cbc))

end Sys2Proof.Machine
end

