-- ==== Sys2Proof/Machine/Ctr.lean ====
section
/-! DEFINITION. The CTR Engine (spec/43_ctr.md): CTR.INIT, CTR.ENC_BLOCK, CTR.DEC_BLOCK. -/

namespace Sys2Proof.Machine

/-- `inc(X, w)` (R79): the low `w` bytes as a big-endian integer plus 1, carry confined to that field. -/
def inc (x : Block) (w : Nat) : Block :=
  let v := intBe (x.toList.drop (16 - w))
  Block.ofList (x.toList.take (16 - w) ++ be ((v + 1) % 256 ^ w) w)

/-- The width check of R81, made by every block command and by no other. -/
def ctrWidthBad (st : Straps) (w : Byte) : Bool :=
  decide (w.toNat > 16) || (decide (w = 0) && decide (st.ctrWidth0 = .reject))

/-- The counter after a block (R78): unchanged when the width is 0. -/
def ctrStep (C : CtrCore) : CtrCore := if C.w ≠ 0 then { C with cb := inc C.cb C.w.toNat } else C

/-- The context CTR.INIT leaves (R77). -/
def ctrStart (arg : Byte) (payload : List Byte) : CtrCtx :=
  { core := { keyref := payloadKeyRef payload, cb := payloadBlock payload, w := arg }, phase := .active }

/-- The transformation the two block commands share (R78, R80): the checks in order, then `in xor BC_ENC(CB)` with the
counter block as it stands before the increment. -/
def ctrBlock (arg : Byte) (outcap : Half) (payload : List Byte) (s : State) : Result :=
  let C := s.ctr.core
  if s.ctr.phase ≠ .active then raise .ctr .badState s
  else if ctrWidthBad s.straps C.w then raise .ctr .badParam s
  else if payload.length ≠ 16 ∨ arg ≠ 0 then raise .ctr .badParam s
  else if outcap.toNat < 16 then raise .ctr (.bufferTooSmall 16) s
  else
    runCipher .ctr (bcRequest .enc C.keyref C.cb s.bc) s fun ks s' =>
      respond 0 16 ((Block.ofList payload).xor ks).toList (s'.setCtr { s.ctr with core := ctrStep C })

/-- CTR.INIT (R77): the width is not range-checked here. `OUTCAP` is ignored (R46). -/
def execCtrInit (arg : Byte) (_outcap : Half) (payload : List Byte) (s : State) : Result :=
  if payload.length ≠ 19 then raise .ctr .badParam s
  else respond 0 0 [] (s.setCtr (ctrStart arg payload))

/-- CTR.ENC_BLOCK (R78). -/
def execCtrEncBlock (arg : Byte) (outcap : Half) (payload : List Byte) (s : State) : Result :=
  ctrBlock arg outcap payload s

/-- CTR.DEC_BLOCK (R80): exactly the function of CTR.ENC_BLOCK, `BC_ENC` included. -/
def execCtrDecBlock (arg : Byte) (outcap : Half) (payload : List Byte) (s : State) : Result :=
  ctrBlock arg outcap payload s

end Sys2Proof.Machine
end

