-- ==== Sys2Proof/Machine/Mac.lean ====
section
/-! DEFINITION. The CBC-MAC Engine (spec/44_cbcmac.md): MAC.INIT, MAC.UPDATE, MAC.FINISH; its data path is also the
authentication half of the CCM Engine. -/

namespace Sys2Proof.Machine

/-- One byte of `mac_feed` (R83): a block is encrypted as soon as its sixteenth byte arrives, and nothing is emitted. -/
def macByte (M : MacCore) (b : Byte) (p : BcPort) : BcResult (List Byte × MacCore) :=
  match bufferByte M.pend M.plen b with
  | .part pend plen => .ok ([], { M with pend := pend, plen := plen }) p
  | .full x =>
    (cbcEncBlock M.cbc x p).andThen fun r p' => .ok ([], { cbc := r.2, pend := Block.zero, plen := 0 }) p'

/-- `mac_feed(M, D)` (R83). -/
def macFeed (M : MacCore) (d : List Byte) (p : BcPort) : BcResult MacCore :=
  (feed macByte M d p).andThen fun r p' => .ok r.2 p'

/-- A `MacCore` at the start of a stream: zero IV, empty buffer (R84, spec/45_ccm.md R94). -/
def macCoreStart (k : KeyRef) : MacCore :=
  { cbc := { keyref := k, chain := Block.zero, pend := Block.zero, plen := 0, pad := false },
    pend := Block.zero, plen := 0 }

/-- MAC.INIT (R84). `OUTCAP` is ignored (R46). -/
def execMacInit (arg : Byte) (_outcap : Half) (payload : List Byte) (s : State) : Result :=
  if payload.length ≠ 3 ∨ arg ≠ 0 then raise .mac .badParam s
  else respond 0 0 [] (s.setMac { core := macCoreStart (payloadKeyRef payload), phase := .active })

/-- MAC.UPDATE (R85). `OUTCAP` is ignored (R46). -/
def execMacUpdate (arg : Byte) (_outcap : Half) (payload : List Byte) (s : State) : Result :=
  if s.mac.phase ≠ .active then raise .mac .badState s
  else if arg ≠ 0 then raise .mac .badParam s
  else
    runCipher .mac (macFeed s.mac.core payload s.bc) s fun m s' =>
      respond 0 0 [] (s'.setMac { s.mac with core := m })

/-- MAC.FINISH (R86): alignment before capacity; the MAC is the chain value. -/
def execMacFinish (arg : Byte) (outcap : Half) (payload : List Byte) (s : State) : Result :=
  let req := arg.toNat
  if s.mac.phase ≠ .active then raise .mac .badState s
  else if payload.length ≠ 0 ∨ arg.toNat > 16 then raise .mac .badParam s
  else if s.mac.core.plen ≠ 0 then raise .mac .protocolViolation s
  else if outcap.toNat < req then raise .mac (.bufferTooSmall req) s
  else respond 0 req (s.mac.core.cbc.chain.toList.take arg.toNat) (s.setMac (clearMac s.mac))

end Sys2Proof.Machine
end

