-- ==== Sys2Proof/Machine/Ccm.lean ====
section
/-! DEFINITION. The CCM Engine (spec/45_ccm.md): CCM.INIT, CCM.AAD_UPDATE, CCM.AAD_FINISH, CCM.ENC_UPDATE,
CCM.ENC_FINISH, CCM.DEC_UPDATE, CCM.DEC_FINISH. -/

namespace Sys2Proof.Machine

/-! ## Formatting -/

/-- The flags byte of `B0` (R90): bit 6 `Adata`, bits 5:3 `(tagSize-2)/2`, bits 2:0 `L-1`. -/
def ccmFlags (tagSize aadSize l : Nat) : Byte :=
  BitVec.ofNat 8 (((if aadSize > 0 then 1 else 0) <<< 6) ||| (((tagSize - 2) / 2) <<< 3) ||| (l - 1))

/-- `B0` (R90): flags, nonce, message length big-endian in `L` bytes. -/
def ccmB0 (tagSize aadSize textSize : Nat) (iv : List Byte) : List Byte :=
  let l := 15 - iv.length
  [ccmFlags tagSize aadSize l] ++ iv ++ be textSize l

/-- `A_i` (R91): the byte `L-1`, nonce, `i` big-endian in `L` bytes. -/
def ccmA (iv : List Byte) (i : Nat) : Block :=
  let l := 15 - iv.length
  Block.ofList ([BitVec.ofNat 8 (l - 1)] ++ iv ++ be i l)

/-- `aad_prefix(n)` (R92). -/
def aadPrefix (n : Nat) : List Byte :=
  if n = 0 then []
  else if n < 0xFF00 then be n 2
  else if n < 2 ^ 32 then [0xFF, 0xFE] ++ be n 4
  else [0xFF, 0xFF] ++ be n 8

/-! ## Data paths -/

/-- `ccm_flush()` (R96): zero-pad and process the pending block, if any. -/
def ccmFlush (M : MacCore) (p : BcPort) : BcResult MacCore :=
  if M.plen ≠ 0 then macFeed M (zeros (16 - M.plen.val)) p else .ok M p

/-- The direction of the text data path (R97). -/
inductive CcmDir where
  | enc
  | dec
deriving DecidableEq, Repr

/-- The keystream at the first byte of a text block (R97): `S_j` from the next counter block, which then steps. -/
def ccmKeystream (C : CcmCtx) (p : BcPort) : BcResult CcmCtx :=
  if C.textcons.toNat % 16 = 0 then
    (bcRequest .enc C.ctr.keyref C.ctr.cb p).andThen fun ks p' =>
      .ok { C with ks := ks, ctr := { C.ctr with cb := inc C.ctr.cb C.ctr.w.toNat } } p'
  else .ok C p

/-- One byte of `ccm_text(dir, D)` (R97): the plaintext byte is what the CBC-MAC authenticates. -/
def ccmTextByte (dir : CcmDir) (C : CcmCtx) (b : Byte) (p : BcPort) : BcResult (List Byte × CcmCtx) :=
  (ccmKeystream C p).andThen fun C' p' =>
    let o := b ^^^ C'.ks[C.textcons.toNat % 16]
    let plain := match dir with
      | .enc => b
      | .dec => o
    (macFeed C'.mac [plain] p').andThen fun m p'' =>
      .ok ([o], { C' with mac := m, textcons := C'.textcons + 1 }) p''

/-- `A_0`, recovered from the counter block by zeroing its low `W` bytes (R91, R100). -/
def ccmA0 (C : CtrCore) : Block := Block.ofList (C.cb.toList.take (16 - C.w.toNat) ++ zeros C.w.toNat)

/-- `ccm_tag()` (R100): flush, mask with the keystream of counter 0, keep the leftmost `tagSize` bytes. -/
def ccmTag (C : CcmCtx) (p : BcPort) : BcResult (List Byte) :=
  (ccmFlush C.mac p).andThen fun m p' =>
    (bcRequest .enc C.ctr.keyref (ccmA0 C.ctr) p').andThen fun s0 p'' =>
      .ok ((m.cbc.chain.xor s0).toList.take C.tagsize.toNat) p''

/-- The OR of all bytewise differences of two tags, over every byte (R102, spec/46_common_laws.md R140). -/
def tagDiff (a b : List Byte) : Byte := (List.zipWith (fun x y => x ^^^ y) a b).foldl (fun acc d => acc ||| d) 0

/-! ## The commands -/

/-- The context CCM.INIT sets up before it feeds `B0` (R94). -/
def ccmStart (arg : Byte) (payload : List Byte) : CcmCtx :=
  { mac := macCoreStart (payloadKeyRef payload),
    ctr := { keyref := payloadKeyRef payload, cb := ccmA (ccmIv payload) 1,
             w := BitVec.ofNat 8 (15 - ccmIvSize payload) },
    ivsize := BitVec.ofNat 8 (ccmIvSize payload), tagsize := arg,
    aadsize := BitVec.ofNat 64 (ccmAadSize payload), textsize := BitVec.ofNat 64 (ccmTextSize payload),
    aadcons := 0, textcons := 0, ks := Block.zero, phase := .init }

/-- CCM.INIT (R94). `OUTCAP` is ignored (R46). -/
def execCcmInit (arg : Byte) (_outcap : Half) (payload : List Byte) (s : State) : Result :=
  let ivSize := ccmIvSize payload
  if arg.toNat ∉ ccmTagSizes then raise .ccm .badParam s
  else if payload.length < 20 then raise .ccm .badParam s
  else if ivSize < 7 ∨ ivSize > 13 then raise .ccm .badParam s
  else if payload.length ≠ 20 + ivSize then raise .ccm .badParam s
  else if ccmTextSize payload ≥ 2 ^ (8 * (15 - ivSize)) then raise .ccm .badParam s
  else
    let C := ccmStart arg payload
    let b0 := ccmB0 arg.toNat (ccmAadSize payload) (ccmTextSize payload) (ccmIv payload)
    runCipher .ccm (macFeed C.mac b0 s.bc) (s.setCcm C) fun m s' => respond 0 0 [] (s'.setCcm { C with mac := m })

/-- The prefix a CCM.AAD_UPDATE feeds before its data: on the first one only (R95). -/
def ccmFirstAad (C : CcmCtx) : List Byte := if C.phase = .init then aadPrefix C.aadsize.toNat else []

/-- CCM.AAD_UPDATE (R95). `OUTCAP` is ignored (R46). -/
def execCcmAadUpdate (arg : Byte) (_outcap : Half) (payload : List Byte) (s : State) : Result :=
  let C := s.ccm
  if C.phase ≠ .init ∧ C.phase ≠ .aad then raise .ccm .badState s
  else if arg ≠ 0 then raise .ccm .badParam s
  else if C.aadcons.toNat + payload.length > C.aadsize.toNat then raise .ccm .genFail s
  else
    runCipher .ccm
      ((macFeed C.mac (ccmFirstAad C) s.bc).andThen fun m p => macFeed m payload p) s fun m s' =>
        respond 0 0 [] (s'.setCcm
          { C with mac := m, aadcons := C.aadcons + BitVec.ofNat 64 payload.length, phase := .aad })

/-- CCM.AAD_FINISH (R96). `OUTCAP` is ignored (R46). -/
def execCcmAadFinish (arg : Byte) (_outcap : Half) (payload : List Byte) (s : State) : Result :=
  let C := s.ccm
  if C.phase ≠ .init ∧ C.phase ≠ .aad then raise .ccm .badState s
  else if arg ≠ 0 ∨ payload.length ≠ 0 then raise .ccm .badParam s
  else if C.aadcons ≠ C.aadsize then raise .ccm .genFail s
  else
    runCipher .ccm (ccmFlush C.mac s.bc) s fun m s' =>
      respond 0 0 [] (s'.setCcm { C with mac := m, phase := .aadFinish })

/-- The text update the two directions share (R98, R99): `active` is the direction's phase. -/
def ccmTextUpdate (dir : CcmDir) (active : CcmPhase) (arg : Byte) (outcap : Half) (payload : List Byte)
    (s : State) : Result :=
  let C := s.ccm
  let req := payload.length
  if C.phase ≠ .aadFinish ∧ C.phase ≠ active then raise .ccm .badState s
  else if arg ≠ 0 then raise .ccm .badParam s
  else if C.textcons.toNat + payload.length > C.textsize.toNat then raise .ccm .genFail s
  else if outcap.toNat < req then raise .ccm (.bufferTooSmall req) s
  else
    runCipher .ccm (feed (ccmTextByte dir) C payload s.bc) s fun r s' =>
      respond 0 req r.1 (s'.setCcm { r.2 with phase := active })

/-- CCM.ENC_UPDATE (R98). -/
def execCcmEncUpdate (arg : Byte) (outcap : Half) (payload : List Byte) (s : State) : Result :=
  ccmTextUpdate .enc .encryptText arg outcap payload s

/-- CCM.ENC_FINISH (R101). -/
def execCcmEncFinish (arg : Byte) (outcap : Half) (payload : List Byte) (s : State) : Result :=
  let C := s.ccm
  let req := C.tagsize.toNat
  if C.phase ≠ .aadFinish ∧ C.phase ≠ .encryptText then raise .ccm .badState s
  else if arg ≠ C.tagsize ∨ payload.length ≠ 0 then raise .ccm .badParam s
  else if C.textcons ≠ C.textsize then raise .ccm .genFail s
  else if outcap.toNat < req then raise .ccm (.bufferTooSmall req) s
  else
    runCipher .ccm (ccmTag C s.bc) s fun t s' => respond 0 req t (s'.setCcm (clearCcm C))

/-- CCM.DEC_UPDATE (R99). -/
def execCcmDecUpdate (arg : Byte) (outcap : Half) (payload : List Byte) (s : State) : Result :=
  ccmTextUpdate .dec .decryptText arg outcap payload s

/-- CCM.DEC_FINISH (R102, R119): a mismatch is no error; `AUX` is the verdict. `OUTCAP` is ignored (R46). -/
def execCcmDecFinish (arg : Byte) (_outcap : Half) (payload : List Byte) (s : State) : Result :=
  let C := s.ccm
  if C.phase ≠ .aadFinish ∧ C.phase ≠ .decryptText then raise .ccm .badState s
  else if arg ≠ C.tagsize ∨ payload.length ≠ C.tagsize.toNat then raise .ccm .badParam s
  else if C.textcons ≠ C.textsize then raise .ccm .genFail s
  else
    runCipher .ccm (ccmTag C s.bc) s fun t s' =>
      respond (if tagDiff t payload = 0 then 1 else 0) 0 [] (s'.setCcm (clearCcm C))

end Sys2Proof.Machine
end

