-- ==== Sys2Proof/Machine/Cmac.lean ====
section
/-! DEFINITION. The CMAC Engine (spec/42_cmac.md): CMAC.INIT, CMAC.UPDATE, CMAC.FINISH. -/

namespace Sys2Proof.Machine

/-- `dbl(X)` (R70): one-bit left shift of the 128-bit big-endian value, then `0x87` into the last byte iff the original
most significant bit was 1. -/
def dbl (x : Block) : Block :=
  let v := x.toInt
  let y := Block.ofList (be (v * 2 % 2 ^ 128) 16)
  if v / 2 ^ 127 % 2 = 1 then y.set 15 (y[15] ^^^ Config.rb) else y

/-- `M_last` (R71): the lookahead xor `K1` when it is a whole block, else padded with `0x80` then zeros and xor `K2`. -/
def cmacLast (C : CmacCtx) (l : Block) : Block :=
  let k1 := dbl l
  if C.plen.val = 16 then C.pend.xor k1
  else (Block.ofList (C.pend.toList.take C.plen.val ++ [0x80] ++ zeros (15 - C.plen.val))).xor (dbl k1)

/-- One message byte of CMAC.UPDATE (R73): a full lookahead is folded into the chain only when a byte follows it. -/
def cmacByte (C : CmacCtx) (b : Byte) (p : BcPort) : BcResult (List Byte × CmacCtx) :=
  if h : C.plen.val < 16 then
    .ok ([], { C with pend := C.pend.set C.plen.val b, plen := ⟨C.plen.val + 1, by omega⟩ }) p
  else
    (cbcEncBlock C.cbc C.pend p).andThen fun r p' =>
      .ok ([], { C with cbc := r.2, pend := Block.zero.set 0 b, plen := 1 }) p'

/-- The context CMAC.INIT leaves (R72). -/
def cmacStart (payload : List Byte) : CmacCtx :=
  { cbc := { keyref := payloadKeyRef payload, chain := Block.zero, pend := Block.zero, plen := 0, pad := false },
    pend := Block.zero, plen := 0, phase := .active }

/-- CMAC.INIT (R72). `OUTCAP` is ignored (R46). -/
def execCmacInit (arg : Byte) (_outcap : Half) (payload : List Byte) (s : State) : Result :=
  if payload.length ≠ 3 ∨ arg ≠ 0 then raise .cmac .badParam s
  else respond 0 0 [] (s.setCmac (cmacStart payload))

/-- CMAC.UPDATE (R73). `OUTCAP` is ignored (R46). -/
def execCmacUpdate (arg : Byte) (_outcap : Half) (payload : List Byte) (s : State) : Result :=
  if s.cmac.phase ≠ .active then raise .cmac .badState s
  else if arg ≠ 0 then raise .cmac .badParam s
  else
    runCipher .cmac (feed cmacByte s.cmac payload s.bc) s fun r s' => respond 0 0 [] (s'.setCmac r.2)

/-- The MAC (R71, R74): first the request for `L`, then the folded last block. -/
def cmacTag (C : CmacCtx) (p : BcPort) : BcResult Block :=
  (bcRequest .enc C.cbc.keyref Block.zero p).andThen fun l p' =>
    (cbcEncBlock C.cbc (cmacLast C l) p').andThen fun r p'' => .ok r.1 p''

/-- CMAC.FINISH (R74). -/
def execCmacFinish (arg : Byte) (outcap : Half) (payload : List Byte) (s : State) : Result :=
  let req := arg.toNat
  if s.cmac.phase ≠ .active then raise .cmac .badState s
  else if payload.length ≠ 0 ∨ arg.toNat > 16 then raise .cmac .badParam s
  else if outcap.toNat < req then raise .cmac (.bufferTooSmall req) s
  else
    runCipher .cmac (cmacTag s.cmac s.bc) s fun t s' =>
      respond 0 req (t.toList.take arg.toNat) (s'.setCmac (clearCmac s.cmac))

end Sys2Proof.Machine
end

