-- ==== Sys2Proof/Machine/Dispatch.lean ====
section
/-! DEFINITION. The meaning of every command: one arm per constructor of Instr, in the order of spec/opcode_table.json. -/

namespace Sys2Proof.Machine

def exec (i : Instr) (s : State) : Host.Outcome State Fault Refusal :=
  match i with
  | .p7Pad arg outcap payload => Sys2Proof.Machine.execP7Pad arg outcap payload s
  | .p7Unpad arg outcap payload => Sys2Proof.Machine.execP7Unpad arg outcap payload s
  | .cbcInit arg outcap payload => Sys2Proof.Machine.execCbcInit arg outcap payload s
  | .cbcEncUpdate arg outcap payload => Sys2Proof.Machine.execCbcEncUpdate arg outcap payload s
  | .cbcEncFinish arg outcap payload => Sys2Proof.Machine.execCbcEncFinish arg outcap payload s
  | .cbcDecUpdate arg outcap payload => Sys2Proof.Machine.execCbcDecUpdate arg outcap payload s
  | .cbcDecFinish arg outcap payload => Sys2Proof.Machine.execCbcDecFinish arg outcap payload s
  | .cmacInit arg outcap payload => Sys2Proof.Machine.execCmacInit arg outcap payload s
  | .cmacUpdate arg outcap payload => Sys2Proof.Machine.execCmacUpdate arg outcap payload s
  | .cmacFinish arg outcap payload => Sys2Proof.Machine.execCmacFinish arg outcap payload s
  | .ctrInit arg outcap payload => Sys2Proof.Machine.execCtrInit arg outcap payload s
  | .ctrEncBlock arg outcap payload => Sys2Proof.Machine.execCtrEncBlock arg outcap payload s
  | .ctrDecBlock arg outcap payload => Sys2Proof.Machine.execCtrDecBlock arg outcap payload s
  | .macInit arg outcap payload => Sys2Proof.Machine.execMacInit arg outcap payload s
  | .macUpdate arg outcap payload => Sys2Proof.Machine.execMacUpdate arg outcap payload s
  | .macFinish arg outcap payload => Sys2Proof.Machine.execMacFinish arg outcap payload s
  | .ccmInit arg outcap payload => Sys2Proof.Machine.execCcmInit arg outcap payload s
  | .ccmAadUpdate arg outcap payload => Sys2Proof.Machine.execCcmAadUpdate arg outcap payload s
  | .ccmAadFinish arg outcap payload => Sys2Proof.Machine.execCcmAadFinish arg outcap payload s
  | .ccmEncUpdate arg outcap payload => Sys2Proof.Machine.execCcmEncUpdate arg outcap payload s
  | .ccmEncFinish arg outcap payload => Sys2Proof.Machine.execCcmEncFinish arg outcap payload s
  | .ccmDecUpdate arg outcap payload => Sys2Proof.Machine.execCcmDecUpdate arg outcap payload s
  | .ccmDecFinish arg outcap payload => Sys2Proof.Machine.execCcmDecFinish arg outcap payload s

end Sys2Proof.Machine
end

