-- ==== Sys2Proof/Machine/Step.lean ====
section
/-! DEFINITION. One step: the host's next event. -/

namespace Sys2Proof.Machine

/-- One step (spec/20_memory.md R26, R34; spec/30_encoding.md R43, R44; spec/70_reset_and_hazards.md R125). The host's
next event is taken: a packet is decoded and its command executed to its response, or answered `BadParam` where it is
no command; reset leaves the reset state. With nothing presented the block waits. -/
def step (s : State) : Host.Outcome State Fault Refusal :=
  match s.pending with
  | [] => .next s
  | .reset straps :: rest => .next (resetEvent straps (s.setPending rest))
  | .command packet :: rest =>
    match decode packet with
    | .ok i => exec i (s.setPending rest)
    | .error _ => rejectPacket (s.setPending rest)

/-- `s` with the host presenting, as its next action, the packet of the table word `w` (log entries 1 and 7). -/
def State.withFetchWord (s : State) (nbits w : Nat) : State := presentNext (tablePacket nbits w) s

end Sys2Proof.Machine
end

