-- ==== Sys2Proof/Safety.lean ====
section
/-! DEFINITION. The terms the claims use: which engine a command belongs to, when the BlockCipher answers, what the
modes compute block by block, and the invariants that hold between commands. -/

namespace Sys2Proof.Machine

/-! ## Commands and their engines -/

/-- The engine `ENG = OPC[7:4]` names (spec/30_encoding.md R42, R50). -/
def engOf : Instr → Eng
  | .p7Pad .. | .p7Unpad .. => .p7
  | .cbcInit .. | .cbcEncUpdate .. | .cbcEncFinish .. | .cbcDecUpdate .. | .cbcDecFinish .. => .cbc
  | .cmacInit .. | .cmacUpdate .. | .cmacFinish .. => .cmac
  | .ctrInit .. | .ctrEncBlock .. | .ctrDecBlock .. => .ctr
  | .macInit .. | .macUpdate .. | .macFinish .. => .mac
  | .ccmInit .. | .ccmAadUpdate .. | .ccmAadFinish .. | .ccmEncUpdate .. | .ccmEncFinish .. | .ccmDecUpdate ..
  | .ccmDecFinish .. => .ccm

/-- The five INIT commands, accepted in every phase (spec/10_state.md R20). -/
def isInit : Instr → Bool
  | .cbcInit .. | .cmacInit .. | .ctrInit .. | .macInit .. | .ccmInit .. => true
  | _ => false

/-- The finish commands (spec/70_reset_and_hazards.md R138). -/
def isFinish : Instr → Bool
  | .cbcEncFinish .. | .cbcDecFinish .. | .cmacFinish .. | .macFinish .. | .ccmEncFinish .. | .ccmDecFinish .. => true
  | _ => false

/-- The phases in which a command is accepted (R20, spec/45_ccm.md R93, spec/46_common_laws.md R141). -/
def accepts (i : Instr) (s : State) : Bool :=
  match i with
  | .cbcEncUpdate .. | .cbcEncFinish .. => decide (s.cbc.phase = .ready ∨ s.cbc.phase = .enc)
  | .cbcDecUpdate .. | .cbcDecFinish .. => decide (s.cbc.phase = .ready ∨ s.cbc.phase = .dec)
  | .cmacUpdate .. | .cmacFinish .. => decide (s.cmac.phase = .active)
  | .ctrEncBlock .. | .ctrDecBlock .. => decide (s.ctr.phase = .active)
  | .macUpdate .. | .macFinish .. => decide (s.mac.phase = .active)
  | .ccmAadUpdate .. | .ccmAadFinish .. => decide (s.ccm.phase = .init ∨ s.ccm.phase = .aad)
  | .ccmEncUpdate .. | .ccmEncFinish .. => decide (s.ccm.phase = .aadFinish ∨ s.ccm.phase = .encryptText)
  | .ccmDecUpdate .. | .ccmDecFinish .. => decide (s.ccm.phase = .aadFinish ∨ s.ccm.phase = .decryptText)
  | _ => true

/-- The contexts other than engine `e`'s, the straps and the host's later events are the same (R19, R23). -/
abbrev sameOutside (e : Eng) (s t : State) : Prop :=
  (e = .cbc ∨ t.cbc = s.cbc) ∧ (e = .cmac ∨ t.cmac = s.cmac) ∧ (e = .ctr ∨ t.ctr = s.ctr) ∧
    (e = .mac ∨ t.mac = s.mac) ∧ (e = .ccm ∨ t.ccm = s.ccm) ∧ t.straps = s.straps ∧ t.pending = s.pending

/-! ## The BlockCipher port -/

/-- Every request to come is answered by the collaborator's cipher: none fails (spec/20_memory.md R32). -/
abbrev Honest (p : BcPort) : Prop := ∀ d ∈ p.draws, d = Draw.cipher

/-- The port after these requests have been issued, in this order. -/
def afterRequests (p : BcPort) (rs : List Request) : BcPort :=
  { cipher := p.cipher, draws := p.draws.drop rs.length, trace := p.trace ++ rs }

/-- `BC_ENC(k, ·)` as the port answers it. -/
def bcEnc (p : BcPort) (k : KeyRef) (x : Block) : Block := cipherAnswer p.cipher .enc k x

/-- `BC_DEC(k, ·)` as the port answers it. -/
def bcDec (p : BcPort) (k : KeyRef) (x : Block) : Block := cipherAnswer p.cipher .dec k x

/-- Encrypt requests for these blocks under one key handle. -/
def encRequests (k : KeyRef) (xs : List Block) : List Request := xs.map fun x => { op := .enc, key := k, blk := x }

/-- Decrypt requests for these blocks under one key handle. -/
def decRequests (k : KeyRef) (xs : List Block) : List Request := xs.map fun x => { op := .dec, key := k, blk := x }

/-! ## The modes, block by block -/

/-- The whole blocks at the front of a byte string. -/
def wholeBlocks (d : List Byte) : List Block :=
  (List.range (d.length / 16)).map fun j => Block.ofList (slice d (16 * j) 16)

/-- The bytes of a byte string after its whole blocks. -/
def tailBytes (d : List Byte) : List Byte := d.drop (16 * (d.length / 16))

/-- The bytes of these blocks, in order. -/
def blockBytes (xs : List Block) : List Byte := xs.flatMap fun x => x.toList

/-- The bytes of a pending buffer, then these bytes: what an update works on. -/
def pendingThen (pend : Block) (plen : Nat) (d : List Byte) : List Byte := pend.toList.take plen ++ d

/-- The number of bytes left over by whole blocks. -/
def rem16 (n : Nat) : Fin 16 := ⟨n % 16, Nat.mod_lt _ (by decide)⟩

/-- CBC encryption of blocks from a chaining value: the ciphertext blocks (spec/41_cbc.md R60). -/
def cbcCipher (E : Block → Block) (chain : Block) : List Block → List Block
  | [] => []
  | x :: xs => E (x.xor chain) :: cbcCipher E (E (x.xor chain)) xs

/-- CBC encryption of blocks from a chaining value: the blocks sent to the BlockCipher (R60). -/
def cbcInputs (E : Block → Block) (chain : Block) : List Block → List Block
  | [] => []
  | x :: xs => x.xor chain :: cbcInputs E (E (x.xor chain)) xs

/-- The chaining value after these ciphertext blocks. -/
def lastChain (chain : Block) (ys : List Block) : Block := ys.getLastD chain

/-- CBC decryption of blocks from a chaining value: the plaintext blocks (R61). -/
def cbcPlain (D : Block → Block) (chain : Block) : List Block → List Block
  | [] => []
  | y :: ys => (D y).xor chain :: cbcPlain D y ys

/-- The counter block after `n` increments of its low `w` bytes (spec/43_ctr.md R79). -/
def incTimes (w : Nat) : Nat → Block → Block
  | 0, x => x
  | n + 1, x => incTimes w n (inc x w)

/-- Two lists taken in turn, the first list's head first; what is left of the longer one follows. -/
def inTurn {α : Type} : List α → List α → List α
  | [], bs => bs
  | as, [] => as
  | a :: as, b :: bs => a :: b :: inTurn as bs

/-- The chaining value once a pending partial block, zero-padded, has been folded in; with nothing pending it is
unchanged (spec/45_ccm.md R96, R100). -/
def flushedChain (E : Block → Block) (M : MacCore) : Block :=
  if M.plen = 0 then M.cbc.chain else E (M.pend.xor M.cbc.chain)

/-- The blocks a flush sends to the BlockCipher: at most one (R96). -/
def flushInputs (M : MacCore) : List Block := if M.plen = 0 then [] else [M.pend.xor M.cbc.chain]

/-- How many keystream blocks the next `len` text bytes start (R97): one at each first byte of a text block. -/
def newKeystreams (C : CcmCtx) (len : Nat) : Nat :=
  (C.textcons.toNat % 16 + len + 15) / 16 - (C.textcons.toNat % 16 + 15) / 16

/-- The counter blocks of those keystream blocks, from the stored next one on (R91, R97). -/
def nextCounters (C : CcmCtx) (len : Nat) : List Block :=
  (List.range (newKeystreams C len)).map fun j => incTimes C.ctr.w.toNat j C.ctr.cb

/-- The keystream from the current text position on: what is left of the stored block, then the new blocks (R97). -/
def nextKeystream (E : Block → Block) (C : CcmCtx) (len : Nat) : List Byte :=
  (if C.textcons.toNat % 16 = 0 then [] else C.ks.toList.drop (C.textcons.toNat % 16)) ++
    blockBytes ((nextCounters C len).map E)

/-- The bytewise exclusive-or of two byte strings, as long as the shorter one. -/
def xorBytes (a b : List Byte) : List Byte := List.zipWith (fun x y => x ^^^ y) a b

/-! ## Invariants -/

/-- Bytes of a pending buffer at index `n` and beyond are zero. -/
abbrev ZeroTail (x : Block) (n : Nat) : Prop := ∀ i : Fin 16, n ≤ i.val → x[i] = 0

/-- The inner CBC buffer of a CMAC or CBC-MAC core is never used: it stays empty, and its padding mode is 0
(spec/10_state.md R14, R16, R18; spec/44_cbcmac.md R88). -/
abbrev InnerEmpty (S : CbcCore) : Prop := S.pend = Block.zero ∧ S.plen = 0 ∧ S.pad = false

/-- R18 for the CBC context, with I22: `HELD` is zero when it holds no block. -/
abbrev CbcInv (C : CbcCtx) : Prop :=
  ZeroTail C.core.pend C.core.plen.val ∧ (C.heldv = true → C.phase = .dec ∧ C.core.pad = true) ∧
    (C.heldv = false → C.held = Block.zero) ∧ (C.phase = .idle → clearCbc C = C)

/-- R18 for the CMAC context. -/
abbrev CmacInv (C : CmacCtx) : Prop :=
  ZeroTail C.pend C.plen.val ∧ InnerEmpty C.cbc ∧ (C.phase = .idle → clearCmac C = C)

/-- R18 for the CTR context. -/
abbrev CtrInv (C : CtrCtx) : Prop := C.phase = .idle → clearCtr C = C

/-- R18 for a `MacCore`. -/
abbrev MacCoreInv (M : MacCore) : Prop := ZeroTail M.pend M.plen.val ∧ InnerEmpty M.cbc

/-- R18 for the CBC-MAC context. -/
abbrev MacInv (C : MacCtx) : Prop := MacCoreInv C.core ∧ (C.phase = .idle → clearMac C = C)

/-- R18 for the CCM context. -/
abbrev CcmInv (C : CcmCtx) : Prop :=
  MacCoreInv C.mac ∧ C.aadcons.toNat ≤ C.aadsize.toNat ∧ C.textcons.toNat ≤ C.textsize.toNat ∧
    C.mac.cbc.keyref = C.ctr.keyref ∧ (C.phase = .idle → clearCcm C = C)

/-- What holds between commands (spec/10_state.md R18). The bounds on the `PLEN` registers are in their types. -/
abbrev ContextInv (s : State) : Prop := CbcInv s.cbc ∧ CmacInv s.cmac ∧ CtrInv s.ctr ∧ MacInv s.mac ∧ CcmInv s.ccm

/-- How the parts of a live CCM stream fit together: the sizes are legal and fix the counter width
(spec/45_ccm.md R89, R91, R94), the consumed counters agree with the phase (R93, R95, R96, R103), and in the text
phases the pending bytes are those of the current text block (R97). -/
abbrev CcmStreamInv (C : CcmCtx) : Prop :=
  (C.phase ≠ .idle → 7 ≤ C.ivsize.toNat ∧ C.ivsize.toNat ≤ 13 ∧ C.tagsize.toNat ∈ ccmTagSizes ∧
    C.ctr.w.toNat = 15 - C.ivsize.toNat ∧ C.textsize.toNat < 2 ^ (8 * C.ctr.w.toNat)) ∧
  (C.phase = .init → C.aadcons = 0 ∧ C.mac.plen = 0) ∧
  (C.phase = .init ∨ C.phase = .aad ∨ C.phase = .aadFinish → C.textcons = 0) ∧
  (C.phase = .aadFinish ∨ C.phase = .encryptText ∨ C.phase = .decryptText →
    C.aadcons = C.aadsize ∧ C.mac.plen = rem16 C.textcons.toNat)

/-- The counter block of a live CCM stream (spec/45_ccm.md R91, R97): its first byte is `L - 1`, and its low `W` bytes
are the number of the next keystream block, `1 + ceil(TEXTCONS / 16)`, which fits them: the counter never wraps inside
a stream. -/
abbrev CcmCounterInv (C : CcmCtx) : Prop :=
  C.phase ≠ .idle →
    C.ctr.cb[0] = BitVec.ofNat 8 (C.ctr.w.toNat - 1) ∧
      intBe (C.ctr.cb.toList.drop (16 - C.ctr.w.toNat)) = 1 + (C.textcons.toNat + 15) / 16 ∧
      1 + (C.textcons.toNat + 15) / 16 < 2 ^ (8 * C.ctr.w.toNat)

/-- A response is sound: no more output than the demand it reports, and on a status other than `OK` no output, `AUX`
zero but on `IOError`, and `REQ` zero but on `BufferTooSmall` (spec/30_encoding.md R41, R54; spec/60_exceptions.md
R105, R109, R112). -/
abbrev ResponseSound (r : Response) : Prop :=
  r.out.length ≤ r.req.toNat ∧
    (r.status ≠ .ok → r.out = [] ∧ (r.status ≠ .ioError → r.aux = 0) ∧ (r.status ≠ .bufferTooSmall → r.req = 0)) ∧
    (r.status = .ioError → r.aux ≠ 0)

end Sys2Proof.Machine
end

