-- ==== Sys2Proof/Certificates/Slice0/Obligations.lean ====
section
/-! DEFINITION. The statements for the provers. Each docstring names the rules of spec/ it rests on. Where a statement
asks for `Honest s.bc`, no request of the command fails and every answer is the cipher's: that is where the command runs
to its own end; failures are the subject of BlockCipherFailureEndsCommand. How the model holds the outside world is its
own choice: `pending` (log entry 1), the cipher (2), `draws` (3), `responses` and `trace` (5). -/

open Sys2Proof Sys2Proof.Machine

/-! ## Encoding and step -/

/-- R40, R50: decoding the packet of a well-formed command gives that command back. -/
def Obligations.DecodeOfEncode : Prop :=
  ∀ i : Instr, i.WellFormed → decode (encode i) = .ok i

/-- R40, R43, R50, R51: a byte string that decodes to a command is that command's packet, to the last bit. -/
def Obligations.EncodeOfDecode : Prop :=
  ∀ (bs : List Byte) (i : Instr), decode bs = .ok i → i.WellFormed ∧ encode i = bs

/-- A byte string R43 calls malformed: shorter than 6 bytes, or `LEN > MAXLEN`, or not `6 + LEN` bytes long. -/
def Sys2Proof.malformed (bs : List Byte) : Prop :=
  bs.length < 6 ∨ bs.length ≠ 6 + intBe (slice bs 4 2) ∨ intBe (slice bs 4 2) > 65520

/-- R43: exactly the malformed byte strings get one of the three malformed verdicts, every other one is a command or has
a reserved opcode; and a malformed packet is answered `12 00 0000 0000` and changes nothing else. -/
def Obligations.MalformedPacketsRefused : Prop :=
  (∀ bs : List Byte,
    (malformed bs ↔ decode bs = .error .tooShort ∨ decode bs = .error .lenAboveMax ∨ decode bs = .error .lengthMismatch) ∧
    (¬ malformed bs → (∃ i, decode bs = .ok i) ∨ decode bs = .error (.reservedOpcode (bs.getD 0 0)))) ∧
  ∀ (s : State) (bs : List Byte) (rest : List HostEvent), s.pending = .command bs :: rest → malformed bs →
    ∃ r : Response, responseBytes r = [0x12, 0, 0, 0, 0, 0] ∧ step s = .next ((s.setPending rest).addResponse r)

/-- R44's reserved opcodes: `ENG` in 0x6..0xF, or `FN` above the engine's last listed one. -/
def Sys2Proof.reservedOpc (opc : Byte) : Prop :=
  opc.toNat / 16 ≥ 6 ∨
    (opc.toNat / 16 = 0 ∧ opc.toNat % 16 ≥ 2) ∨ (opc.toNat / 16 = 1 ∧ opc.toNat % 16 ≥ 5) ∨
    (opc.toNat / 16 = 2 ∧ opc.toNat % 16 ≥ 3) ∨ (opc.toNat / 16 = 3 ∧ opc.toNat % 16 ≥ 3) ∨
    (opc.toNat / 16 = 4 ∧ opc.toNat % 16 ≥ 3) ∨ (opc.toNat / 16 = 5 ∧ opc.toNat % 16 ≥ 7)

/-- R44: a packet that is not malformed is refused exactly when its opcode is reserved; it is answered
`12 00 0000 0000` and changes nothing else. -/
def Obligations.ReservedOpcodesRefused : Prop :=
  (∀ bs : List Byte, ¬ malformed bs →
    (reservedOpc (bs.getD 0 0) ↔ decode bs = .error (.reservedOpcode (bs.getD 0 0)))) ∧
  ∀ (s : State) (bs : List Byte) (rest : List HostEvent), s.pending = .command bs :: rest → ¬ malformed bs →
    reservedOpc (bs.getD 0 0) →
    ∃ r : Response, responseBytes r = [0x12, 0, 0, 0, 0, 0] ∧ step s = .next ((s.setPending rest).addResponse r)

/-- R26, R34: when the host presents the packet of a well-formed command, the step is that command, executed in the
state from which the packet has been taken. -/
def Obligations.StepRunsDecodedCommand : Prop :=
  ∀ (s : State) (i : Instr) (rest : List HostEvent), i.WellFormed → s.pending = .command (encode i) :: rest →
    step s = exec i (s.setPending rest)

/-- R50: packets written out from the opcode map decode to their commands, one of each family. -/
def Obligations.WrittenPacketsDecode : Prop :=
  decode [0x00, 0x00, 0xFF, 0xFF, 0x00, 0x03, 0x01, 0x02, 0x03] = .ok (.p7Pad 0 0xFFFF [1, 2, 3]) ∧
  decode [0x12, 0x00, 0x00, 0x10, 0x00, 0x00] = .ok (.cbcEncFinish 0 0x0010 []) ∧
  decode [0x22, 0x10, 0x00, 0x10, 0x00, 0x00] = .ok (.cmacFinish 0x10 0x0010 []) ∧
  decode [0x32, 0x00, 0x01, 0x02, 0x00, 0x01, 0xAA] = .ok (.ctrDecBlock 0 0x0102 [0xAA]) ∧
  decode [0x40, 0x00, 0x00, 0x00, 0x00, 0x03, 0x00, 0x01, 0x00] = .ok (.macInit 0 0 [0, 1, 0]) ∧
  decode [0x56, 0x08, 0x00, 0x00, 0x00, 0x02, 0xB4, 0xB5] = .ok (.ccmDecFinish 8 0 [0xB4, 0xB5])

/-- R24: reset leaves every context cleared with key handle (0, 0) and the straps at the values on their inputs; it
does not reach the BlockCipher (R125). `State.reset` has the same contexts. The model's choices: that `State.reset` is
the reset with R23's defaults on the strap inputs (log entry 4), and that reset leaves the log of responses (5) and the
host's later events (1). -/
def Obligations.ResetValues : Prop :=
  ∀ (s : State) (straps : Straps) (rest : List HostEvent), s.pending = .reset straps :: rest →
    ∃ t, step s = .next t ∧ t.straps = straps ∧ t.pending = rest ∧ t.responses = s.responses ∧ t.bc = s.bc ∧
      let z : Block := Vector.replicate 16 0
      let core : CbcCore := { keyref := { slot := 0, blk := 0 }, chain := z, pend := z, plen := 0, pad := false }
      let mac : MacCore := { cbc := core, pend := z, plen := 0 }
      let ctr : CtrCore := { keyref := { slot := 0, blk := 0 }, cb := z, w := 0 }
      t.cbc = { core := core, held := z, heldv := false, phase := .idle } ∧
      t.cmac = { cbc := core, pend := z, plen := 0, phase := .idle } ∧
      t.ctr = { core := ctr, phase := .idle } ∧
      t.mac = { core := mac, phase := .idle } ∧
      t.ccm = { mac := mac, ctr := ctr, ivsize := 0, tagsize := 0, aadsize := 0, textsize := 0, aadcons := 0,
                textcons := 0, ks := z, phase := .idle } ∧
      State.reset.cbc = t.cbc ∧ State.reset.cmac = t.cmac ∧ State.reset.ctr = t.ctr ∧ State.reset.mac = t.mac ∧
      State.reset.ccm = t.ccm ∧
      State.reset.straps = { legacyZeroPad := true, capPolicy := .conservative, ctrWidth0 := .reject }

/-- 93_implementation_defined.md, preamble: every command packet, well formed or not, in every state, has exactly one
response and one next state; the block has no behaviour that stops it. -/
def Obligations.EveryCommandHasOneResponse : Prop :=
  (∀ (i : Instr) (s : State), ∃ t r, exec i s = .next t ∧ t.responses = s.responses ++ [r]) ∧
  ∀ (s : State) (packet : List Byte) (rest : List HostEvent), s.pending = .command packet :: rest →
    ∃ t r, step s = .next t ∧ t.responses = s.responses ++ [r] ∧ t.pending = rest

/-! ## Responses and errors -/

/-- R41, R105: the response packet is `STATUS AUX OLEN(2) REQ(2) OUT`, both 16-bit fields big-endian, and `STATUS` is
the byte of R105's table. -/
def Obligations.ResponsePacketLayout : Prop :=
  (statusCode .ok = 0x00 ∧ statusCode .nullPointer = 0x11 ∧ statusCode .badParam = 0x12 ∧
    statusCode .bufferTooSmall = 0x21 ∧ statusCode .protocolViolation = 0x31 ∧ statusCode .genFail = 0x32 ∧
    statusCode .badState = 0x33 ∧ statusCode .ioError = 0x41) ∧
  ∀ r : Response, r.out.length < 2 ^ 16 →
    (responseBytes r).length = 6 + r.out.length ∧ (responseBytes r)[0]? = some (statusCode r.status) ∧
    (responseBytes r)[1]? = some r.aux ∧ intBe (slice (responseBytes r) 2 2) = r.out.length ∧
    intBe (slice (responseBytes r) 4 2) = r.req.toNat ∧ (responseBytes r).drop 6 = r.out

/-- R21: `clear` zeroes every field of the context but its key handle(s) and writes IDLE. -/
def Obligations.ClearZeroesAllButKeyref : Prop :=
  ∀ s : State,
    let z : Block := Vector.replicate 16 0
    let core (k : KeyRef) : CbcCore := { keyref := k, chain := z, pend := z, plen := 0, pad := false }
    clearEng .cbc s = { s with
      cbc := { core := core s.cbc.core.keyref, held := z, heldv := false, phase := .idle } } ∧
    clearEng .cmac s = { s with cmac := { cbc := core s.cmac.cbc.keyref, pend := z, plen := 0, phase := .idle } } ∧
    clearEng .ctr s = { s with ctr := { core := { keyref := s.ctr.core.keyref, cb := z, w := 0 }, phase := .idle } } ∧
    clearEng .mac s = { s with
      mac := { core := { cbc := core s.mac.core.cbc.keyref, pend := z, plen := 0 }, phase := .idle } } ∧
    clearEng .ccm s = { s with
      ccm := { mac := { cbc := core s.ccm.mac.cbc.keyref, pend := z, plen := 0 },
               ctr := { keyref := s.ccm.ctr.keyref, cb := z, w := 0 }, ivsize := 0, tagsize := 0, aadsize := 0,
               textsize := 0, aadcons := 0, textcons := 0, ks := z, phase := .idle } } ∧
    clearEng .p7 s = s

/-- R112, R116, R117: every response other than `OK` carries no output, and leaves the engine's context cleared and
everything else but the BlockCipher port as it was. (A CCM.INIT whose `B0` request fails has already written the new key
handle; every other error leaves exactly `clear` of the context the command found.) -/
def Obligations.ErrorEntryClearsContext : Prop :=
  ∀ (i : Instr) (s t : State) (r : Response), exec i s = .next t → t.responses = s.responses ++ [r] → r.status ≠ .ok →
    r.out = [] ∧ (r.status ≠ .ioError → r.aux = 0) ∧ (r.status ≠ .bufferTooSmall → r.req = 0) ∧
    clearEng (engOf i) t = t ∧ sameOutside (engOf i) s t ∧
    (isInit i = false ∨ r.status ≠ .ioError → t = ((clearEng (engOf i) s).setBc t.bc).addResponse r)

/-- R113: a command its context's phase does not accept raises `BadState`, whatever its operands, with no request. -/
def Obligations.WrongPhaseRaisesBadState : Prop :=
  ∀ (i : Instr) (s : State), accepts i s = false →
    exec i s = .next ((clearEng (engOf i) s).addResponse { status := .badState, aux := 0, req := 0, out := [] })

/-- R31: a command issues its requests one after the other, each meeting the next draw; the first that fails is the
last it issues and ends it with `IOError`, the code unchanged in `AUX`, no output and the context cleared; and `IOError`
has no other cause. -/
def Obligations.BlockCipherFailureEndsCommand : Prop :=
  ∀ (i : Instr) (s t : State), exec i s = .next t →
    ∃ (rs : List Request) (r : Response), t.bc = afterRequests s.bc rs ∧ t.responses = s.responses ++ [r] ∧
      (∀ (j : Nat) (c : IoCode), j < rs.length → s.bc.draws[j]? = some (.err c) →
        j + 1 = rs.length ∧ r = { status := .ioError, aux := c.val, req := 0, out := [] } ∧ clearEng (engOf i) t = t) ∧
      (r.status = .ioError → ∃ c, rs ≠ [] ∧ s.bc.draws[rs.length - 1]? = some (.err c))

/-- R115: every check is made before the first BlockCipher request: a response that is neither `OK` nor `IOError` comes
from a command that issued none. -/
def Obligations.ChecksPrecedeRequests : Prop :=
  ∀ (i : Instr) (s t : State) (r : Response), exec i s = .next t → t.responses = s.responses ++ [r] →
    r.status ≠ .ok → r.status ≠ .ioError → t.bc = s.bc

/-- The context of engine `e` is the same in both states. -/
def Sys2Proof.sameContext (e : Eng) (s t : State) : Prop :=
  match e with
  | .p7 => True
  | .cbc => t.cbc = s.cbc
  | .cmac => t.cmac = s.cmac
  | .ctr => t.ctr = s.ctr
  | .mac => t.mac = s.mac
  | .ccm => t.ccm = s.ccm

/-- R19: a command writes only its own engine's context, and reads no other: two states that agree on that context,
the straps and the BlockCipher port give the same context, the same port and the same response. -/
def Obligations.EnginesIndependent : Prop :=
  (∀ (i : Instr) (s t : State), exec i s = .next t → sameOutside (engOf i) s t) ∧
  ∀ (i : Instr) (s s' : State), sameContext (engOf i) s s' → s'.straps = s.straps → s'.bc = s.bc →
    ∃ t t' r, exec i s = .next t ∧ exec i s' = .next t' ∧ sameContext (engOf i) t t' ∧ t'.bc = t.bc ∧
      t.responses = s.responses ++ [r] ∧ t'.responses = s'.responses ++ [r]

/-- R11: only an INIT command writes a context's key handle. -/
def Obligations.KeyrefWrittenOnlyByInit : Prop :=
  ∀ (i : Instr) (s t : State), isInit i = false → exec i s = .next t →
    t.cbc.core.keyref = s.cbc.core.keyref ∧ t.cmac.cbc.keyref = s.cmac.cbc.keyref ∧
    t.ctr.core.keyref = s.ctr.core.keyref ∧ t.mac.core.cbc.keyref = s.mac.core.cbc.keyref ∧
    t.ccm.mac.cbc.keyref = s.ccm.mac.cbc.keyref ∧ t.ccm.ctr.keyref = s.ccm.ctr.keyref

/-- R21, R138: after a finish command, whether it succeeded or not, the engine's context is cleared. -/
def Obligations.FinishClearsContext : Prop :=
  ∀ (i : Instr) (s t : State), isFinish i = true → exec i s = .next t → clearEng (engOf i) t = t

/-- R41, R54, R109, R112: every response presented is sound, and a step keeps it so. -/
def Obligations.StepKeepsResponsesSound : Prop :=
  ∀ s t : State, (∀ r ∈ s.responses, ResponseSound r) → step s = .next t → ∀ r ∈ t.responses, ResponseSound r

/-! ## Invariants -/

/-- R18 (all but its first line is marked [derived] by the spec), and I22: every step keeps what holds between
commands, from every state. -/
def Obligations.StepKeepsContextInvariant : Prop :=
  ∀ s t : State, ContextInv s → step s = .next t → ContextInv t

/-- An inference from R89, R91, R93 to R97 and R103: every step keeps the parts of a CCM stream in agreement, from
every state; and its counter block too (R91, R97): flags byte `L - 1`, and the field at `1 + ceil(TEXTCONS / 16)`, so
that the counter never wraps inside a stream. -/
def Obligations.StepKeepsCcmStreamInvariant : Prop :=
  ∀ s t : State, ContextInv s → CcmStreamInv s.ccm → step s = .next t →
    CcmStreamInv t.ccm ∧ (CcmCounterInv s.ccm → CcmCounterInv t.ccm)

/-- The reset state meets the invariants. -/
def Obligations.ResetMeetsInvariants : Prop :=
  ContextInv State.reset ∧ CcmStreamInv State.reset.ccm ∧ CcmCounterInv State.reset.ccm

/-! ## The PKCS7 codec -/

/-- R57, with R55: P7.PAD in every case. -/
def Obligations.PadCommand : Prop :=
  ∀ (s : State) (arg : Byte) (outcap : Half) (d : List Byte),
    let p := 16 - d.length % 16
    let req := 16 * (d.length / 16 + 1)
    (arg ≠ 0 ∨ d.length > 65519 → exec (.p7Pad arg outcap d) s = .next (s.addResponse ⟨.badParam, 0, 0, []⟩)) ∧
    (arg = 0 → d.length ≤ 65519 → outcap.toNat < req →
      exec (.p7Pad arg outcap d) s = .next (s.addResponse ⟨.bufferTooSmall, 0, BitVec.ofNat 16 req, []⟩)) ∧
    (arg = 0 → d.length ≤ 65519 → req ≤ outcap.toNat →
      exec (.p7Pad arg outcap d) s = .next (s.addResponse
        ⟨.ok, 0, BitVec.ofNat 16 req, d ++ List.replicate p (BitVec.ofNat 8 p)⟩))

/-- R58, with R56: P7.UNPAD in every case. A buffer is well padded when it is some `B` followed by `p` copies of the byte
`p`, `1 <= p <= 16`. -/
def Obligations.UnpadCommand : Prop :=
  ∀ (s : State) (arg : Byte) (outcap : Half) (d : List Byte),
    (arg ≠ 0 → exec (.p7Unpad arg outcap d) s = .next (s.addResponse ⟨.badParam, 0, 0, []⟩)) ∧
    (arg = 0 → (d.length = 0 ∨ d.length % 16 ≠ 0) →
      exec (.p7Unpad arg outcap d) s = .next (s.addResponse ⟨.genFail, 0, 0, []⟩)) ∧
    (arg = 0 → d.length ≠ 0 → d.length % 16 = 0 → outcap.toNat < d.length - 1 →
      exec (.p7Unpad arg outcap d) s =
        .next (s.addResponse ⟨.bufferTooSmall, 0, BitVec.ofNat 16 (d.length - 1), []⟩)) ∧
    (arg = 0 → d.length ≠ 0 → d.length % 16 = 0 → d.length - 1 ≤ outcap.toNat →
      (∀ (b : List Byte) (p : Nat), 1 ≤ p → p ≤ 16 → d = b ++ List.replicate p (BitVec.ofNat 8 p) →
        exec (.p7Unpad arg outcap d) s = .next (s.addResponse ⟨.ok, 0, BitVec.ofNat 16 (d.length - 1), b⟩)) ∧
      ((∀ (b : List Byte) (p : Nat), 1 ≤ p → p ≤ 16 → d ≠ b ++ List.replicate p (BitVec.ofNat 8 p)) →
        exec (.p7Unpad arg outcap d) s = .next (s.addResponse ⟨.genFail, 0, 0, []⟩)))

/-- R56 (there marked [derived]): P7.UNPAD of what P7.PAD put out gives the input back. -/
def Obligations.UnpadOfPad : Prop :=
  ∀ (s : State) (cap : Half) (d : List Byte), d.length ≤ 65519 → 16 * (d.length / 16 + 1) ≤ cap.toNat →
    ∃ out req req', exec (.p7Pad 0 cap d) s = .next (s.addResponse ⟨.ok, 0, req, out⟩) ∧
      exec (.p7Unpad 0 cap out) s = .next (s.addResponse ⟨.ok, 0, req', d⟩)

/-! ## The CBC Engine -/

/-- R62: CBC.INIT in every case, in every phase. -/
def Obligations.CbcInitCommand : Prop :=
  ∀ (s : State) (arg : Byte) (outcap : Half),
    (∀ d : List Byte, d.length = 3 →
      exec (.cbcInit arg outcap d) s = .next ((clearEng .cbc s).addResponse ⟨.nullPointer, 0, 0, []⟩)) ∧
    (∀ d : List Byte, d.length ≠ 3 → (d.length ≠ 19 ∨ arg.toNat ≥ 2) →
      exec (.cbcInit arg outcap d) s = .next ((clearEng .cbc s).addResponse ⟨.badParam, 0, 0, []⟩)) ∧
    (∀ (b0 b1 b2 : Byte) (iv : List Byte), iv.length = 16 → arg.toNat < 2 →
      exec (.cbcInit arg outcap (b0 :: b1 :: b2 :: iv)) s = .next ((s.setCbc
        { core := { keyref := { slot := b0 ++ b1, blk := b2 }, chain := Block.ofList iv, pend := Block.zero, plen := 0,
                    pad := decide (arg.toNat = 1) },
          held := Block.zero, heldv := false, phase := .ready }).addResponse ⟨.ok, 0, 0, []⟩))

/-- The capacity a CBC update that will produce `exact` bytes from `len` demands (R109). -/
def Sys2Proof.updateDemand (st : Straps) (exact len : Nat) : Nat :=
  if st.capPolicy = .exact then exact else 16 * ((len + 15) / 16)

/-- R60, R63: CBC.ENC_UPDATE. The pending bytes and the payload are taken together: their whole blocks are encrypted in
CBC from the chaining value, the rest stays pending. Nothing else changes. -/
def Obligations.CbcEncUpdateResult : Prop :=
  ∀ (s : State) (outcap : Half) (data : List Byte), ContextInv s → Honest s.bc → s.cbc.phase = .ready ∨ s.cbc.phase = .enc →
    let C := s.cbc.core
    let E := bcEnc s.bc C.keyref
    let d := pendingThen C.pend C.plen.val data
    let ys := cbcCipher E C.chain (wholeBlocks d)
    let req := updateDemand s.straps (16 * (d.length / 16)) data.length
    req ≤ outcap.toNat →
    exec (.cbcEncUpdate 0 outcap data) s = .next (((s.setBc
      (afterRequests s.bc (encRequests C.keyref (cbcInputs E C.chain (wholeBlocks d))))).setCbc
      { s.cbc with
        core := { C with chain := lastChain C.chain ys, pend := Block.ofList (tailBytes d), plen := rem16 d.length },
        phase := .enc }).addResponse ⟨.ok, 0, BitVec.ofNat 16 req, blockBytes ys⟩)

/-- R55, R64: CBC.ENC_FINISH where it completes. With padding enabled the pending bytes and `16 - PLEN` copies of that
number are the last block; with padding disabled nothing is emitted when nothing is pending, and with the strap
`LEGACY_ZERO_PAD` the pending bytes continued with zeros are the last block. The context is cleared. -/
def Obligations.CbcEncFinishResult : Prop :=
  ∀ (s : State) (outcap : Half), ContextInv s → Honest s.bc → s.cbc.phase = .ready ∨ s.cbc.phase = .enc →
    let C := s.cbc.core
    let lastBlock (bytes : List Byte) : Result :=
      let x := (Block.ofList bytes).xor C.chain
      .next ((((clearEng .cbc s).setBc (afterRequests s.bc (encRequests C.keyref [x])))).addResponse
        ⟨.ok, 0, 16, (bcEnc s.bc C.keyref x).toList⟩)
    (C.pad = true → 16 ≤ outcap.toNat →
      exec (.cbcEncFinish 0 outcap []) s = lastBlock
        (C.pend.toList.take C.plen.val ++ List.replicate (16 - C.plen.val) (BitVec.ofNat 8 (16 - C.plen.val)))) ∧
    (C.pad = false → C.plen = 0 →
      exec (.cbcEncFinish 0 outcap []) s = .next ((clearEng .cbc s).addResponse ⟨.ok, 0, 0, []⟩)) ∧
    (C.pad = false → C.plen ≠ 0 → s.straps.legacyZeroPad = true → 16 ≤ outcap.toNat →
      exec (.cbcEncFinish 0 outcap []) s = lastBlock
        (C.pend.toList.take C.plen.val ++ List.replicate (16 - C.plen.val) 0))

/-- R61, R65: CBC.DEC_UPDATE. The whole blocks of the pending bytes and the payload are decrypted in CBC; with padding
disabled all are released, with padding enabled the last one is held and those held before it are released. -/
def Obligations.CbcDecUpdateResult : Prop :=
  ∀ (s : State) (outcap : Half) (data : List Byte), ContextInv s → Honest s.bc → s.cbc.phase = .ready ∨ s.cbc.phase = .dec →
    let C := s.cbc.core
    let d := pendingThen C.pend C.plen.val data
    let ys := wholeBlocks d
    let xs := cbcPlain (bcDec s.bc C.keyref) C.chain ys
    let queue := (if s.cbc.heldv then [s.cbc.held] else []) ++ xs
    let released := if C.pad then queue.dropLast else xs
    let req := updateDemand s.straps (16 * released.length) data.length
    req ≤ outcap.toNat →
    exec (.cbcDecUpdate 0 outcap data) s = .next (((s.setBc
      (afterRequests s.bc (decRequests C.keyref ys))).setCbc
      { core := { C with chain := lastChain C.chain ys, pend := Block.ofList (tailBytes d), plen := rem16 d.length },
        held := if C.pad then queue.getLastD Block.zero else s.cbc.held,
        heldv := if C.pad then decide (queue ≠ []) else s.cbc.heldv, phase := .dec }).addResponse
      ⟨.ok, 0, BitVec.ofNat 16 req, blockBytes released⟩)

/-- R56, R61, R66: CBC.DEC_FINISH where it completes. -/
def Obligations.CbcDecFinishResult : Prop :=
  ∀ (s : State) (outcap : Half), ContextInv s → Honest s.bc → s.cbc.phase = .ready ∨ s.cbc.phase = .dec →
    let C := s.cbc.core
    (∀ (b : List Byte) (p : Nat), C.pad = true → C.plen = 0 → s.cbc.heldv = true → 15 ≤ outcap.toNat →
      1 ≤ p → p ≤ 16 → s.cbc.held.toList = b ++ List.replicate p (BitVec.ofNat 8 p) →
      exec (.cbcDecFinish 0 outcap []) s = .next ((clearEng .cbc s).addResponse ⟨.ok, 0, 15, b⟩)) ∧
    (C.pad = false → C.plen = 0 →
      exec (.cbcDecFinish 0 outcap []) s = .next ((clearEng .cbc s).addResponse ⟨.ok, 0, 0, []⟩)) ∧
    (C.pad = false → C.plen ≠ 0 → s.straps.legacyZeroPad = true → 16 ≤ outcap.toNat →
      exec (.cbcDecFinish 0 outcap []) s =
        .next (((clearEng .cbc s).setBc (afterRequests s.bc (decRequests C.keyref [C.pend]))).addResponse
          ⟨.ok, 0, 16, ((bcDec s.bc C.keyref C.pend).xor C.chain).toList⟩))

/-- R63, R65, R67, R109: the errors of the two CBC updates in a phase that accepts them. -/
def Obligations.CbcUpdateErrors : Prop :=
  ∀ (s : State) (arg : Byte) (outcap : Half) (data : List Byte),
    let len := s.cbc.core.plen.val + data.length
    let decExact := if s.cbc.core.pad ∧ len / 16 > 0 ∧ ¬ s.cbc.heldv then 16 * (len / 16) - 16 else 16 * (len / 16)
    let fails (i : Instr) (r : Response) : Prop := exec i s = .next ((clearEng .cbc s).addResponse r)
    (s.cbc.phase = .ready ∨ s.cbc.phase = .enc →
      (arg ≠ 0 → fails (.cbcEncUpdate arg outcap data) ⟨.badParam, 0, 0, []⟩) ∧
      (arg = 0 → outcap.toNat < updateDemand s.straps (16 * (len / 16)) data.length →
        fails (.cbcEncUpdate arg outcap data)
          ⟨.bufferTooSmall, 0, BitVec.ofNat 16 (updateDemand s.straps (16 * (len / 16)) data.length), []⟩)) ∧
    (s.cbc.phase = .ready ∨ s.cbc.phase = .dec →
      (arg ≠ 0 → fails (.cbcDecUpdate arg outcap data) ⟨.badParam, 0, 0, []⟩) ∧
      (arg = 0 → outcap.toNat < updateDemand s.straps decExact data.length →
        fails (.cbcDecUpdate arg outcap data)
          ⟨.bufferTooSmall, 0, BitVec.ofNat 16 (updateDemand s.straps decExact data.length), []⟩))

/-- R64, R66, R69, R110, R111: the errors of the two CBC finish commands in a phase that accepts them. -/
def Obligations.CbcFinishErrors : Prop :=
  ∀ (s : State) (arg : Byte) (outcap : Half) (d : List Byte),
    let C := s.cbc.core
    let fails (i : Instr) (r : Response) : Prop := exec i s = .next ((clearEng .cbc s).addResponse r)
    (s.cbc.phase = .ready ∨ s.cbc.phase = .enc →
      (d ≠ [] ∨ arg ≠ 0 → fails (.cbcEncFinish arg outcap d) ⟨.badParam, 0, 0, []⟩) ∧
      (C.pad = false → C.plen ≠ 0 → s.straps.legacyZeroPad = false →
        fails (.cbcEncFinish 0 outcap []) ⟨.protocolViolation, 0, 0, []⟩) ∧
      (C.pad = true ∨ (C.plen ≠ 0 ∧ s.straps.legacyZeroPad = true) → outcap.toNat < 16 →
        fails (.cbcEncFinish 0 outcap []) ⟨.bufferTooSmall, 0, 16, []⟩)) ∧
    (s.cbc.phase = .ready ∨ s.cbc.phase = .dec →
      (d ≠ [] ∨ arg ≠ 0 → fails (.cbcDecFinish arg outcap d) ⟨.badParam, 0, 0, []⟩) ∧
      (C.pad = true → C.plen ≠ 0 ∨ s.cbc.heldv = false → fails (.cbcDecFinish 0 outcap []) ⟨.genFail, 0, 0, []⟩) ∧
      (C.pad = true → C.plen = 0 → s.cbc.heldv = true → outcap.toNat < 15 →
        fails (.cbcDecFinish 0 outcap []) ⟨.bufferTooSmall, 0, 15, []⟩) ∧
      (C.pad = true → C.plen = 0 → s.cbc.heldv = true → 15 ≤ outcap.toNat →
        (∀ (b : List Byte) (p : Nat), 1 ≤ p → p ≤ 16 →
          s.cbc.held.toList ≠ b ++ List.replicate p (BitVec.ofNat 8 p)) →
        fails (.cbcDecFinish 0 outcap []) ⟨.genFail, 0, 0, []⟩) ∧
      (C.pad = false → C.plen ≠ 0 → s.straps.legacyZeroPad = false →
        fails (.cbcDecFinish 0 outcap []) ⟨.protocolViolation, 0, 0, []⟩) ∧
      (C.pad = false → C.plen ≠ 0 → s.straps.legacyZeroPad = true → outcap.toNat < 16 →
        fails (.cbcDecFinish 0 outcap []) ⟨.bufferTooSmall, 0, 16, []⟩))

/-- The next state and the output of a command that answers `OK`. -/
def Sys2Proof.runsTo (i : Instr) (s t : State) (out : List Byte) : Prop :=
  ∃ req, exec i s = .next t ∧ t.responses = s.responses ++ [⟨.ok, 0, req, out⟩]

/-- R68 items 1 and 3: for every key handle, IV, padding mode and message whose ciphertext fits one packet (of a
multiple of 16 bytes where padding is off), the decrypt stream of what the encrypt stream put out, one update each,
gives the message back; the ciphertext is `16 * (floor(len/16) + 1)` bytes long with padding on, as long as the message
with padding off. It spans two streams, so it rests on the model's choice that the key material is kept between streams
(log entry 2); that `BC_DEC` inverts `BC_ENC` is R32(c), marked [derived] by the spec. -/
def Obligations.CbcDecryptOfEncrypt : Prop :=
  ∀ (s : State) (arg b0 b1 b2 : Byte) (iv msg : List Byte), Honest s.bc → iv.length = 16 →
    (arg.toNat = 1 ∧ msg.length ≤ 65519) ∨ (arg.toNat = 0 ∧ msg.length % 16 = 0 ∧ msg.length ≤ 65520) →
    ∃ s1 s2 s3 t1 t2 t3 c1 c2 m1 m2,
      runsTo (.cbcInit arg 0 (b0 :: b1 :: b2 :: iv)) s s1 [] ∧
      runsTo (.cbcEncUpdate 0 0xFFFF msg) s1 s2 c1 ∧ runsTo (.cbcEncFinish 0 0xFFFF []) s2 s3 c2 ∧
      runsTo (.cbcInit arg 0 (b0 :: b1 :: b2 :: iv)) s3 t1 [] ∧
      runsTo (.cbcDecUpdate 0 0xFFFF (c1 ++ c2)) t1 t2 m1 ∧ runsTo (.cbcDecFinish 0 0xFFFF []) t2 t3 m2 ∧
      m1 ++ m2 = msg ∧
      (c1 ++ c2).length = if arg.toNat = 1 then 16 * (msg.length / 16 + 1) else msg.length

/-- R68 item 2, for payloads that fit one packet together and full capacity: two updates put out, together, what one
update with the concatenated payload puts out, and leave the same context and the same requests. -/
def Obligations.CbcUpdateSplit : Prop :=
  ∀ (s : State) (x y : List Byte), Honest s.bc → x.length + y.length ≤ 65520 →
    (s.cbc.phase = .ready ∨ s.cbc.phase = .enc →
      ∃ t t1 t2 o1 o2, runsTo (.cbcEncUpdate 0 0xFFFF (x ++ y)) s t (o1 ++ o2) ∧
        runsTo (.cbcEncUpdate 0 0xFFFF x) s t1 o1 ∧ runsTo (.cbcEncUpdate 0 0xFFFF y) t1 t2 o2 ∧
        t2.cbc = t.cbc ∧ t2.bc = t.bc) ∧
    (s.cbc.phase = .ready ∨ s.cbc.phase = .dec →
      ∃ t t1 t2 o1 o2, runsTo (.cbcDecUpdate 0 0xFFFF (x ++ y)) s t (o1 ++ o2) ∧
        runsTo (.cbcDecUpdate 0 0xFFFF x) s t1 o1 ∧ runsTo (.cbcDecUpdate 0 0xFFFF y) t1 t2 o2 ∧
        t2.cbc = t.cbc ∧ t2.bc = t.bc)

/-! ## The CMAC Engine -/

/-- R72: CMAC.INIT in every case, in every phase. -/
def Obligations.CmacInitCommand : Prop :=
  ∀ (s : State) (arg : Byte) (outcap : Half),
    (∀ d : List Byte, d.length ≠ 3 ∨ arg ≠ 0 →
      exec (.cmacInit arg outcap d) s = .next ((clearEng .cmac s).addResponse ⟨.badParam, 0, 0, []⟩)) ∧
    (∀ b0 b1 b2 : Byte, arg = 0 →
      exec (.cmacInit arg outcap [b0, b1, b2]) s = .next ((s.setCmac
        { cbc := { keyref := { slot := b0 ++ b1, blk := b2 }, chain := Block.zero, pend := Block.zero, plen := 0,
                   pad := false },
          pend := Block.zero, plen := 0, phase := .active }).addResponse ⟨.ok, 0, 0, []⟩))

/-- R70: `dbl`, byte by byte and as a 128-bit integer. -/
def Obligations.DoublingBytewise : Prop :=
  ∀ x : Block,
    (∀ (i : Nat) (h : i < 15), (dbl x)[i] = (x[i] <<< 1) ||| (x[i + 1] >>> 7)) ∧
    (dbl x)[15] = (x[15] <<< 1) ^^^ (if x[0].getLsbD 7 then 0x87 else 0) ∧
    (dbl x).toInt = if x.toInt < 2 ^ 127 then 2 * x.toInt else (2 * x.toInt - 2 ^ 128) ^^^ 0x87

/-- R73: CMAC.UPDATE. Of the lookahead's bytes and the payload, all but the last 1 to 16 are folded into the chain as
whole blocks; those stay in the lookahead. No output. -/
def Obligations.CmacUpdateResult : Prop :=
  ∀ (s : State) (outcap : Half) (data : List Byte), ContextInv s → Honest s.bc → s.cmac.phase = .active →
    let C := s.cmac
    let E := bcEnc s.bc C.cbc.keyref
    let d := pendingThen C.pend C.plen.val data
    let n := (d.length - 1) / 16
    let xs := wholeBlocks (d.take (16 * n))
    ∃ plen : Fin 17, plen.val = d.length - 16 * n ∧
      exec (.cmacUpdate 0 outcap data) s = .next (((s.setBc
        (afterRequests s.bc (encRequests C.cbc.keyref (cbcInputs E C.cbc.chain xs)))).setCmac
        { C with cbc := { C.cbc with chain := lastChain C.cbc.chain (cbcCipher E C.cbc.chain xs) },
                 pend := Block.ofList (d.drop (16 * n)), plen := plen }).addResponse ⟨.ok, 0, 0, []⟩)

/-- R71, R74: CMAC.FINISH. Two requests, `ZERO` and the folded last block; the leftmost `len` bytes are returned and the
context is cleared. -/
def Obligations.CmacFinishResult : Prop :=
  ∀ (s : State) (len : Byte) (outcap : Half), Honest s.bc → s.cmac.phase = .active → len.toNat ≤ 16 →
    len.toNat ≤ outcap.toNat →
    let C := s.cmac
    let E := bcEnc s.bc C.cbc.keyref
    let k1 := dbl (E Block.zero)
    let last := if C.plen = 16 then C.pend.xor k1
      else (Block.ofList (C.pend.toList.take C.plen.val ++ [0x80] ++ List.replicate (15 - C.plen.val) 0)).xor (dbl k1)
    let x := last.xor C.cbc.chain
    exec (.cmacFinish len outcap []) s = .next (((clearEng .cmac s).setBc
      (afterRequests s.bc (encRequests C.cbc.keyref [Block.zero, x]))).addResponse
      ⟨.ok, 0, BitVec.ofNat 16 len.toNat, (E x).toList.take len.toNat⟩)

/-- R73, R74: the errors of CMAC.UPDATE and CMAC.FINISH in the phase that accepts them. -/
def Obligations.CmacErrors : Prop :=
  ∀ (s : State) (arg : Byte) (outcap : Half) (d : List Byte), s.cmac.phase = .active →
    let fails (i : Instr) (r : Response) : Prop := exec i s = .next ((clearEng .cmac s).addResponse r)
    (arg ≠ 0 → fails (.cmacUpdate arg outcap d) ⟨.badParam, 0, 0, []⟩) ∧
    (d ≠ [] ∨ arg.toNat > 16 → fails (.cmacFinish arg outcap d) ⟨.badParam, 0, 0, []⟩) ∧
    (arg.toNat ≤ 16 → outcap.toNat < arg.toNat →
      fails (.cmacFinish arg outcap []) ⟨.bufferTooSmall, 0, BitVec.ofNat 16 arg.toNat, []⟩)

/-- R76 item 1 (its state part is marked [derived]), R28: splitting a CMAC or a CBC-MAC update in two
changes neither the context nor the requests. -/
def Obligations.MacUpdateSplit : Prop :=
  ∀ (s : State) (cap : Half) (x y : List Byte), Honest s.bc →
    (s.cmac.phase = .active →
      ∃ t t1 t2, runsTo (.cmacUpdate 0 cap (x ++ y)) s t [] ∧ runsTo (.cmacUpdate 0 cap x) s t1 [] ∧
        runsTo (.cmacUpdate 0 cap y) t1 t2 [] ∧ t2.cmac = t.cmac ∧ t2.bc = t.bc) ∧
    (s.mac.phase = .active →
      ∃ t t1 t2, runsTo (.macUpdate 0 cap (x ++ y)) s t [] ∧ runsTo (.macUpdate 0 cap x) s t1 [] ∧
        runsTo (.macUpdate 0 cap y) t1 t2 [] ∧ t2.mac = t.mac ∧ t2.bc = t.bc)

/-! ## The CTR Engine -/

/-- R77: CTR.INIT in every case, in every phase; every width is accepted. -/
def Obligations.CtrInitCommand : Prop :=
  ∀ (s : State) (arg : Byte) (outcap : Half),
    (∀ d : List Byte, d.length ≠ 19 →
      exec (.ctrInit arg outcap d) s = .next ((clearEng .ctr s).addResponse ⟨.badParam, 0, 0, []⟩)) ∧
    (∀ (b0 b1 b2 : Byte) (cb : List Byte), cb.length = 16 →
      exec (.ctrInit arg outcap (b0 :: b1 :: b2 :: cb)) s = .next ((s.setCtr
        { core := { keyref := { slot := b0 ++ b1, blk := b2 }, cb := Block.ofList cb, w := arg },
          phase := .active }).addResponse ⟨.ok, 0, 0, []⟩))

/-- R79: `inc` adds 1 to the low `w` bytes as a big-endian integer, wrapping, and touches no other byte. -/
def Obligations.IncrementStaysInField : Prop :=
  ∀ (x : Block) (w : Nat), 1 ≤ w → w ≤ 16 →
    (inc x w).toList.take (16 - w) = x.toList.take (16 - w) ∧
    intBe ((inc x w).toList.drop (16 - w)) = (intBe (x.toList.drop (16 - w)) + 1) % 2 ^ (8 * w)

/-- A width a CTR block command accepts under these straps (R81). -/
def Sys2Proof.widthAccepted (st : Straps) (w : Byte) : Prop := w.toNat ≤ 16 ∧ (w = 0 → st.ctrWidth0 = .noop)

/-- R78, R80: the two CTR block commands do the same: the input xor the encrypted counter block, with the counter as it
stands before its increment; a width of 0 leaves the counter as it is. Nothing else changes. -/
def Obligations.CtrBlockResult : Prop :=
  ∀ (s : State) (outcap : Half) (d : List Byte), Honest s.bc → s.ctr.phase = .active →
    widthAccepted s.straps s.ctr.core.w → d.length = 16 → 16 ≤ outcap.toNat →
    let C := s.ctr.core
    let res : Result := .next (((s.setBc (afterRequests s.bc (encRequests C.keyref [C.cb]))).setCtr
      { s.ctr with core := { C with cb := if C.w = 0 then C.cb else inc C.cb C.w.toNat } }).addResponse
      ⟨.ok, 0, 16, ((Block.ofList d).xor (bcEnc s.bc C.keyref C.cb)).toList⟩)
    exec (.ctrEncBlock 0 outcap d) s = res ∧ exec (.ctrDecBlock 0 outcap d) s = res

/-- R82 (marked [derived]): a CTR block command that succeeds leaves the nonce bytes, those above the counter
field, as they are. -/
def Obligations.NonceBytesKept : Prop :=
  ∀ (s t : State) (arg : Byte) (outcap : Half) (d : List Byte) (r : Response),
    exec (.ctrEncBlock arg outcap d) s = .next t ∨ exec (.ctrDecBlock arg outcap d) s = .next t →
    t.responses = s.responses ++ [r] → r.status = .ok →
    ∀ (i : Nat) (h : i < 16), i < 16 - s.ctr.core.w.toNat → t.ctr.core.cb[i] = s.ctr.core.cb[i]

/-- R78, R81: the errors of the two CTR block commands in the phase that accepts them; the stored width is judged
first, and only here. -/
def Obligations.CtrBlockErrors : Prop :=
  ∀ (s : State) (arg : Byte) (outcap : Half) (d : List Byte), s.ctr.phase = .active →
    let fails (r : Response) : Prop :=
      exec (.ctrEncBlock arg outcap d) s = .next ((clearEng .ctr s).addResponse r) ∧
      exec (.ctrDecBlock arg outcap d) s = .next ((clearEng .ctr s).addResponse r)
    (s.ctr.core.w.toNat > 16 → fails ⟨.badParam, 0, 0, []⟩) ∧
    (s.ctr.core.w = 0 → s.straps.ctrWidth0 = .reject → fails ⟨.badParam, 0, 0, []⟩) ∧
    (d.length ≠ 16 ∨ arg ≠ 0 → fails ⟨.badParam, 0, 0, []⟩) ∧
    (widthAccepted s.straps s.ctr.core.w → d.length = 16 → arg = 0 → outcap.toNat < 16 →
      fails ⟨.bufferTooSmall, 0, 16, []⟩)

/-! ## The CBC-MAC Engine -/

/-- R84: MAC.INIT in every case, in every phase. -/
def Obligations.MacInitCommand : Prop :=
  ∀ (s : State) (arg : Byte) (outcap : Half),
    (∀ d : List Byte, d.length ≠ 3 ∨ arg ≠ 0 →
      exec (.macInit arg outcap d) s = .next ((clearEng .mac s).addResponse ⟨.badParam, 0, 0, []⟩)) ∧
    (∀ b0 b1 b2 : Byte, arg = 0 →
      exec (.macInit arg outcap [b0, b1, b2]) s = .next ((s.setMac
        { core := { cbc := { keyref := { slot := b0 ++ b1, blk := b2 }, chain := Block.zero, pend := Block.zero,
                             plen := 0, pad := false },
                    pend := Block.zero, plen := 0 },
          phase := .active }).addResponse ⟨.ok, 0, 0, []⟩))

/-- R83, R85: MAC.UPDATE. The whole blocks of the pending bytes and the payload are folded into the chain; the rest
stays pending. No output. A nonzero `ARG` is `BadParam`. -/
def Obligations.MacUpdateResult : Prop :=
  ∀ (s : State) (outcap : Half) (data : List Byte), s.mac.phase = .active →
    (∀ arg : Byte, arg ≠ 0 →
      exec (.macUpdate arg outcap data) s = .next ((clearEng .mac s).addResponse ⟨.badParam, 0, 0, []⟩)) ∧
    (ContextInv s → Honest s.bc →
      let M := s.mac.core
      let E := bcEnc s.bc M.cbc.keyref
      let d := pendingThen M.pend M.plen.val data
      let xs := wholeBlocks d
      exec (.macUpdate 0 outcap data) s = .next (((s.setBc
        (afterRequests s.bc (encRequests M.cbc.keyref (cbcInputs E M.cbc.chain xs)))).setMac
        { s.mac with
          core := { cbc := { M.cbc with chain := lastChain M.cbc.chain (cbcCipher E M.cbc.chain xs) },
                    pend := Block.ofList (tailBytes d), plen := rem16 d.length } }).addResponse ⟨.ok, 0, 0, []⟩))

/-- R86, R87: MAC.FINISH in every case. Pending bytes are `ProtocolViolation` whatever the capacity and the straps, never
a padded MAC; else the leftmost `len` bytes of the chain are returned. No request in any case. -/
def Obligations.MacFinishCommand : Prop :=
  ∀ (s : State) (len : Byte) (outcap : Half) (d : List Byte),
    let fails (r : Response) : Prop := exec (.macFinish len outcap d) s = .next ((clearEng .mac s).addResponse r)
    (s.mac.phase ≠ .active → fails ⟨.badState, 0, 0, []⟩) ∧
    (s.mac.phase = .active → (d ≠ [] ∨ len.toNat > 16) → fails ⟨.badParam, 0, 0, []⟩) ∧
    (s.mac.phase = .active → d = [] → len.toNat ≤ 16 → s.mac.core.plen ≠ 0 → fails ⟨.protocolViolation, 0, 0, []⟩) ∧
    (s.mac.phase = .active → d = [] → len.toNat ≤ 16 → s.mac.core.plen = 0 → outcap.toNat < len.toNat →
      fails ⟨.bufferTooSmall, 0, BitVec.ofNat 16 len.toNat, []⟩) ∧
    (s.mac.phase = .active → d = [] → len.toNat ≤ 16 → s.mac.core.plen = 0 → len.toNat ≤ outcap.toNat →
      exec (.macFinish len outcap d) s = .next ((clearEng .mac s).addResponse
        ⟨.ok, 0, BitVec.ofNat 16 len.toNat, s.mac.core.cbc.chain.toList.take len.toNat⟩))

/-! ## The CCM Engine -/

/-- R89, R90, R91, R94: CCM.INIT where its parameters are legal: one request, `B0`, whose answer is the chain; the
counter block is `A_1`. `B0` and `A_1` are written out byte by byte (their layouts are marked [from general knowledge]
by the spec, R90 and R91). -/
def Obligations.CcmInitResult : Prop :=
  ∀ (s : State) (tag : Byte) (outcap : Half) (b0 b1 b2 : Byte) (aadSize textSize : Nat) (iv : List Byte),
    Honest s.bc → tag.toNat ∈ [4, 6, 8, 10, 12, 14, 16] → 7 ≤ iv.length → iv.length ≤ 13 → aadSize < 2 ^ 64 →
    textSize < 2 ^ 64 → textSize < 2 ^ (8 * (15 - iv.length)) →
    let l := 15 - iv.length
    let k : KeyRef := { slot := b0 ++ b1, blk := b2 }
    let flags := (if aadSize > 0 then 64 else 0) + 8 * ((tag.toNat - 2) / 2) + (l - 1)
    let first := Block.ofList (BitVec.ofNat 8 flags :: iv ++ be textSize l)
    exec (.ccmInit tag outcap ([b0, b1, b2] ++ be iv.length 1 ++ be aadSize 8 ++ be textSize 8 ++ iv)) s =
      .next (((s.setBc (afterRequests s.bc (encRequests k [first]))).setCcm
        { mac := { cbc := { keyref := k, chain := bcEnc s.bc k first, pend := Block.zero, plen := 0, pad := false },
                   pend := Block.zero, plen := 0 },
          ctr := { keyref := k, cb := Block.ofList (BitVec.ofNat 8 (l - 1) :: iv ++ be 1 l), w := BitVec.ofNat 8 l },
          ivsize := BitVec.ofNat 8 iv.length, tagsize := tag, aadsize := BitVec.ofNat 64 aadSize,
          textsize := BitVec.ofNat 64 textSize, aadcons := 0, textcons := 0, ks := Block.zero,
          phase := .init }).addResponse ⟨.ok, 0, 0, []⟩)

/-- R89, R94: the five parameter checks of CCM.INIT, each `BadParam` before any request. -/
def Obligations.CcmInitErrors : Prop :=
  ∀ (s : State) (tag : Byte) (outcap : Half) (d : List Byte),
    let ivSize := (d.getD 3 0).toNat
    (tag.toNat ∉ [4, 6, 8, 10, 12, 14, 16] ∨ d.length < 20 ∨ ivSize < 7 ∨ ivSize > 13 ∨ d.length ≠ 20 + ivSize ∨
      intBe (slice d 12 8) ≥ 2 ^ (8 * (15 - ivSize))) →
    exec (.ccmInit tag outcap d) s = .next ((clearEng .ccm s).addResponse ⟨.badParam, 0, 0, []⟩)

/-- R92: the AAD-length prefix (thresholds and marker bytes are marked [from general knowledge] by the spec). -/
def Obligations.AadPrefixForms : Prop :=
  aadPrefix 0 = [] ∧
  (∀ n, 0 < n → n < 0xFF00 → (aadPrefix n).length = 2 ∧ intBe (aadPrefix n) = n) ∧
  (∀ n, 0xFF00 ≤ n → n < 2 ^ 32 → ∃ b, aadPrefix n = 0xFF :: 0xFE :: b ∧ b.length = 4 ∧ intBe b = n) ∧
  (∀ n, 2 ^ 32 ≤ n → n < 2 ^ 64 → ∃ b, aadPrefix n = 0xFF :: 0xFF :: b ∧ b.length = 8 ∧ intBe b = n)

/-- R83, R92, R95: CCM.AAD_UPDATE within its budget: the length prefix (on the stream's first one), then the data, are
fed to the CBC-MAC. -/
def Obligations.CcmAadUpdateResult : Prop :=
  ∀ (s : State) (outcap : Half) (data : List Byte), ContextInv s → Honest s.bc → s.ccm.phase = .init ∨ s.ccm.phase = .aad →
    s.ccm.aadcons.toNat + data.length ≤ s.ccm.aadsize.toNat →
    let C := s.ccm
    let M := C.mac
    let E := bcEnc s.bc M.cbc.keyref
    let d := pendingThen M.pend M.plen.val ((if C.phase = .init then aadPrefix C.aadsize.toNat else []) ++ data)
    let xs := wholeBlocks d
    exec (.ccmAadUpdate 0 outcap data) s = .next (((s.setBc
      (afterRequests s.bc (encRequests M.cbc.keyref (cbcInputs E M.cbc.chain xs)))).setCcm
      { C with
        mac := { cbc := { M.cbc with chain := lastChain M.cbc.chain (cbcCipher E M.cbc.chain xs) },
                 pend := Block.ofList (tailBytes d), plen := rem16 d.length },
        aadcons := C.aadcons + BitVec.ofNat 64 data.length, phase := .aad }).addResponse ⟨.ok, 0, 0, []⟩)

/-- R96: CCM.AAD_FINISH once all declared AAD has been fed: at most one request, the pending bytes continued with
zeros; nothing is pending afterwards. -/
def Obligations.CcmAadFinishResult : Prop :=
  ∀ (s : State) (outcap : Half), ContextInv s → Honest s.bc → s.ccm.phase = .init ∨ s.ccm.phase = .aad →
    s.ccm.aadcons = s.ccm.aadsize →
    let C := s.ccm
    let M := C.mac
    exec (.ccmAadFinish 0 outcap []) s = .next (((s.setBc
      (afterRequests s.bc (encRequests M.cbc.keyref (flushInputs M)))).setCcm
      { C with
        mac := { cbc := { M.cbc with chain := flushedChain (bcEnc s.bc M.cbc.keyref) M }, pend := Block.zero,
                 plen := 0 },
        phase := .aadFinish }).addResponse ⟨.ok, 0, 0, []⟩)

/-- The state and response R97 to R99 give a text update that outputs `out` and authenticates `plain`. -/
def Sys2Proof.textUpdateResult (s : State) (active : CcmPhase) (plain out : List Byte) : Result :=
  let C := s.ccm
  let M := C.mac
  let E := bcEnc s.bc M.cbc.keyref
  let d := pendingThen M.pend M.plen.val plain
  let xs := wholeBlocks d
  let counters := nextCounters C plain.length
  let keystreamRequests := encRequests C.ctr.keyref counters
  let macRequests := encRequests M.cbc.keyref (cbcInputs E M.cbc.chain xs)
  .next (((s.setBc (afterRequests s.bc
      (if C.textcons.toNat % 16 = 0 then inTurn keystreamRequests macRequests
       else inTurn macRequests keystreamRequests))).setCcm
    { C with
      mac := { cbc := { M.cbc with chain := lastChain M.cbc.chain (cbcCipher E M.cbc.chain xs) },
               pend := Block.ofList (tailBytes d), plen := rem16 d.length },
      ctr := { C.ctr with cb := incTimes C.ctr.w.toNat counters.length C.ctr.cb },
      textcons := C.textcons + BitVec.ofNat 64 plain.length,
      ks := (counters.map (bcEnc s.bc C.ctr.keyref)).getLastD C.ks,
      phase := active }).addResponse ⟨.ok, 0, BitVec.ofNat 16 plain.length, out⟩)

/-- R97, R98, R99: CCM.ENC_UPDATE and CCM.DEC_UPDATE within their budget and capacity: the payload xor the keystream is
put out, and the plaintext (the payload when encrypting, the output when decrypting) is fed to the CBC-MAC; each text
block's keystream request comes at its first byte and its authentication request at its sixteenth. -/
def Obligations.CcmTextUpdateResult : Prop :=
  ∀ (s : State) (outcap : Half) (data : List Byte), ContextInv s → CcmStreamInv s.ccm → Honest s.bc →
    s.ccm.textcons.toNat + data.length ≤ s.ccm.textsize.toNat → data.length ≤ outcap.toNat →
    let out := xorBytes data (nextKeystream (bcEnc s.bc s.ccm.ctr.keyref) s.ccm data.length)
    (s.ccm.phase = .aadFinish ∨ s.ccm.phase = .encryptText →
      exec (.ccmEncUpdate 0 outcap data) s = textUpdateResult s .encryptText data out) ∧
    (s.ccm.phase = .aadFinish ∨ s.ccm.phase = .decryptText →
      exec (.ccmDecUpdate 0 outcap data) s = textUpdateResult s .decryptText out out)

/-- The tag of R100: the flushed CBC-MAC value xor the keystream of counter 0, the leftmost `TAGSIZE` bytes. That it is
the leftmost ones is marked [from general knowledge] in R100 (log entry 11); that `A_0` is the counter block with its low
`W` bytes zero is marked [derived] in R91. -/
def Sys2Proof.tagOf (s : State) : List Byte :=
  let C := s.ccm
  let E := bcEnc s.bc C.ctr.keyref
  let a0 := Block.ofList (C.ctr.cb.toList.take (16 - C.ctr.w.toNat) ++ List.replicate C.ctr.w.toNat 0)
  ((flushedChain E C.mac).xor (E a0)).toList.take C.tagsize.toNat

/-- The requests R100 makes, in order: the flush if a partial block is pending, then `A_0`. -/
def Sys2Proof.tagRequests (s : State) : List Request :=
  let C := s.ccm
  encRequests C.ctr.keyref (flushInputs C.mac ++
    [Block.ofList (C.ctr.cb.toList.take (16 - C.ctr.w.toNat) ++ List.replicate C.ctr.w.toNat 0)])

/-- R100, R101: CCM.ENC_FINISH once all declared text has been fed puts out the tag and clears the context.
That the tag is the leftmost `TAGSIZE` bytes rests on R100's general knowledge (log entry 11), the recovery of `A_0` on an
inference of R91. -/
def Obligations.CcmEncFinishResult : Prop :=
  ∀ (s : State) (outcap : Half), ContextInv s → CcmStreamInv s.ccm → Honest s.bc →
    s.ccm.phase = .aadFinish ∨ s.ccm.phase = .encryptText → s.ccm.textcons = s.ccm.textsize →
    s.ccm.tagsize.toNat ≤ outcap.toNat →
    exec (.ccmEncFinish s.ccm.tagsize outcap []) s =
      .next (((clearEng .ccm s).setBc (afterRequests s.bc (tagRequests s))).addResponse
        ⟨.ok, 0, BitVec.ofNat 16 s.ccm.tagsize.toNat, tagOf s⟩)

/-- R100, R102, R119: CCM.DEC_FINISH once all declared text has been fed reports in `AUX` whether the expected tag is
the tag, puts out nothing, and clears the context either way. That the tag is the leftmost `TAGSIZE` bytes rests on
R100's general knowledge (log entry 11), the recovery of `A_0` on an inference of R91. -/
def Obligations.CcmDecFinishResult : Prop :=
  ∀ (s : State) (outcap : Half) (expected : List Byte), ContextInv s → CcmStreamInv s.ccm → Honest s.bc →
    s.ccm.phase = .aadFinish ∨ s.ccm.phase = .decryptText → s.ccm.textcons = s.ccm.textsize →
    expected.length = s.ccm.tagsize.toNat →
    exec (.ccmDecFinish s.ccm.tagsize outcap expected) s =
      .next (((clearEng .ccm s).setBc (afterRequests s.bc (tagRequests s))).addResponse
        ⟨.ok, if expected = tagOf s then 1 else 0, 0, []⟩)

/-- R104 item 2 (marked [derived]): from the same point of a stream (all AAD closed, no text yet), for a text that fits one
packet, decrypting what encrypting put out gives the text back, and the tag encrypting put out is verified. -/
def Obligations.CcmOpenOfSeal : Prop :=
  ∀ (s : State) (text : List Byte), ContextInv s → CcmStreamInv s.ccm → Honest s.bc → s.ccm.phase = .aadFinish →
    text.length = s.ccm.textsize.toNat → text.length ≤ 65520 →
    ∃ s1 s2 t1 t2 c tag,
      runsTo (.ccmEncUpdate 0 0xFFFF text) s s1 c ∧ runsTo (.ccmEncFinish s.ccm.tagsize 0xFFFF []) s1 s2 tag ∧
      runsTo (.ccmDecUpdate 0 0xFFFF c) s t1 text ∧ exec (.ccmDecFinish s.ccm.tagsize 0 tag) t1 = .next t2 ∧
      t2.responses = t1.responses ++ [⟨.ok, 1, 0, []⟩]

/-- R136 (there marked [derived]): the requests and the final state of CCM.DEC_FINISH, but for the verdict in `AUX`, are the same for every
expected tag of the right length, in every state. -/
def Obligations.TagCompareLeavesNoTrace : Prop :=
  ∀ (s : State) (arg : Byte) (outcap : Half) (e1 e2 : List Byte), e1.length = e2.length →
    ∃ t1 t2 r1 r2, exec (.ccmDecFinish arg outcap e1) s = .next t1 ∧ exec (.ccmDecFinish arg outcap e2) s = .next t2 ∧
      t1.responses = s.responses ++ [r1] ∧ t2.responses = s.responses ++ [r2] ∧
      t1 = { t2 with responses := t1.responses } ∧ r1.status = r2.status ∧ r1.req = r2.req ∧ r1.out = r2.out ∧
      (r1.aux ≠ r2.aux → r1.status = .ok)

/-- R103: the four budget checks: a CCM command that would overrun or has not met a declared size is refused whole with
`GenFail`, no byte fed and no request made. -/
def Obligations.CcmBudgetChecks : Prop :=
  ∀ (s : State) (outcap : Half) (data : List Byte),
    let C := s.ccm
    let fails (i : Instr) : Prop := exec i s = .next ((clearEng .ccm s).addResponse ⟨.genFail, 0, 0, []⟩)
    (C.phase = .init ∨ C.phase = .aad →
      (C.aadcons.toNat + data.length > C.aadsize.toNat → fails (.ccmAadUpdate 0 outcap data)) ∧
      (C.aadcons ≠ C.aadsize → fails (.ccmAadFinish 0 outcap []))) ∧
    (C.phase = .aadFinish ∨ C.phase = .encryptText →
      (C.textcons.toNat + data.length > C.textsize.toNat → fails (.ccmEncUpdate 0 outcap data)) ∧
      (C.textcons ≠ C.textsize → fails (.ccmEncFinish C.tagsize outcap []))) ∧
    (C.phase = .aadFinish ∨ C.phase = .decryptText →
      (C.textcons.toNat + data.length > C.textsize.toNat → fails (.ccmDecUpdate 0 outcap data)) ∧
      (C.textcons ≠ C.textsize → data.length = C.tagsize.toNat → fails (.ccmDecFinish C.tagsize outcap data)))

/-- R95, R96, R98, R99, R101, R102, R109: the argument and capacity errors of the CCM commands in a phase that accepts
them. -/
def Obligations.CcmArgumentErrors : Prop :=
  ∀ (s : State) (arg : Byte) (outcap : Half) (d : List Byte),
    let C := s.ccm
    let fails (i : Instr) (r : Response) : Prop := exec i s = .next ((clearEng .ccm s).addResponse r)
    let bad : Response := ⟨.badParam, 0, 0, []⟩
    (C.phase = .init ∨ C.phase = .aad →
      (arg ≠ 0 → fails (.ccmAadUpdate arg outcap d) bad) ∧
      (arg ≠ 0 ∨ d ≠ [] → fails (.ccmAadFinish arg outcap d) bad)) ∧
    (C.phase = .aadFinish ∨ C.phase = .encryptText →
      (arg ≠ 0 → fails (.ccmEncUpdate arg outcap d) bad) ∧
      (C.textcons.toNat + d.length ≤ C.textsize.toNat → outcap.toNat < d.length →
        fails (.ccmEncUpdate 0 outcap d) ⟨.bufferTooSmall, 0, BitVec.ofNat 16 d.length, []⟩) ∧
      (arg ≠ C.tagsize ∨ d ≠ [] → fails (.ccmEncFinish arg outcap d) bad) ∧
      (C.textcons = C.textsize → outcap.toNat < C.tagsize.toNat →
        fails (.ccmEncFinish C.tagsize outcap []) ⟨.bufferTooSmall, 0, BitVec.ofNat 16 C.tagsize.toNat, []⟩)) ∧
    (C.phase = .aadFinish ∨ C.phase = .decryptText →
      (arg ≠ 0 → fails (.ccmDecUpdate arg outcap d) bad) ∧
      (C.textcons.toNat + d.length ≤ C.textsize.toNat → outcap.toNat < d.length →
        fails (.ccmDecUpdate 0 outcap d) ⟨.bufferTooSmall, 0, BitVec.ofNat 16 d.length, []⟩) ∧
      (arg ≠ C.tagsize ∨ d.length ≠ C.tagsize.toNat → fails (.ccmDecFinish arg outcap d) bad))

/-- R104 item 4 (marked [derived]): splitting an AAD or a text update in two, within the budget and with full capacity,
changes neither the output, nor the context, nor the requests. -/
def Obligations.CcmUpdateSplit : Prop :=
  ∀ (s : State) (x y : List Byte), ContextInv s → CcmStreamInv s.ccm → Honest s.bc → x.length + y.length ≤ 65520 →
    (s.ccm.phase = .init ∨ s.ccm.phase = .aad → s.ccm.aadcons.toNat + x.length + y.length ≤ s.ccm.aadsize.toNat →
      ∃ t t1 t2, runsTo (.ccmAadUpdate 0 0 (x ++ y)) s t [] ∧ runsTo (.ccmAadUpdate 0 0 x) s t1 [] ∧
        runsTo (.ccmAadUpdate 0 0 y) t1 t2 [] ∧ t2.ccm = t.ccm ∧ t2.bc = t.bc) ∧
    (s.ccm.textcons.toNat + x.length + y.length ≤ s.ccm.textsize.toNat →
      (s.ccm.phase = .aadFinish ∨ s.ccm.phase = .encryptText →
        ∃ t t1 t2 o1 o2, runsTo (.ccmEncUpdate 0 0xFFFF (x ++ y)) s t (o1 ++ o2) ∧
          runsTo (.ccmEncUpdate 0 0xFFFF x) s t1 o1 ∧ runsTo (.ccmEncUpdate 0 0xFFFF y) t1 t2 o2 ∧
          t2.ccm = t.ccm ∧ t2.bc = t.bc) ∧
      (s.ccm.phase = .aadFinish ∨ s.ccm.phase = .decryptText →
        ∃ t t1 t2 o1 o2, runsTo (.ccmDecUpdate 0 0xFFFF (x ++ y)) s t (o1 ++ o2) ∧
          runsTo (.ccmDecUpdate 0 0xFFFF x) s t1 o1 ∧ runsTo (.ccmDecUpdate 0 0xFFFF y) t1 t2 o2 ∧
          t2.ccm = t.ccm ∧ t2.bc = t.bc))
end

