-- ==== Sys2Proof/Laws/Bytes.lean ====
section
/-! SUPPORT. Lemmas about byte strings and blocks. -/

namespace Sys2Proof

@[simp] theorem be_length (v n : Nat) : (be v n).length = n := by
  induction n with
  | zero => rfl
  | succ n ih => simp [be, ih]

theorem intBe_foldl (bs : List Byte) (a : Nat) :
    bs.foldl (fun acc b => acc * 256 + b.toNat) a = a * 256 ^ bs.length + intBe bs := by
  induction bs generalizing a with
  | nil => simp [intBe]
  | cons b bs ih =>
    have h := ih (0 * 256 + b.toNat)
    simp only [intBe, List.foldl_cons] at *
    rw [ih, h, List.length_cons, pow_succ]
    ring

@[simp] theorem intBe_nil : intBe [] = 0 := rfl

theorem intBe_cons (b : Byte) (bs : List Byte) : intBe (b :: bs) = b.toNat * 256 ^ bs.length + intBe bs := by
  have h := intBe_foldl bs (0 * 256 + b.toNat)
  simpa [intBe] using h

theorem intBe_lt (bs : List Byte) : intBe bs < 256 ^ bs.length := by
  induction bs with
  | nil => simp
  | cons b bs ih =>
    rw [intBe_cons, List.length_cons, pow_succ]
    have hb : b.toNat < 256 := b.isLt
    nlinarith

theorem intBe_be_mod (v n : Nat) : intBe (be v n) = v % 256 ^ n := by
  induction n with
  | zero => simp [be, Nat.mod_one]
  | succ n ih =>
    have h := Nat.mod_mul (a := 256 ^ n) (b := 256) (x := v)
    rw [be, intBe_cons, be_length, ih, BitVec.toNat_ofNat, pow_succ 256 n, h, Nat.add_comm, Nat.mul_comm]

/-- `int_be(be(v, n)) = v` for `v < 2^(8n)` (R6). -/
theorem intBe_be {v n : Nat} (h : v < 256 ^ n) : intBe (be v n) = v := by
  rw [intBe_be_mod, Nat.mod_eq_of_lt h]

/-- `be(int_be(B), len(B)) = B` (R6). -/
theorem be_intBe (bs : List Byte) : be (intBe bs) bs.length = bs := by
  induction bs with
  | nil => rfl
  | cons b bs ih =>
    have hpos : 0 < 256 ^ bs.length := by positivity
    have hlt := intBe_lt bs
    have hdiv : (b.toNat * 256 ^ bs.length + intBe bs) / 256 ^ bs.length = b.toNat := by
      rw [mul_comm, Nat.mul_add_div hpos, Nat.div_eq_of_lt hlt, Nat.add_zero]
    have hrest : ∀ n, n ≤ bs.length → be (b.toNat * 256 ^ bs.length + intBe bs) n = be (intBe bs) n := by
      intro n
      induction n with
      | zero => intro _; rfl
      | succ n ihn =>
        intro hn
        rw [be, be, ihn (by omega)]
        congr 1
        obtain ⟨k, hk⟩ := Nat.exists_eq_add_of_lt hn
        have h2 : b.toNat * 256 ^ bs.length = 256 ^ n * (256 * (b.toNat * 256 ^ k)) := by
          rw [hk]; ring
        apply BitVec.eq_of_toNat_eq
        rw [h2, Nat.mul_add_div (by positivity)]
        simp [BitVec.toNat_ofNat]
    rw [intBe_cons, List.length_cons, be, hdiv, hrest _ le_rfl, ih]
    simp

@[simp] theorem zeros_length (n : Nat) : (zeros n).length = n := by simp [zeros, rep]

@[simp] theorem rep_length (v : Byte) (n : Nat) : (rep v n).length = n := by simp [rep]

@[simp] theorem Block.ofList_getElem (bs : List Byte) (i : Nat) (h : i < 16) :
    (Block.ofList bs)[i] = bs.getD i 0 := by
  simp [Block.ofList]

@[simp] theorem Block.xor_getElem (a b : Block) (i : Nat) (h : i < 16) : (a.xor b)[i] = a[i] ^^^ b[i] := by
  simp [Block.xor]

@[simp] theorem Block.toList_length (x : Block) : x.toList.length = 16 := by simp

/-- The bytes of a block made of 16 bytes are those bytes. -/
theorem Block.toList_ofList {bs : List Byte} (h : bs.length = 16) : (Block.ofList bs).toList = bs := by
  apply List.ext_getElem
  · simp [h]
  · intro i h1 h2
    have h3 : i < 16 := by omega
    simp [Block.ofList, List.getD_eq_getElem?_getD, h2]

/-- A block is the block of its bytes. -/
@[simp] theorem Block.ofList_toList (x : Block) : Block.ofList x.toList = x := by
  ext i h
  have h2 : i < x.toList.length := by simp; exact h
  simp [List.getD_eq_getElem?_getD, h]

/-- Bytes past the end of a string are zero in its block, so a zero tail adds nothing. -/
@[simp] theorem Block.ofList_append_zeros (bs : List Byte) (n : Nat) :
    Block.ofList (bs ++ zeros n) = Block.ofList bs := by
  ext i h : 1
  simp only [Block.ofList_getElem, List.getD_eq_getElem?_getD, zeros, rep, List.getElem?_append,
    List.getElem?_replicate]
  split
  · rfl
  · rename_i h1
    have h2 : bs[i]? = none := List.getElem?_eq_none (by omega)
    simp only [h2]
    split <;> rfl

theorem Block.xor_comm (a b : Block) : a.xor b = b.xor a := by
  ext i h : 1
  simp [BitVec.xor_comm]

theorem Block.xor_assoc (a b c : Block) : (a.xor b).xor c = a.xor (b.xor c) := by
  ext i h : 1
  simp [BitVec.xor_assoc]

@[simp] theorem Block.xor_self (a : Block) : a.xor a = Block.zero := by
  ext i h : 1
  simp

@[simp] theorem Block.xor_zero (a : Block) : a.xor Block.zero = a := by
  ext i h : 1
  simp

@[simp] theorem Block.zero_xor (a : Block) : Block.zero.xor a = a := by
  ext i h : 1
  simp

/-- `(a xor b) xor b = a` (R140). -/
@[simp] theorem Block.xor_cancel (a b : Block) : (a.xor b).xor b = a := by
  rw [Block.xor_assoc, Block.xor_self, Block.xor_zero]

end Sys2Proof
end

