-- ==== Sys2Proof/Laws/State.lean ====
section
/-! SUPPORT. One lemma per field per update of State, so that no proof unfolds a record update. -/

namespace Sys2Proof.Machine.State

variable (s : State)

@[simp] theorem setCbc_cbc (v : CbcCtx) : (s.setCbc v).cbc = v := rfl
@[simp] theorem setCbc_cmac (v : CbcCtx) : (s.setCbc v).cmac = s.cmac := rfl
@[simp] theorem setCbc_ctr (v : CbcCtx) : (s.setCbc v).ctr = s.ctr := rfl
@[simp] theorem setCbc_mac (v : CbcCtx) : (s.setCbc v).mac = s.mac := rfl
@[simp] theorem setCbc_ccm (v : CbcCtx) : (s.setCbc v).ccm = s.ccm := rfl
@[simp] theorem setCbc_straps (v : CbcCtx) : (s.setCbc v).straps = s.straps := rfl
@[simp] theorem setCbc_pending (v : CbcCtx) : (s.setCbc v).pending = s.pending := rfl
@[simp] theorem setCbc_responses (v : CbcCtx) : (s.setCbc v).responses = s.responses := rfl
@[simp] theorem setCbc_bc (v : CbcCtx) : (s.setCbc v).bc = s.bc := rfl

@[simp] theorem setCmac_cbc (v : CmacCtx) : (s.setCmac v).cbc = s.cbc := rfl
@[simp] theorem setCmac_cmac (v : CmacCtx) : (s.setCmac v).cmac = v := rfl
@[simp] theorem setCmac_ctr (v : CmacCtx) : (s.setCmac v).ctr = s.ctr := rfl
@[simp] theorem setCmac_mac (v : CmacCtx) : (s.setCmac v).mac = s.mac := rfl
@[simp] theorem setCmac_ccm (v : CmacCtx) : (s.setCmac v).ccm = s.ccm := rfl
@[simp] theorem setCmac_straps (v : CmacCtx) : (s.setCmac v).straps = s.straps := rfl
@[simp] theorem setCmac_pending (v : CmacCtx) : (s.setCmac v).pending = s.pending := rfl
@[simp] theorem setCmac_responses (v : CmacCtx) : (s.setCmac v).responses = s.responses := rfl
@[simp] theorem setCmac_bc (v : CmacCtx) : (s.setCmac v).bc = s.bc := rfl

@[simp] theorem setCtr_cbc (v : CtrCtx) : (s.setCtr v).cbc = s.cbc := rfl
@[simp] theorem setCtr_cmac (v : CtrCtx) : (s.setCtr v).cmac = s.cmac := rfl
@[simp] theorem setCtr_ctr (v : CtrCtx) : (s.setCtr v).ctr = v := rfl
@[simp] theorem setCtr_mac (v : CtrCtx) : (s.setCtr v).mac = s.mac := rfl
@[simp] theorem setCtr_ccm (v : CtrCtx) : (s.setCtr v).ccm = s.ccm := rfl
@[simp] theorem setCtr_straps (v : CtrCtx) : (s.setCtr v).straps = s.straps := rfl
@[simp] theorem setCtr_pending (v : CtrCtx) : (s.setCtr v).pending = s.pending := rfl
@[simp] theorem setCtr_responses (v : CtrCtx) : (s.setCtr v).responses = s.responses := rfl
@[simp] theorem setCtr_bc (v : CtrCtx) : (s.setCtr v).bc = s.bc := rfl

@[simp] theorem setMac_cbc (v : MacCtx) : (s.setMac v).cbc = s.cbc := rfl
@[simp] theorem setMac_cmac (v : MacCtx) : (s.setMac v).cmac = s.cmac := rfl
@[simp] theorem setMac_ctr (v : MacCtx) : (s.setMac v).ctr = s.ctr := rfl
@[simp] theorem setMac_mac (v : MacCtx) : (s.setMac v).mac = v := rfl
@[simp] theorem setMac_ccm (v : MacCtx) : (s.setMac v).ccm = s.ccm := rfl
@[simp] theorem setMac_straps (v : MacCtx) : (s.setMac v).straps = s.straps := rfl
@[simp] theorem setMac_pending (v : MacCtx) : (s.setMac v).pending = s.pending := rfl
@[simp] theorem setMac_responses (v : MacCtx) : (s.setMac v).responses = s.responses := rfl
@[simp] theorem setMac_bc (v : MacCtx) : (s.setMac v).bc = s.bc := rfl

@[simp] theorem setCcm_cbc (v : CcmCtx) : (s.setCcm v).cbc = s.cbc := rfl
@[simp] theorem setCcm_cmac (v : CcmCtx) : (s.setCcm v).cmac = s.cmac := rfl
@[simp] theorem setCcm_ctr (v : CcmCtx) : (s.setCcm v).ctr = s.ctr := rfl
@[simp] theorem setCcm_mac (v : CcmCtx) : (s.setCcm v).mac = s.mac := rfl
@[simp] theorem setCcm_ccm (v : CcmCtx) : (s.setCcm v).ccm = v := rfl
@[simp] theorem setCcm_straps (v : CcmCtx) : (s.setCcm v).straps = s.straps := rfl
@[simp] theorem setCcm_pending (v : CcmCtx) : (s.setCcm v).pending = s.pending := rfl
@[simp] theorem setCcm_responses (v : CcmCtx) : (s.setCcm v).responses = s.responses := rfl
@[simp] theorem setCcm_bc (v : CcmCtx) : (s.setCcm v).bc = s.bc := rfl

@[simp] theorem setStraps_cbc (v : Straps) : (s.setStraps v).cbc = s.cbc := rfl
@[simp] theorem setStraps_cmac (v : Straps) : (s.setStraps v).cmac = s.cmac := rfl
@[simp] theorem setStraps_ctr (v : Straps) : (s.setStraps v).ctr = s.ctr := rfl
@[simp] theorem setStraps_mac (v : Straps) : (s.setStraps v).mac = s.mac := rfl
@[simp] theorem setStraps_ccm (v : Straps) : (s.setStraps v).ccm = s.ccm := rfl
@[simp] theorem setStraps_straps (v : Straps) : (s.setStraps v).straps = v := rfl
@[simp] theorem setStraps_pending (v : Straps) : (s.setStraps v).pending = s.pending := rfl
@[simp] theorem setStraps_responses (v : Straps) : (s.setStraps v).responses = s.responses := rfl
@[simp] theorem setStraps_bc (v : Straps) : (s.setStraps v).bc = s.bc := rfl

@[simp] theorem setPending_cbc (v : List HostEvent) : (s.setPending v).cbc = s.cbc := rfl
@[simp] theorem setPending_cmac (v : List HostEvent) : (s.setPending v).cmac = s.cmac := rfl
@[simp] theorem setPending_ctr (v : List HostEvent) : (s.setPending v).ctr = s.ctr := rfl
@[simp] theorem setPending_mac (v : List HostEvent) : (s.setPending v).mac = s.mac := rfl
@[simp] theorem setPending_ccm (v : List HostEvent) : (s.setPending v).ccm = s.ccm := rfl
@[simp] theorem setPending_straps (v : List HostEvent) : (s.setPending v).straps = s.straps := rfl
@[simp] theorem setPending_pending (v : List HostEvent) : (s.setPending v).pending = v := rfl
@[simp] theorem setPending_responses (v : List HostEvent) : (s.setPending v).responses = s.responses := rfl
@[simp] theorem setPending_bc (v : List HostEvent) : (s.setPending v).bc = s.bc := rfl

@[simp] theorem addResponse_cbc (v : Response) : (s.addResponse v).cbc = s.cbc := rfl
@[simp] theorem addResponse_cmac (v : Response) : (s.addResponse v).cmac = s.cmac := rfl
@[simp] theorem addResponse_ctr (v : Response) : (s.addResponse v).ctr = s.ctr := rfl
@[simp] theorem addResponse_mac (v : Response) : (s.addResponse v).mac = s.mac := rfl
@[simp] theorem addResponse_ccm (v : Response) : (s.addResponse v).ccm = s.ccm := rfl
@[simp] theorem addResponse_straps (v : Response) : (s.addResponse v).straps = s.straps := rfl
@[simp] theorem addResponse_pending (v : Response) : (s.addResponse v).pending = s.pending := rfl
@[simp] theorem addResponse_responses (v : Response) : (s.addResponse v).responses = s.responses ++ [v] := rfl
@[simp] theorem addResponse_bc (v : Response) : (s.addResponse v).bc = s.bc := rfl

@[simp] theorem setBc_cbc (v : BcPort) : (s.setBc v).cbc = s.cbc := rfl
@[simp] theorem setBc_cmac (v : BcPort) : (s.setBc v).cmac = s.cmac := rfl
@[simp] theorem setBc_ctr (v : BcPort) : (s.setBc v).ctr = s.ctr := rfl
@[simp] theorem setBc_mac (v : BcPort) : (s.setBc v).mac = s.mac := rfl
@[simp] theorem setBc_ccm (v : BcPort) : (s.setBc v).ccm = s.ccm := rfl
@[simp] theorem setBc_straps (v : BcPort) : (s.setBc v).straps = s.straps := rfl
@[simp] theorem setBc_pending (v : BcPort) : (s.setBc v).pending = s.pending := rfl
@[simp] theorem setBc_responses (v : BcPort) : (s.setBc v).responses = s.responses := rfl
@[simp] theorem setBc_bc (v : BcPort) : (s.setBc v).bc = v := rfl

/-- Two states with equal fields are equal. -/
theorem ext_fields {s t : State} (h1 : s.cbc = t.cbc) (h2 : s.cmac = t.cmac) (h3 : s.ctr = t.ctr) (h4 : s.mac = t.mac)
    (h5 : s.ccm = t.ccm) (h6 : s.straps = t.straps) (h7 : s.pending = t.pending) (h8 : s.responses = t.responses)
    (h9 : s.bc = t.bc) : s = t := by
  cases s; cases t; simp_all

end Sys2Proof.Machine.State
end

