-- ==== Sys2Proof/Laws/Ops.lean ====
section
/-! SUPPORT. What each shared operation can do, said once. -/

namespace Sys2Proof.Machine

variable {α β σ : Type}

/-! ## Sequencing -/

@[simp] theorem andThen_ok (a : α) (p : BcPort) (f : α → BcPort → BcResult β) :
    (BcResult.ok a p).andThen f = f a p := rfl

@[simp] theorem andThen_failed (c : IoCode) (p : BcPort) (f : α → BcPort → BcResult β) :
    (BcResult.failed c p : BcResult α).andThen f = .failed c p := rfl

/-- A sequence succeeds exactly when both parts do. -/
theorem andThen_eq_ok {r : BcResult α} {f : α → BcPort → BcResult β} {b : β} {q : BcPort} :
    r.andThen f = .ok b q ↔ ∃ a p, r = .ok a p ∧ f a p = .ok b q := by
  cases r <;> simp

/-- A sequence fails when its first part does, or its second after it. -/
theorem andThen_eq_failed {r : BcResult α} {f : α → BcPort → BcResult β} {c : IoCode} {q : BcPort} :
    r.andThen f = .failed c q ↔ r = .failed c q ∨ ∃ a p, r = .ok a p ∧ f a p = .failed c q := by
  cases r <;> simp

theorem andThen_assoc {γ : Type} (r : BcResult α) (f : α → BcPort → BcResult β) (g : β → BcPort → BcResult γ) :
    (r.andThen f).andThen g = r.andThen fun a p => (f a p).andThen g := by
  cases r <;> rfl

/-! ## Requests -/

/-- Everything a request can do (R30, R31, R32): it is recorded and uses up one draw; it fails exactly when that draw
says so, and else its answer is the cipher's. -/
theorem bcRequest_cases (op : BcOp) (k : KeyRef) (x : Block) (p : BcPort) :
    (∃ c, p.draws.head? = some (.err c) ∧ bcRequest op k x p = .failed c (afterRequests p [⟨op, k, x⟩])) ∨
      ((∀ c, p.draws.head? ≠ some (.err c)) ∧
        bcRequest op k x p = .ok (cipherAnswer p.cipher op k x) (afterRequests p [⟨op, k, x⟩])) := by
  rcases p with ⟨e, _ | ⟨d, ds⟩, tr⟩
  · exact .inr ⟨by simp, rfl⟩
  · cases d with
    | cipher => exact .inr ⟨by simp, rfl⟩
    | err c => exact .inl ⟨c, rfl, rfl⟩

/-- With no failure to come, a request gets the cipher's answer. -/
theorem bcRequest_honest {op : BcOp} {k : KeyRef} {x : Block} {p : BcPort} (h : Honest p) :
    bcRequest op k x p = .ok (cipherAnswer p.cipher op k x) (afterRequests p [⟨op, k, x⟩]) := by
  rcases p with ⟨e, _ | ⟨d, ds⟩, tr⟩
  · rfl
  · obtain rfl : d = .cipher := h d (by simp)
    rfl

/-- `BC_DEC(k, ·)` undoes `BC_ENC(k, ·)` (R32(c)). -/
@[simp] theorem cipherAnswer_dec_enc (c : Cipher) (k : KeyRef) (x : Block) :
    cipherAnswer c .dec k (cipherAnswer c .enc k x) = x := by
  simp [cipherAnswer]

/-- `BC_ENC(k, ·)` undoes `BC_DEC(k, ·)` (R32(c)). -/
@[simp] theorem cipherAnswer_enc_dec (c : Cipher) (k : KeyRef) (x : Block) :
    cipherAnswer c .enc k (cipherAnswer c .dec k x) = x := by
  simp [cipherAnswer]

@[simp] theorem afterRequests_cipher (p : BcPort) (rs : List Request) : (afterRequests p rs).cipher = p.cipher := rfl
@[simp] theorem afterRequests_trace (p : BcPort) (rs : List Request) :
    (afterRequests p rs).trace = p.trace ++ rs := rfl
@[simp] theorem afterRequests_draws (p : BcPort) (rs : List Request) :
    (afterRequests p rs).draws = p.draws.drop rs.length := rfl
@[simp] theorem afterRequests_nil (p : BcPort) : afterRequests p [] = p := by simp [afterRequests]

/-- Requests issued one after the other. -/
@[simp] theorem afterRequests_append (p : BcPort) (rs qs : List Request) :
    afterRequests (afterRequests p rs) qs = afterRequests p (rs ++ qs) := by
  simp [afterRequests, List.drop_drop]

/-- After some requests the rest are still answered by the cipher. -/
theorem Honest.after {p : BcPort} (h : Honest p) (rs : List Request) : Honest (afterRequests p rs) :=
  fun d hd => h d (List.mem_of_mem_drop hd)

/-- `cbc_enc_block` with no failure to come (R60). -/
theorem cbcEncBlock_honest {S : CbcCore} {x : Block} {p : BcPort} (h : Honest p) :
    cbcEncBlock S x p = .ok (bcEnc p S.keyref (x.xor S.chain), { S with chain := bcEnc p S.keyref (x.xor S.chain) })
      (afterRequests p [⟨.enc, S.keyref, x.xor S.chain⟩]) := by
  simp [cbcEncBlock, bcRequest_honest h, bcEnc]

/-- `cbc_dec_block` with no failure to come (R61). -/
theorem cbcDecBlock_honest {S : CbcCore} {c : Block} {p : BcPort} (h : Honest p) :
    cbcDecBlock S c p = .ok ((bcDec p S.keyref c).xor S.chain, { S with chain := c })
      (afterRequests p [⟨.dec, S.keyref, c⟩]) := by
  simp [cbcDecBlock, bcRequest_honest h, bcDec]

/-- When `cbc_enc_block` succeeds, its result is the new chaining value and nothing else of the core changes. -/
theorem cbcEncBlock_ok {S : CbcCore} {x : Block} {p q : BcPort} {r : Block × CbcCore}
    (h : cbcEncBlock S x p = .ok r q) : r.2 = { S with chain := r.1 } := by
  obtain ⟨a, p', -, h2⟩ := andThen_eq_ok.mp h
  simp only [BcResult.ok.injEq] at h2
  rw [← h2.1]

/-- When `cbc_dec_block` succeeds, the chaining value is the block consumed and nothing else of the core changes. -/
theorem cbcDecBlock_ok {S : CbcCore} {c : Block} {p q : BcPort} {r : Block × CbcCore}
    (h : cbcDecBlock S c p = .ok r q) : r.2 = { S with chain := c } := by
  obtain ⟨a, p', -, h2⟩ := andThen_eq_ok.mp h
  simp only [BcResult.ok.injEq] at h2
  rw [← h2.1]

/-! ## Buffering -/

/-- A byte that does not complete the block. -/
theorem bufferByte_part {x : Block} {n : Fin 16} {b : Byte} (h : n.val + 1 < 16) :
    bufferByte x n b = .part (x.set n.val b) ⟨n.val + 1, h⟩ := by
  simp [bufferByte, h]

/-- The byte that completes the block. -/
theorem bufferByte_full {x : Block} {n : Fin 16} {b : Byte} (h : n.val = 15) :
    bufferByte x n b = .full (x.set n.val b) := by
  simp [bufferByte, h]

/-- Everything appending a byte can do. -/
theorem bufferByte_cases (x : Block) (n : Fin 16) (b : Byte) :
    (∃ h : n.val + 1 < 16, bufferByte x n b = .part (x.set n.val b) ⟨n.val + 1, h⟩) ∨
      (n.val = 15 ∧ bufferByte x n b = .full (x.set n.val b)) := by
  by_cases h : n.val + 1 < 16
  · exact .inl ⟨h, bufferByte_part h⟩
  · exact .inr ⟨by omega, bufferByte_full (by omega)⟩

/-! ## Feeding a byte string -/

@[simp] theorem feed_nil (f : σ → Byte → BcPort → BcResult (List Byte × σ)) (S : σ) (p : BcPort) :
    feed f S [] p = .ok ([], S) p := rfl

theorem feed_cons (f : σ → Byte → BcPort → BcResult (List Byte × σ)) (S : σ) (b : Byte) (bs : List Byte) (p : BcPort) :
    feed f S (b :: bs) p =
      (f S b p).andThen fun r p' => (feed f r.2 bs p').andThen fun r' p'' => .ok (r.1 ++ r'.1, r'.2) p'' := rfl

/-- Feeding two strings one after the other is feeding their concatenation. -/
theorem feed_append (f : σ → Byte → BcPort → BcResult (List Byte × σ)) (S : σ) (xs ys : List Byte) (p : BcPort) :
    feed f S (xs ++ ys) p =
      (feed f S xs p).andThen fun r p' => (feed f r.2 ys p').andThen fun r' p'' => .ok (r.1 ++ r'.1, r'.2) p'' := by
  induction xs generalizing S p with
  | nil =>
    simp only [List.nil_append, feed_nil, andThen_ok]
    cases feed f S ys p <;> simp
  | cons b bs ih =>
    simp only [List.cons_append, feed_cons, ih, andThen_assoc, andThen_ok, List.append_assoc]

/-- A property of the context that every byte keeps is kept by a byte string. -/
theorem feed_keeps {f : σ → Byte → BcPort → BcResult (List Byte × σ)} {P : σ → Prop}
    (hf : ∀ S b p r q, P S → f S b p = .ok r q → P r.2) {S : σ} {bs : List Byte} {p q : BcPort} {r : List Byte × σ}
    (hS : P S) (h : feed f S bs p = .ok r q) : P r.2 := by
  induction bs generalizing S p r q with
  | nil =>
    simp only [feed_nil, BcResult.ok.injEq] at h
    exact h.1 ▸ hS
  | cons b bs ih =>
    obtain ⟨a, p', h1, h2⟩ := andThen_eq_ok.mp h
    obtain ⟨a', p'', h3, h4⟩ := andThen_eq_ok.mp h2
    simp only [BcResult.ok.injEq] at h4
    have h5 : P a'.2 := ih (hf _ _ _ _ _ hS h1) h3
    rw [← h4.1]
    exact h5

/-! ## Whole blocks of a byte string -/

@[simp] theorem wholeBlocks_nil : wholeBlocks [] = [] := rfl

theorem wholeBlocks_short {d : List Byte} (h : d.length < 16) : wholeBlocks d = [] := by
  simp [wholeBlocks, Nat.div_eq_of_lt h]

theorem tailBytes_short {d : List Byte} (h : d.length < 16) : tailBytes d = d := by
  simp [tailBytes, Nat.div_eq_of_lt h]

theorem drop_block (x : Block) (d : List Byte) (k : Nat) : (x.toList ++ d).drop (16 + k) = d.drop k := by
  have h : x.toList.drop (16 + k) = [] := List.drop_of_length_le (by rw [Block.toList_length]; omega)
  rw [List.drop_append, h, List.nil_append, Block.toList_length, Nat.add_sub_cancel_left]

/-- A block at the front of a byte string is its first whole block. -/
theorem wholeBlocks_block (x : Block) (d : List Byte) : wholeBlocks (x.toList ++ d) = x :: wholeBlocks d := by
  have h : (x.toList ++ d).length / 16 = d.length / 16 + 1 := by
    rw [List.length_append, Block.toList_length]; omega
  rw [wholeBlocks, h, List.range_succ_eq_map, List.map_cons, List.map_map, wholeBlocks]
  congr 1
  · rw [slice, Nat.mul_zero, List.drop_zero, List.take_append_of_le_length (by simp), List.take_of_length_le (by simp)]
    simp
  · apply List.map_congr_left
    intro j _
    simp only [Function.comp, slice]
    rw [Nat.succ_eq_add_one, Nat.mul_add, Nat.mul_one, Nat.add_comm, drop_block]

/-- A block at the front of a byte string leaves the bytes after the whole blocks as they are. -/
theorem tailBytes_block (x : Block) (d : List Byte) : tailBytes (x.toList ++ d) = tailBytes d := by
  have h : (x.toList ++ d).length / 16 = d.length / 16 + 1 := by
    rw [List.length_append, Block.toList_length]; omega
  rw [tailBytes, h, tailBytes, Nat.mul_add, Nat.mul_one, Nat.add_comm, drop_block]

/-- The pending bytes of a buffer after one more byte. -/
theorem take_set_succ (x : Block) {n : Nat} (b : Byte) (h : n < 16) :
    (x.set n b).toList.take (n + 1) = x.toList.take n ++ [b] := by
  apply List.ext_getElem
  · simp; omega
  · intro i h1 h2
    have hi : i < n + 1 := by simp at h1; omega
    rcases Nat.lt_or_ge i n with hl | hl
    · have h3 : n ≠ i := by omega
      have h4 : ¬ 16 ≤ i := by omega
      simp [List.getElem_append, hl, h3, h4]
    · obtain rfl : i = n := by omega
      simp

/-- A buffer with a zero tail is the block of its pending bytes. -/
theorem ofList_take_of_zeroTail {x : Block} {n : Nat} (h : ZeroTail x n) : Block.ofList (x.toList.take n) = x := by
  ext i hi : 1
  rcases Nat.lt_or_ge i n with hl | hl
  · simp [List.getD_eq_getElem?_getD, hl, hi]
  · have h2 := h ⟨i, hi⟩ hl
    simp only [Fin.getElem_fin] at h2
    simp [List.getD_eq_getElem?_getD, hl, h2]

/-- Appending a byte keeps the tail zero. -/
theorem zeroTail_set {x : Block} {n : Nat} (b : Byte) (hn : n < 16) (h : ZeroTail x n) : ZeroTail (x.set n b) (n + 1) := by
  intro i hi
  have h2 := h i (by omega)
  simp only [Fin.getElem_fin] at h2 ⊢
  rw [Vector.getElem_set_ne _ _ (by omega)]
  exact h2

theorem zeroTail_zero (n : Nat) : ZeroTail Block.zero n := by
  intro i _
  simp

/-! ## The end of a command -/

theorem respond_eq (aux : Byte) (req : Nat) (out : List Byte) (s : State) :
    respond aux req out s = .next (s.addResponse (okResponse aux req out)) := rfl

/-- Error entry always ends in a next state (R112). -/
theorem raise_eq (e : Eng) (err : Err) (s : State) :
    raise e err s = .next ((clearEng e s).addResponse (errResponse err)) := rfl

@[simp] theorem runCipher_ok (e : Eng) (a : α) (p : BcPort) (s : State) (k : α → State → Result) :
    runCipher e (.ok a p) s k = k a (s.setBc p) := rfl

@[simp] theorem runCipher_failed (e : Eng) (c : IoCode) (p : BcPort) (s : State) (k : α → State → Result) :
    runCipher e (.failed c p) s k = raise e (.ioError c) (s.setBc p) := rfl

@[simp] theorem clearEng_straps (e : Eng) (s : State) : (clearEng e s).straps = s.straps := by cases e <;> rfl
@[simp] theorem clearEng_pending (e : Eng) (s : State) : (clearEng e s).pending = s.pending := by cases e <;> rfl
@[simp] theorem clearEng_responses (e : Eng) (s : State) : (clearEng e s).responses = s.responses := by cases e <;> rfl
@[simp] theorem clearEng_bc (e : Eng) (s : State) : (clearEng e s).bc = s.bc := by cases e <;> rfl

@[simp] theorem clearCbc_idem (C : CbcCtx) : clearCbc (clearCbc C) = clearCbc C := rfl
@[simp] theorem clearCmac_idem (C : CmacCtx) : clearCmac (clearCmac C) = clearCmac C := rfl
@[simp] theorem clearCtr_idem (C : CtrCtx) : clearCtr (clearCtr C) = clearCtr C := rfl
@[simp] theorem clearMac_idem (C : MacCtx) : clearMac (clearMac C) = clearMac C := rfl
@[simp] theorem clearCcm_idem (C : CcmCtx) : clearCcm (clearCcm C) = clearCcm C := rfl

/-- Clearing twice is clearing once. -/
theorem clearEng_idem (e : Eng) (s : State) : clearEng e (clearEng e s) = clearEng e s := by cases e <;> rfl

end Sys2Proof.Machine
end

