-- ==== Sys2Proof/Laws/Port.lean ====
section
/-! SUPPORT. How every computation of the model uses the BlockCipher port. -/

namespace Sys2Proof.Machine

variable {α β σ : Type}

/-- None of the port's first `n` draws is a failure. -/
def NoFailure (p : BcPort) (n : Nat) : Prop := ∀ (j : Nat) (c : IoCode), j < n → p.draws[j]? ≠ some (.err c)

/-- A computation started at port `p` issues some requests, each meeting the next draw: it succeeds when none fails, and
the first failure is its last request and its outcome. -/
def Disciplined (p : BcPort) (r : BcResult α) : Prop :=
  ∃ rs : List Request,
    (∃ a, r = .ok a (afterRequests p rs) ∧ NoFailure p rs.length) ∨
      (∃ c, r = .failed c (afterRequests p rs) ∧ rs ≠ [] ∧ p.draws[rs.length - 1]? = some (.err c) ∧
        NoFailure p (rs.length - 1))

theorem disciplined_ok (p : BcPort) (a : α) : Disciplined p (.ok a p) :=
  ⟨[], .inl ⟨a, by simp, fun j c h => absurd h (by simp)⟩⟩

theorem disciplined_bcRequest (op : BcOp) (k : KeyRef) (x : Block) (p : BcPort) :
    Disciplined p (bcRequest op k x p) := by
  refine ⟨[⟨op, k, x⟩], ?_⟩
  rcases bcRequest_cases op k x p with ⟨c, h1, h2⟩ | ⟨h1, h2⟩
  · refine .inr ⟨c, h2, by simp, ?_, fun j c h => absurd h (by simp)⟩
    simpa [List.head?_eq_getElem?] using h1
  · refine .inl ⟨_, h2, fun j c h => ?_⟩
    obtain rfl : j = 0 := by simpa using h
    simpa [List.head?_eq_getElem?] using h1 c

theorem disciplined_andThen {r : BcResult α} {f : α → BcPort → BcResult β} {p : BcPort} (hr : Disciplined p r)
    (hf : ∀ a q, Disciplined q (f a q)) : Disciplined p (r.andThen f) := by
  obtain ⟨rs, ⟨a, rfl, hn⟩ | ⟨c, rfl, h⟩⟩ := hr
  · obtain ⟨qs, h⟩ := hf a (afterRequests p rs)
    have hdraw : ∀ j : Nat, (afterRequests p rs).draws[j]? = p.draws[rs.length + j]? := by
      intro j; simp
    have hsplit : ∀ m, NoFailure (afterRequests p rs) m → NoFailure p (rs.length + m) := by
      intro m hm j c hj
      by_cases hlt : j < rs.length
      · exact hn j c hlt
      · have := hm (j - rs.length) c (by omega)
        rwa [hdraw, Nat.add_sub_cancel' (by omega)] at this
    refine ⟨rs ++ qs, ?_⟩
    rcases h with ⟨b, h1, h2⟩ | ⟨c, h1, h2, h3, h4⟩
    · exact .inl ⟨b, by simp [h1], by rw [List.length_append]; exact hsplit _ h2⟩
    · have hpos : 0 < qs.length := List.length_pos_iff.mpr h2
      have hlen : (rs ++ qs).length - 1 = rs.length + (qs.length - 1) := by rw [List.length_append]; omega
      refine .inr ⟨c, by simp [h1], by simp [h2], ?_, ?_⟩
      · rw [hlen, ← hdraw]; exact h3
      · rw [hlen]; exact hsplit _ h4
  · exact ⟨rs, .inr ⟨c, rfl, h⟩⟩

theorem disciplined_feed {f : σ → Byte → BcPort → BcResult (List Byte × σ)} (hf : ∀ S b p, Disciplined p (f S b p))
    (S : σ) (bs : List Byte) (p : BcPort) : Disciplined p (feed f S bs p) := by
  induction bs generalizing S p with
  | nil => exact disciplined_ok p _
  | cons b bs ih =>
    exact disciplined_andThen (hf S b p) fun a q =>
      disciplined_andThen (ih a.2 q) fun a' q' => disciplined_ok q' _

theorem disciplined_cbcEncBlock (S : CbcCore) (x : Block) (p : BcPort) : Disciplined p (cbcEncBlock S x p) :=
  disciplined_andThen (disciplined_bcRequest _ _ _ _) fun _ _ => disciplined_ok _ _

theorem disciplined_cbcDecBlock (S : CbcCore) (x : Block) (p : BcPort) : Disciplined p (cbcDecBlock S x p) :=
  disciplined_andThen (disciplined_bcRequest _ _ _ _) fun _ _ => disciplined_ok _ _

theorem disciplined_cbcEncByte (S : CbcCore) (b : Byte) (p : BcPort) : Disciplined p (cbcEncByte S b p) := by
  unfold cbcEncByte
  split
  · exact disciplined_ok _ _
  · exact disciplined_andThen (disciplined_cbcEncBlock _ _ _) fun _ _ => disciplined_ok _ _

theorem disciplined_cbcDecByte (C : CbcCtx) (b : Byte) (p : BcPort) : Disciplined p (cbcDecByte C b p) := by
  unfold cbcDecByte
  split
  · exact disciplined_ok _ _
  · exact disciplined_andThen (disciplined_cbcDecBlock _ _ _) fun _ _ => disciplined_ok _ _

theorem disciplined_cmacByte (C : CmacCtx) (b : Byte) (p : BcPort) : Disciplined p (cmacByte C b p) := by
  unfold cmacByte
  split
  · exact disciplined_ok _ _
  · exact disciplined_andThen (disciplined_cbcEncBlock _ _ _) fun _ _ => disciplined_ok _ _

theorem disciplined_cmacTag (C : CmacCtx) (p : BcPort) : Disciplined p (cmacTag C p) :=
  disciplined_andThen (disciplined_bcRequest _ _ _ _) fun _ _ =>
    disciplined_andThen (disciplined_cbcEncBlock _ _ _) fun _ _ => disciplined_ok _ _

theorem disciplined_macByte (M : MacCore) (b : Byte) (p : BcPort) : Disciplined p (macByte M b p) := by
  unfold macByte
  split
  · exact disciplined_ok _ _
  · exact disciplined_andThen (disciplined_cbcEncBlock _ _ _) fun _ _ => disciplined_ok _ _

theorem disciplined_macFeed (M : MacCore) (d : List Byte) (p : BcPort) : Disciplined p (macFeed M d p) :=
  disciplined_andThen (disciplined_feed disciplined_macByte _ _ _) fun _ _ => disciplined_ok _ _

theorem disciplined_ccmFlush (M : MacCore) (p : BcPort) : Disciplined p (ccmFlush M p) := by
  unfold ccmFlush
  split
  · exact disciplined_macFeed _ _ _
  · exact disciplined_ok _ _

theorem disciplined_ccmKeystream (C : CcmCtx) (p : BcPort) : Disciplined p (ccmKeystream C p) := by
  unfold ccmKeystream
  split
  · exact disciplined_andThen (disciplined_bcRequest _ _ _ _) fun _ _ => disciplined_ok _ _
  · exact disciplined_ok _ _

theorem disciplined_ccmTextByte (dir : CcmDir) (C : CcmCtx) (b : Byte) (p : BcPort) :
    Disciplined p (ccmTextByte dir C b p) :=
  disciplined_andThen (disciplined_ccmKeystream _ _) fun _ _ =>
    disciplined_andThen (disciplined_macFeed _ _ _) fun _ _ => disciplined_ok _ _

theorem disciplined_ccmTag (C : CcmCtx) (p : BcPort) : Disciplined p (ccmTag C p) :=
  disciplined_andThen (disciplined_ccmFlush _ _) fun _ _ =>
    disciplined_andThen (disciplined_bcRequest _ _ _ _) fun _ _ => disciplined_ok _ _

end Sys2Proof.Machine
end

