-- ==== Sys2Proof/Laws/Exec.lean ====
section
/-! SUPPORT. Everything a command can do, said once: it raises an error before any request, it answers, or a request
fails. -/

namespace Sys2Proof.Machine

variable {α : Type}

/-! ## Same outside one engine -/

theorem sameOutside_rfl (e : Eng) (s : State) : sameOutside e s s := by simp [sameOutside]

theorem sameOutside_setBc {e : Eng} {s t : State} (h : sameOutside e s t) (p : BcPort) :
    sameOutside e s (t.setBc p) := h

theorem sameOutside_setCbc {s t : State} (h : sameOutside .cbc s t) (c : CbcCtx) : sameOutside .cbc s (t.setCbc c) :=
  ⟨.inl rfl, h.2⟩

theorem sameOutside_setCmac {s t : State} (h : sameOutside .cmac s t) (c : CmacCtx) :
    sameOutside .cmac s (t.setCmac c) := ⟨h.1, .inl rfl, h.2.2⟩

theorem sameOutside_setCtr {s t : State} (h : sameOutside .ctr s t) (c : CtrCtx) : sameOutside .ctr s (t.setCtr c) :=
  ⟨h.1, h.2.1, .inl rfl, h.2.2.2⟩

theorem sameOutside_setMac {s t : State} (h : sameOutside .mac s t) (c : MacCtx) : sameOutside .mac s (t.setMac c) :=
  ⟨h.1, h.2.1, h.2.2.1, .inl rfl, h.2.2.2.2⟩

theorem sameOutside_setCcm {s t : State} (h : sameOutside .ccm s t) (c : CcmCtx) : sameOutside .ccm s (t.setCcm c) :=
  ⟨h.1, h.2.1, h.2.2.1, h.2.2.2.1, .inl rfl, h.2.2.2.2.2⟩

theorem setCbc_same (s : State) (c : CbcCtx) : sameOutside .cbc s (s.setCbc c) :=
  sameOutside_setCbc (sameOutside_rfl _ _) c

theorem ranCbc (s : State) (p : BcPort) (c : CbcCtx) : sameOutside .cbc s ((s.setBc p).setCbc c) :=
  sameOutside_setCbc (sameOutside_setBc (sameOutside_rfl _ _) p) c

theorem setCmac_same (s : State) (c : CmacCtx) : sameOutside .cmac s (s.setCmac c) :=
  sameOutside_setCmac (sameOutside_rfl _ _) c

theorem ranCmac (s : State) (p : BcPort) (c : CmacCtx) : sameOutside .cmac s ((s.setBc p).setCmac c) :=
  sameOutside_setCmac (sameOutside_setBc (sameOutside_rfl _ _) p) c

theorem setCtr_same (s : State) (c : CtrCtx) : sameOutside .ctr s (s.setCtr c) :=
  sameOutside_setCtr (sameOutside_rfl _ _) c

theorem ranCtr (s : State) (p : BcPort) (c : CtrCtx) : sameOutside .ctr s ((s.setBc p).setCtr c) :=
  sameOutside_setCtr (sameOutside_setBc (sameOutside_rfl _ _) p) c

theorem setMac_same (s : State) (c : MacCtx) : sameOutside .mac s (s.setMac c) :=
  sameOutside_setMac (sameOutside_rfl _ _) c

theorem ranMac (s : State) (p : BcPort) (c : MacCtx) : sameOutside .mac s ((s.setBc p).setMac c) :=
  sameOutside_setMac (sameOutside_setBc (sameOutside_rfl _ _) p) c

theorem setCcm_same (s : State) (c : CcmCtx) : sameOutside .ccm s (s.setCcm c) :=
  sameOutside_setCcm (sameOutside_rfl _ _) c

theorem ranCcm (s : State) (p : BcPort) (c : CcmCtx) : sameOutside .ccm s ((s.setBc p).setCcm c) :=
  sameOutside_setCcm (sameOutside_setBc (sameOutside_rfl _ _) p) c

/-- Clearing a context changes nothing else. -/
theorem sameOutside_clearEng (e : Eng) (s : State) : sameOutside e s (clearEng e s) := by
  cases e <;> simp [sameOutside, clearEng]

/-! ## How a command ends -/

/-- The three ways a command of engine `e` ends when it is run in `s`. -/
def Ends (e : Eng) (s : State) (res : Result) : Prop :=
  (∃ err, (∀ c, err ≠ .ioError c) ∧ res = raise e err s) ∨
  (∃ (aux : Byte) (req : Nat) (out : List Byte) (s' : State) (rs : List Request),
    res = respond aux req out s' ∧ sameOutside e s s' ∧ s'.responses = s.responses ∧ s'.bc = afterRequests s.bc rs ∧
      NoFailure s.bc rs.length) ∨
  (∃ (c : IoCode) (s' : State) (rs : List Request),
    res = raise e (.ioError c) s' ∧ sameOutside e s s' ∧ s'.responses = s.responses ∧ s'.bc = afterRequests s.bc rs ∧
      rs ≠ [] ∧ s.bc.draws[rs.length - 1]? = some (.err c) ∧ NoFailure s.bc (rs.length - 1))

theorem ends_raise {e : Eng} {s : State} {err : Err} (h : ∀ c, err ≠ .ioError c) : Ends e s (raise e err s) :=
  .inl ⟨err, h, rfl⟩

theorem ends_respond {e : Eng} {s s' : State} {aux : Byte} {req : Nat} {out : List Byte} (h : sameOutside e s s')
    (hr : s'.responses = s.responses) (hb : s'.bc = s.bc) : Ends e s (respond aux req out s') :=
  .inr (.inl ⟨aux, req, out, s', [], rfl, h, hr, by simp [hb], fun j c hj => absurd hj (by simp)⟩)

/-- A computation that uses the port, run from a state that differs from `s` in engine `e`'s context only, and answered
by a response that changes nothing else either. -/
theorem ends_runCipher {e : Eng} {s s0 : State} {r : BcResult α} {k : α → State → Result} (hd : Disciplined s.bc r)
    (h0 : sameOutside e s s0) (hr0 : s0.responses = s.responses)
    (hk : ∀ a p, ∃ aux req out s', k a (s0.setBc p) = respond aux req out s' ∧ sameOutside e s s' ∧
      s'.responses = s.responses ∧ s'.bc = p) : Ends e s (runCipher e r s0 k) := by
  obtain ⟨rs, ⟨a, rfl, hn⟩ | ⟨c, rfl, h1, h2, h3⟩⟩ := hd
  · obtain ⟨aux, req, out, s', h4, h5, h6, h7⟩ := hk a (afterRequests s.bc rs)
    exact .inr (.inl ⟨aux, req, out, s', rs, by rw [runCipher_ok, h4], h5, h6, h7, hn⟩)
  · exact .inr (.inr ⟨c, _, rs, rfl, sameOutside_setBc h0 _, hr0, by simp, h1, h2, h3⟩)

/-- How every command ends, in every state. -/
theorem exec_ends (i : Instr) (s : State) : Ends (engOf i) s (exec i s) := by
  cases i with
  | p7Pad arg cap d =>
    simp only [exec, execP7Pad, engOf]
    repeat' split
    all_goals first | exact ends_raise (by simp) | exact ends_respond (sameOutside_rfl _ _) rfl rfl
  | p7Unpad arg cap d =>
    simp only [exec, execP7Unpad, engOf]
    repeat' split
    all_goals first | exact ends_raise (by simp) | exact ends_respond (sameOutside_rfl _ _) rfl rfl
  | cbcInit arg cap d =>
    simp only [exec, execCbcInit, engOf]
    repeat' split
    all_goals first | exact ends_raise (by simp) | exact ends_respond (setCbc_same _ _) rfl rfl
  | cbcEncUpdate arg cap d =>
    simp only [exec, execCbcEncUpdate, engOf]
    repeat' split
    all_goals first
      | exact ends_raise (by simp)
      | exact ends_runCipher (disciplined_feed disciplined_cbcEncByte _ _ _)
          (sameOutside_rfl _ _) rfl fun a p =>
            ⟨_, _, _, _, rfl, ranCbc _ _ _, rfl, rfl⟩
  | cbcEncFinish arg cap d =>
    simp only [exec, execCbcEncFinish, cbcEncLast, engOf]
    repeat' split
    all_goals first
      | exact ends_raise (by simp)
      | exact ends_respond (setCbc_same _ _) rfl rfl
      | exact ends_runCipher (disciplined_cbcEncBlock _ _ _)
          (sameOutside_rfl _ _) rfl fun a p =>
            ⟨_, _, _, _, rfl, ranCbc _ _ _, rfl, rfl⟩
  | cbcDecUpdate arg cap d =>
    simp only [exec, execCbcDecUpdate, engOf]
    repeat' split
    all_goals first
      | exact ends_raise (by simp)
      | exact ends_runCipher (disciplined_feed disciplined_cbcDecByte _ _ _)
          (sameOutside_rfl _ _) rfl fun a p =>
            ⟨_, _, _, _, rfl, ranCbc _ _ _, rfl, rfl⟩
  | cbcDecFinish arg cap d =>
    simp only [exec, execCbcDecFinish, engOf]
    repeat' split
    all_goals first
      | exact ends_raise (by simp)
      | exact ends_respond (setCbc_same _ _) rfl rfl
      | exact ends_runCipher (disciplined_cbcDecBlock _ _ _)
          (sameOutside_rfl _ _) rfl fun a p =>
            ⟨_, _, _, _, rfl, ranCbc _ _ _, rfl, rfl⟩
  | cmacInit arg cap d =>
    simp only [exec, execCmacInit, engOf]
    repeat' split
    all_goals first | exact ends_raise (by simp) | exact ends_respond (setCmac_same _ _) rfl rfl
  | cmacUpdate arg cap d =>
    simp only [exec, execCmacUpdate, engOf]
    repeat' split
    all_goals first
      | exact ends_raise (by simp)
      | exact ends_runCipher (disciplined_feed disciplined_cmacByte _ _ _)
          (sameOutside_rfl _ _) rfl fun a p =>
            ⟨_, _, _, _, rfl, ranCmac _ _ _, rfl, rfl⟩
  | cmacFinish arg cap d =>
    simp only [exec, execCmacFinish, engOf]
    repeat' split
    all_goals first
      | exact ends_raise (by simp)
      | exact ends_runCipher (disciplined_cmacTag _ _)
          (sameOutside_rfl _ _) rfl fun a p =>
            ⟨_, _, _, _, rfl, ranCmac _ _ _, rfl, rfl⟩
  | ctrInit arg cap d =>
    simp only [exec, execCtrInit, engOf]
    repeat' split
    all_goals first | exact ends_raise (by simp) | exact ends_respond (setCtr_same _ _) rfl rfl
  | ctrEncBlock arg cap d =>
    simp only [exec, execCtrEncBlock, ctrBlock, engOf]
    repeat' split
    all_goals first
      | exact ends_raise (by simp)
      | exact ends_runCipher (disciplined_bcRequest _ _ _ _)
          (sameOutside_rfl _ _) rfl fun a p =>
            ⟨_, _, _, _, rfl, ranCtr _ _ _, rfl, rfl⟩
  | ctrDecBlock arg cap d =>
    simp only [exec, execCtrDecBlock, ctrBlock, engOf]
    repeat' split
    all_goals first
      | exact ends_raise (by simp)
      | exact ends_runCipher (disciplined_bcRequest _ _ _ _)
          (sameOutside_rfl _ _) rfl fun a p =>
            ⟨_, _, _, _, rfl, ranCtr _ _ _, rfl, rfl⟩
  | macInit arg cap d =>
    simp only [exec, execMacInit, engOf]
    repeat' split
    all_goals first | exact ends_raise (by simp) | exact ends_respond (setMac_same _ _) rfl rfl
  | macUpdate arg cap d =>
    simp only [exec, execMacUpdate, engOf]
    repeat' split
    all_goals first
      | exact ends_raise (by simp)
      | exact ends_runCipher (disciplined_macFeed _ _ _)
          (sameOutside_rfl _ _) rfl fun a p =>
            ⟨_, _, _, _, rfl, ranMac _ _ _, rfl, rfl⟩
  | macFinish arg cap d =>
    simp only [exec, execMacFinish, engOf]
    repeat' split
    all_goals first | exact ends_raise (by simp) | exact ends_respond (setMac_same _ _) rfl rfl
  | ccmInit arg cap d =>
    simp only [exec, execCcmInit, engOf]
    repeat' split
    all_goals first
      | exact ends_raise (by simp)
      | exact ends_runCipher (disciplined_macFeed _ _ _)
          (setCcm_same _ _) rfl fun a p =>
            ⟨_, _, _, _, rfl, sameOutside_setCcm (sameOutside_setBc (setCcm_same _ _) _) _, rfl, rfl⟩
  | ccmAadUpdate arg cap d =>
    simp only [exec, execCcmAadUpdate, engOf]
    repeat' split
    all_goals first
      | exact ends_raise (by simp)
      | exact ends_runCipher (disciplined_andThen (disciplined_macFeed _ _ _) fun _ _ => disciplined_macFeed _ _ _)
          (sameOutside_rfl _ _) rfl fun a p =>
            ⟨_, _, _, _, rfl, ranCcm _ _ _, rfl, rfl⟩
  | ccmAadFinish arg cap d =>
    simp only [exec, execCcmAadFinish, engOf]
    repeat' split
    all_goals first
      | exact ends_raise (by simp)
      | exact ends_runCipher (disciplined_ccmFlush _ _)
          (sameOutside_rfl _ _) rfl fun a p =>
            ⟨_, _, _, _, rfl, ranCcm _ _ _, rfl, rfl⟩
  | ccmEncUpdate arg cap d =>
    simp only [exec, execCcmEncUpdate, ccmTextUpdate, engOf]
    repeat' split
    all_goals first
      | exact ends_raise (by simp)
      | exact ends_runCipher (disciplined_feed (disciplined_ccmTextByte _) _ _ _)
          (sameOutside_rfl _ _) rfl fun a p =>
            ⟨_, _, _, _, rfl, ranCcm _ _ _, rfl, rfl⟩
  | ccmEncFinish arg cap d =>
    simp only [exec, execCcmEncFinish, engOf]
    repeat' split
    all_goals first
      | exact ends_raise (by simp)
      | exact ends_runCipher (disciplined_ccmTag _ _)
          (sameOutside_rfl _ _) rfl fun a p =>
            ⟨_, _, _, _, rfl, ranCcm _ _ _, rfl, rfl⟩
  | ccmDecUpdate arg cap d =>
    simp only [exec, execCcmDecUpdate, ccmTextUpdate, engOf]
    repeat' split
    all_goals first
      | exact ends_raise (by simp)
      | exact ends_runCipher (disciplined_feed (disciplined_ccmTextByte _) _ _ _)
          (sameOutside_rfl _ _) rfl fun a p =>
            ⟨_, _, _, _, rfl, ranCcm _ _ _, rfl, rfl⟩
  | ccmDecFinish arg cap d =>
    simp only [exec, execCcmDecFinish, engOf]
    repeat' split
    all_goals first
      | exact ends_raise (by simp)
      | exact ends_runCipher (disciplined_ccmTag _ _)
          (sameOutside_rfl _ _) rfl fun a p =>
            ⟨_, _, _, _, rfl, ranCcm _ _ _, rfl, rfl⟩

end Sys2Proof.Machine
end

