-- ==== Sys2Proof/Laws/Feed.lean ====
section
/-! SUPPORT. What the data paths compute from a whole byte string, block by block, when no request fails. -/

namespace Sys2Proof.Machine

/-! ## Pending bytes and what follows them -/

theorem pendingThen_zero (x : Block) (d : List Byte) : pendingThen x 0 d = d := by simp [pendingThen]

/-- A byte moved from the input into the buffer. -/
theorem pendingThen_set (x : Block) {n : Nat} (b : Byte) (d : List Byte) (h : n < 16) :
    pendingThen (x.set n b) (n + 1) d = pendingThen x n (b :: d) := by
  rw [pendingThen, take_set_succ x b h, pendingThen, List.append_assoc, List.singleton_append]

/-- The byte that completes the buffer makes it the first block. -/
theorem pendingThen_full (x : Block) (b : Byte) (d : List Byte) :
    pendingThen x 15 (b :: d) = (x.set 15 b).toList ++ d := by
  rw [← pendingThen_set x b d (by omega), pendingThen, List.take_of_length_le (by simp)]

theorem pendingThen_length (x : Block) {n : Nat} (d : List Byte) (h : n ≤ 16) :
    (pendingThen x n d).length = n + d.length := by
  simp [pendingThen, h]

/-- With no input, the pending bytes are all there is. -/
theorem pendingThen_nil {x : Block} {n : Fin 16} (h : ZeroTail x n.val) :
    wholeBlocks (pendingThen x n.val []) = [] ∧ Block.ofList (tailBytes (pendingThen x n.val [])) = x ∧
      rem16 (pendingThen x n.val []).length = n := by
  have hl : (pendingThen x n.val []).length = n.val := by rw [pendingThen_length x [] (by omega)]; simp
  refine ⟨wholeBlocks_short (by omega), ?_, ?_⟩
  · rw [tailBytes_short (by omega), pendingThen, List.append_nil, ofList_take_of_zeroTail h]
  · apply Fin.ext
    simp only [rem16, hl]
    exact Nat.mod_eq_of_lt n.isLt

theorem rem16_block (x : Block) (d : List Byte) : rem16 (x.toList ++ d).length = rem16 d.length := by
  apply Fin.ext
  simp [rem16]

theorem blockBytes_cons (x : Block) (xs : List Block) : blockBytes (x :: xs) = x.toList ++ blockBytes xs := rfl

theorem lastChain_cons (c y : Block) (ys : List Block) : lastChain c (y :: ys) = lastChain y ys := by
  cases ys with
  | nil => rfl
  | cons z zs => simp [lastChain, List.getLast?_cons]

theorem encRequests_cons (k : KeyRef) (x : Block) (xs : List Block) :
    encRequests k (x :: xs) = [⟨.enc, k, x⟩] ++ encRequests k xs := rfl

theorem decRequests_cons (k : KeyRef) (x : Block) (xs : List Block) :
    decRequests k (x :: xs) = [⟨.dec, k, x⟩] ++ decRequests k xs := rfl

@[simp] theorem bcEnc_afterRequests (p : BcPort) (rs : List Request) : bcEnc (afterRequests p rs) = bcEnc p := rfl
@[simp] theorem bcDec_afterRequests (p : BcPort) (rs : List Request) : bcDec (afterRequests p rs) = bcDec p := rfl

/-! ## CBC encryption -/

/-- CBC.ENC_UPDATE's data path on a byte string (R60, R63). -/
theorem feed_cbcEncByte {S : CbcCore} {p : BcPort} (d : List Byte) (hz : ZeroTail S.pend S.plen.val) (hp : Honest p) :
    let all := pendingThen S.pend S.plen.val d
    let ys := cbcCipher (bcEnc p S.keyref) S.chain (wholeBlocks all)
    feed cbcEncByte S d p =
      .ok (blockBytes ys,
        { S with chain := lastChain S.chain ys, pend := Block.ofList (tailBytes all), plen := rem16 all.length })
        (afterRequests p (encRequests S.keyref (cbcInputs (bcEnc p S.keyref) S.chain (wholeBlocks all)))) := by
  induction d generalizing S p with
  | nil =>
    obtain ⟨h1, h2, h3⟩ := pendingThen_nil hz
    simp only [h1, h2, h3]
    simp [cbcCipher, cbcInputs, blockBytes, lastChain, encRequests]
  | cons b bs ih =>
    intro all ys
    rw [feed_cons, cbcEncByte]
    rcases bufferByte_cases S.pend S.plen b with ⟨h, hb⟩ | ⟨h, hb⟩
    · rw [hb]
      simp only [andThen_ok]
      rw [ih (S := { S with pend := _, plen := _ }) (zeroTail_set b (by omega) hz) hp]
      simp only [andThen_ok, pendingThen_set _ b bs S.plen.isLt, List.nil_append]
      rfl
    · rw [hb]
      simp only [cbcEncBlock_honest hp, andThen_ok]
      rw [ih (S := { S with chain := bcEnc p S.keyref (Block.xor (S.pend.set S.plen.val b) S.chain), pend := Block.zero, plen := 0 })
        (zeroTail_zero _) (hp.after _)]
      have hall : all = (S.pend.set S.plen.val b).toList ++ bs := by
        simp only [all, h, pendingThen_full]
      have hw : wholeBlocks all = S.pend.set S.plen.val b :: wholeBlocks bs := by rw [hall, wholeBlocks_block]
      simp only [andThen_ok, ys, hw, Fin.val_zero, pendingThen_zero, cbcCipher, cbcInputs, blockBytes_cons,
        lastChain_cons, encRequests_cons, bcEnc_afterRequests, afterRequests_append]
      rw [hall, tailBytes_block, rem16_block]

/-! ## CBC-MAC -/

/-- `mac_feed` on a byte string (R83). -/
theorem feed_macByte {M : MacCore} {p : BcPort} (d : List Byte) (hz : ZeroTail M.pend M.plen.val) (hp : Honest p) :
    let all := pendingThen M.pend M.plen.val d
    let xs := wholeBlocks all
    let E := bcEnc p M.cbc.keyref
    feed macByte M d p =
      .ok ([], { cbc := { M.cbc with chain := lastChain M.cbc.chain (cbcCipher E M.cbc.chain xs) },
                 pend := Block.ofList (tailBytes all), plen := rem16 all.length })
        (afterRequests p (encRequests M.cbc.keyref (cbcInputs E M.cbc.chain xs))) := by
  induction d generalizing M p with
  | nil =>
    obtain ⟨h1, h2, h3⟩ := pendingThen_nil hz
    simp only [h1, h2, h3]
    simp [cbcCipher, cbcInputs, lastChain, encRequests]
  | cons b bs ih =>
    intro all xs E
    rw [feed_cons, macByte]
    rcases bufferByte_cases M.pend M.plen b with ⟨h, hb⟩ | ⟨h, hb⟩
    · rw [hb]
      simp only [andThen_ok]
      rw [ih (M := { M with pend := _, plen := _ }) (zeroTail_set b (by omega) hz) hp]
      simp only [andThen_ok, pendingThen_set _ b bs M.plen.isLt, List.nil_append]
      rfl
    · rw [hb]
      simp only [cbcEncBlock_honest hp, andThen_ok]
      rw [ih (M := { cbc := { M.cbc with chain := bcEnc p M.cbc.keyref (Block.xor (M.pend.set M.plen.val b) M.cbc.chain) },
                      pend := Block.zero, plen := 0 }) (zeroTail_zero _) (hp.after _)]
      have hall : all = (M.pend.set M.plen.val b).toList ++ bs := by
        simp only [all, h, pendingThen_full]
      have hw : xs = M.pend.set M.plen.val b :: wholeBlocks bs := by simp only [xs, hall, wholeBlocks_block]
      simp only [andThen_ok, hw, Fin.val_zero, pendingThen_zero, cbcCipher, cbcInputs, lastChain_cons,
        encRequests_cons, bcEnc_afterRequests, afterRequests_append, List.nil_append]
      rw [hall, tailBytes_block, rem16_block]

/-- `mac_feed` as the commands call it (R83). -/
theorem macFeed_honest {M : MacCore} {p : BcPort} (d : List Byte) (hz : ZeroTail M.pend M.plen.val) (hp : Honest p) :
    let all := pendingThen M.pend M.plen.val d
    let xs := wholeBlocks all
    let E := bcEnc p M.cbc.keyref
    macFeed M d p =
      .ok { cbc := { M.cbc with chain := lastChain M.cbc.chain (cbcCipher E M.cbc.chain xs) },
            pend := Block.ofList (tailBytes all), plen := rem16 all.length }
        (afterRequests p (encRequests M.cbc.keyref (cbcInputs E M.cbc.chain xs))) := by
  simp only [macFeed, feed_macByte d hz hp, andThen_ok]

/-! ## CMAC -/

/-- CMAC.UPDATE's data path on a byte string (R73). -/
theorem feed_cmacByte {C : CmacCtx} {p : BcPort} (d : List Byte) (hz : ZeroTail C.pend C.plen.val) (hp : Honest p) :
    let all := pendingThen C.pend C.plen.val d
    let n := (all.length - 1) / 16
    let xs := wholeBlocks (all.take (16 * n))
    let E := bcEnc p C.cbc.keyref
    ∃ plen : Fin 17, plen.val = all.length - 16 * n ∧
      feed cmacByte C d p =
        .ok ([], { C with cbc := { C.cbc with chain := lastChain C.cbc.chain (cbcCipher E C.cbc.chain xs) },
                          pend := Block.ofList (all.drop (16 * n)), plen := plen })
          (afterRequests p (encRequests C.cbc.keyref (cbcInputs E C.cbc.chain xs))) := by
  induction d generalizing C p with
  | nil =>
    intro all n xs E
    have hl : all.length = C.plen.val := by simp only [all]; rw [pendingThen_length _ _ (by omega)]; simp
    have hn : n = 0 := by simp only [n]; omega
    refine ⟨C.plen, by rw [hl, hn]; rfl, ?_⟩
    have hx : xs = [] := by simp only [xs, hn, Nat.mul_zero, List.take_zero, wholeBlocks_nil]
    have hd : Block.ofList (all.drop (16 * n)) = C.pend := by
      rw [hn, Nat.mul_zero, List.drop_zero]
      simp only [all, pendingThen, List.append_nil]
      exact ofList_take_of_zeroTail hz
    rw [hx, hd]
    simp [cbcCipher, cbcInputs, lastChain, encRequests]
  | cons b bs ih =>
    intro all n xs E
    rw [feed_cons, cmacByte]
    by_cases h : C.plen.val < 16
    · rw [dif_pos h]
      simp only [andThen_ok]
      obtain ⟨plen, h1, h2⟩ := ih (C := { C with pend := C.pend.set C.plen.val b, plen := ⟨C.plen.val + 1, by omega⟩ })
        (zeroTail_set b h hz) hp
      simp only [pendingThen_set _ b bs h] at h1 h2
      refine ⟨plen, h1, ?_⟩
      rw [h2]
      simp only [andThen_ok, List.nil_append]
      rfl
    · rw [dif_neg h]
      have h16 : C.plen.val = 16 := by omega
      simp only [cbcEncBlock_honest hp, andThen_ok]
      obtain ⟨plen, h1, h2⟩ := ih (C := { C with cbc := { C.cbc with chain := bcEnc p C.cbc.keyref (C.pend.xor C.cbc.chain) },
                                                 pend := Block.zero.set 0 b, plen := 1 })
        (zeroTail_set b (by omega) (zeroTail_zero 0)) (hp.after [⟨.enc, C.cbc.keyref, C.pend.xor C.cbc.chain⟩])
      have hrest : pendingThen (Block.zero.set 0 b) 1 bs = b :: bs := by
        rw [← Nat.zero_add 1, pendingThen_set _ b bs (by omega), pendingThen_zero]
      have hall : all = C.pend.toList ++ (b :: bs) := by
        simp only [all, pendingThen, h16]
        rw [List.take_of_length_le (by simp)]
      have hn : n = (bs.length) / 16 + 1 := by
        simp only [n, hall, List.length_append, Block.toList_length, List.length_cons]; omega
      have hval : (1 : Fin 17).val = 1 := rfl
      simp only [hval, hrest, List.length_cons, Nat.add_sub_cancel] at h1 h2
      have htake : all.take (16 * n) = C.pend.toList ++ (b :: bs).take (16 * (bs.length / 16)) := by
        rw [hall, hn, Nat.mul_add, Nat.mul_one, Nat.add_comm, List.take_append, Block.toList_length,
          Nat.add_sub_cancel_left, List.take_of_length_le (by simp)]
      have hdrop : all.drop (16 * n) = (b :: bs).drop (16 * (bs.length / 16)) := by
        rw [hall, hn, Nat.mul_add, Nat.mul_one, Nat.add_comm, drop_block]
      have hw : xs = C.pend :: wholeBlocks ((b :: bs).take (16 * (bs.length / 16))) := by
        simp only [xs, htake, wholeBlocks_block]
      refine ⟨plen, ?_, ?_⟩
      · rw [h1, hn, hall, List.length_append, Block.toList_length, List.length_cons]; omega
      · rw [h2, hw, hdrop]
        simp only [andThen_ok, cbcCipher, cbcInputs, lastChain_cons, encRequests_cons, bcEnc_afterRequests,
          afterRequests_append, List.nil_append]
        rfl

/-! ## CBC decryption -/

/-- CBC.DEC_UPDATE's data path on a byte string (R61, R65). -/
theorem feed_cbcDecByte {C : CbcCtx} {p : BcPort} (d : List Byte) (hz : ZeroTail C.core.pend C.core.plen.val)
    (hh : C.heldv = false → C.held = Block.zero) (hp : Honest p) :
    let all := pendingThen C.core.pend C.core.plen.val d
    let ys := wholeBlocks all
    let xs := cbcPlain (bcDec p C.core.keyref) C.core.chain ys
    let queue := (if C.heldv then [C.held] else []) ++ xs
    feed cbcDecByte C d p =
      .ok (blockBytes (if C.core.pad then queue.dropLast else xs),
        { C with
          core := { C.core with chain := lastChain C.core.chain ys, pend := Block.ofList (tailBytes all),
                                plen := rem16 all.length },
          held := if C.core.pad then queue.getLastD Block.zero else C.held,
          heldv := if C.core.pad then decide (queue ≠ []) else C.heldv })
        (afterRequests p (decRequests C.core.keyref ys)) := by
  induction d generalizing C p with
  | nil =>
    obtain ⟨h1, h2, h3⟩ := pendingThen_nil hz
    simp only [h1, h2, h3]
    rcases C with ⟨⟨k, c, x, n, pad⟩, held, heldv, phase⟩
    cases pad <;> cases heldv <;> simp_all [cbcPlain, blockBytes, lastChain, decRequests]
  | cons b bs ih =>
    intro all ys xs queue
    rw [feed_cons, cbcDecByte]
    rcases bufferByte_cases C.core.pend C.core.plen b with ⟨h, hb⟩ | ⟨h, hb⟩
    · rw [hb]
      simp only [andThen_ok]
      rw [ih (C := { C with core := { C.core with pend := C.core.pend.set C.core.plen.val b,
                                                  plen := ⟨C.core.plen.val + 1, h⟩ } })
        (zeroTail_set b (by omega) hz) hh hp]
      simp only [andThen_ok, pendingThen_set _ b bs C.core.plen.isLt, List.nil_append]
      rfl
    · rw [hb]
      have hall : all = (C.core.pend.set C.core.plen.val b).toList ++ bs := by
        simp only [all, h, pendingThen_full]
      have hw : ys = C.core.pend.set C.core.plen.val b :: wholeBlocks bs := by simp only [ys, hall, wholeBlocks_block]
      have hxs : xs = (bcDec p C.core.keyref (C.core.pend.set C.core.plen.val b)).xor C.core.chain ::
          cbcPlain (bcDec p C.core.keyref) (C.core.pend.set C.core.plen.val b) (wholeBlocks bs) := by
        simp only [xs, hw, cbcPlain]
      simp only [cbcDecBlock_honest hp, andThen_ok, cbcRelease]
      cases hpad : C.core.pad
      · simp only [Bool.false_eq_true, if_false]
        rw [ih (C := { C with core := { C.core with chain := C.core.pend.set C.core.plen.val b, pend := Block.zero,
                                                    plen := 0, pad := false } }) (zeroTail_zero _) hh (hp.after _)]
        simp only [andThen_ok, Bool.false_eq_true, if_false, hw, Fin.val_zero, pendingThen_zero, blockBytes_cons,
          lastChain_cons, decRequests_cons, bcDec_afterRequests, afterRequests_append, hxs]
        rw [hall, tailBytes_block, rem16_block]
      · simp only [if_true]
        rw [ih (C := { C with core := { C.core with chain := C.core.pend.set C.core.plen.val b, pend := Block.zero,
                                                    plen := 0, pad := true },
                              held := (bcDec p C.core.keyref (C.core.pend.set C.core.plen.val b)).xor C.core.chain,
                              heldv := true }) (zeroTail_zero _) (by simp) (hp.after _)]
        simp only [andThen_ok, if_true, hw, Fin.val_zero, pendingThen_zero, lastChain_cons, decRequests_cons,
          bcDec_afterRequests, afterRequests_append, queue, hxs]
        rw [hall, tailBytes_block, rem16_block]
        cases C.heldv <;> simp [blockBytes, List.getLast?_cons]

end Sys2Proof.Machine
end

