-- ==== Sys2Proof/Laws/PerInstr.lean ====
section
/-! SUPPORT. Statements for all commands, made per command. -/

namespace Sys2Proof.Laws.OpcodeNames

theorem listed (b : Byte) (h : (decide (b.toNat / 16 ≤ 5) && decide (b.toNat % 16 ≤ 6)) = true) :
    b.toNat / 16 ≤ 5 ∧ b.toNat % 16 ≤ 6 := by simpa using h

/-- The opcode of a command, with its operand fields, names that command in the opcode map of spec/30_encoding.md R50,
and its engine nibble and function nibble are those of a listed opcode (R42). -/
def Statement (i : Instr) : Prop :=
  commandOf i.opcode i.arg i.outcap i.payload = some i ∧ i.opcode.toNat / 16 ≤ 5 ∧ i.opcode.toNat % 16 ≤ 6

theorem p7Pad (arg : Byte) (outcap : Half) (payload : List Byte) : Statement (.p7Pad arg outcap payload) :=
  ⟨rfl, listed 0x00 rfl⟩

theorem p7Unpad (arg : Byte) (outcap : Half) (payload : List Byte) : Statement (.p7Unpad arg outcap payload) :=
  ⟨rfl, listed 0x01 rfl⟩

theorem cbcInit (arg : Byte) (outcap : Half) (payload : List Byte) : Statement (.cbcInit arg outcap payload) :=
  ⟨rfl, listed 0x10 rfl⟩

theorem cbcEncUpdate (arg : Byte) (outcap : Half) (payload : List Byte) : Statement (.cbcEncUpdate arg outcap payload) :=
  ⟨rfl, listed 0x11 rfl⟩

theorem cbcEncFinish (arg : Byte) (outcap : Half) (payload : List Byte) : Statement (.cbcEncFinish arg outcap payload) :=
  ⟨rfl, listed 0x12 rfl⟩

theorem cbcDecUpdate (arg : Byte) (outcap : Half) (payload : List Byte) : Statement (.cbcDecUpdate arg outcap payload) :=
  ⟨rfl, listed 0x13 rfl⟩

theorem cbcDecFinish (arg : Byte) (outcap : Half) (payload : List Byte) : Statement (.cbcDecFinish arg outcap payload) :=
  ⟨rfl, listed 0x14 rfl⟩

theorem cmacInit (arg : Byte) (outcap : Half) (payload : List Byte) : Statement (.cmacInit arg outcap payload) :=
  ⟨rfl, listed 0x20 rfl⟩

theorem cmacUpdate (arg : Byte) (outcap : Half) (payload : List Byte) : Statement (.cmacUpdate arg outcap payload) :=
  ⟨rfl, listed 0x21 rfl⟩

theorem cmacFinish (arg : Byte) (outcap : Half) (payload : List Byte) : Statement (.cmacFinish arg outcap payload) :=
  ⟨rfl, listed 0x22 rfl⟩

theorem ctrInit (arg : Byte) (outcap : Half) (payload : List Byte) : Statement (.ctrInit arg outcap payload) :=
  ⟨rfl, listed 0x30 rfl⟩

theorem ctrEncBlock (arg : Byte) (outcap : Half) (payload : List Byte) : Statement (.ctrEncBlock arg outcap payload) :=
  ⟨rfl, listed 0x31 rfl⟩

theorem ctrDecBlock (arg : Byte) (outcap : Half) (payload : List Byte) : Statement (.ctrDecBlock arg outcap payload) :=
  ⟨rfl, listed 0x32 rfl⟩

theorem macInit (arg : Byte) (outcap : Half) (payload : List Byte) : Statement (.macInit arg outcap payload) :=
  ⟨rfl, listed 0x40 rfl⟩

theorem macUpdate (arg : Byte) (outcap : Half) (payload : List Byte) : Statement (.macUpdate arg outcap payload) :=
  ⟨rfl, listed 0x41 rfl⟩

theorem macFinish (arg : Byte) (outcap : Half) (payload : List Byte) : Statement (.macFinish arg outcap payload) :=
  ⟨rfl, listed 0x42 rfl⟩

theorem ccmInit (arg : Byte) (outcap : Half) (payload : List Byte) : Statement (.ccmInit arg outcap payload) :=
  ⟨rfl, listed 0x50 rfl⟩

theorem ccmAadUpdate (arg : Byte) (outcap : Half) (payload : List Byte) : Statement (.ccmAadUpdate arg outcap payload) :=
  ⟨rfl, listed 0x51 rfl⟩

theorem ccmAadFinish (arg : Byte) (outcap : Half) (payload : List Byte) : Statement (.ccmAadFinish arg outcap payload) :=
  ⟨rfl, listed 0x52 rfl⟩

theorem ccmEncUpdate (arg : Byte) (outcap : Half) (payload : List Byte) : Statement (.ccmEncUpdate arg outcap payload) :=
  ⟨rfl, listed 0x53 rfl⟩

theorem ccmEncFinish (arg : Byte) (outcap : Half) (payload : List Byte) : Statement (.ccmEncFinish arg outcap payload) :=
  ⟨rfl, listed 0x54 rfl⟩

theorem ccmDecUpdate (arg : Byte) (outcap : Half) (payload : List Byte) : Statement (.ccmDecUpdate arg outcap payload) :=
  ⟨rfl, listed 0x55 rfl⟩

theorem ccmDecFinish (arg : Byte) (outcap : Half) (payload : List Byte) : Statement (.ccmDecFinish arg outcap payload) :=
  ⟨rfl, listed 0x56 rfl⟩

end Sys2Proof.Laws.OpcodeNames
end

