-- ==== Sys2Proof/Laws/Pkcs7.lean ====
section
/-! SUPPORT. What `pad7` and `unpad7` do. -/

namespace Sys2Proof.Machine

theorem pad7_length (d : List Byte) : (pad7 d).length = 16 * (d.length / 16 + 1) := by
  simp only [pad7, List.length_append, rep_length]
  omega

/-- `unpad7` strips `p` copies of the byte `p` (R56). -/
theorem unpad7_padded (b : List Byte) (p : Nat) (h1 : 1 ≤ p) (h2 : p ≤ 16) (h : (b.length + p) % 16 = 0) :
    unpad7 (b ++ List.replicate p (BitVec.ofNat 8 p)) = some b := by
  have hl : (b ++ List.replicate p (BitVec.ofNat 8 p)).length = b.length + p := by simp
  have hlast : (b ++ List.replicate p (BitVec.ofNat 8 p)).getD (b.length + p - 1) 0 = BitVec.ofNat 8 p := by
    rw [List.getD_eq_getElem?_getD, List.getElem?_append_right (by omega), List.getElem?_replicate, if_pos (by omega)]; rfl
  have hp : (BitVec.ofNat 8 p).toNat = p := by simp; omega
  simp only [unpad7, hl, hlast, hp]
  rw [if_neg (by omega), if_neg (by omega)]
  have : b.length + p - p = b.length := by omega
  simp [this]

/-- Everything `unpad7` strips is such a tail (R56). -/
theorem unpad7_eq_some {d b : List Byte} (h : unpad7 d = some b) :
    ∃ p, 1 ≤ p ∧ p ≤ 16 ∧ d = b ++ List.replicate p (BitVec.ofNat 8 p) := by
  simp only [unpad7] at h
  split at h; · cases h
  split at h; · cases h
  split at h; · cases h
  rename_i h1 h2 h3
  cases h
  refine ⟨(d.getD (d.length - 1) 0).toNat, by omega, by omega, ?_⟩
  conv => lhs; rw [← List.take_append_drop (d.length - (d.getD (d.length - 1) 0).toNat) d]
  congr 1
  rw [List.eq_replicate_iff]
  constructor
  · simp only [List.length_drop]
    have : (d.getD (d.length - 1) 0).toNat ≤ 16 := by omega
    omega
  · intro x hx
    simp at h3 ⊢
    exact h3 x (by simpa using hx)

/-- `unpad7(pad7(B)) = B` (R56). -/
theorem unpad7_pad7 (d : List Byte) : unpad7 (pad7 d) = some d := by
  simp only [pad7, rep]
  apply unpad7_padded <;> omega

end Sys2Proof.Machine
end

