-- ==== Sys2Proof/Laws/Text.lean ====
section
/-! SUPPORT. What CCM's text data path computes from a whole byte string when no request fails. -/

namespace Sys2Proof.Machine

/-- The first list's head comes first, then the two lists change places. -/
theorem inTurn_cons {α : Type} (a : α) (as bs : List α) : inTurn (a :: as) bs = a :: inTurn bs as := by
  induction bs generalizing a as with
  | nil => cases as <;> rfl
  | cons b bs ih =>
    cases as with
    | nil => rfl
    | cons a' as => rw [inTurn, ih, inTurn]

theorem inTurn_nil_left {α : Type} (bs : List α) : inTurn [] bs = bs := by cases bs <;> rfl

theorem incTimes_succ (w n : Nat) (x : Block) : incTimes w (n + 1) x = incTimes w n (inc x w) := rfl

/-- The plaintext of a text update: its input when encrypting, its output when decrypting (R97). -/
def plainOf (dir : CcmDir) (input output : List Byte) : List Byte :=
  match dir with
  | .enc => input
  | .dec => output

/-- What a text update leaves of the CCM context, but for its phase (R97). -/
def textContext (C : CcmCtx) (p : BcPort) (plain : List Byte) : CcmCtx :=
  let M := C.mac
  let all := pendingThen M.pend M.plen.val plain
  let counters := nextCounters C plain.length
  { C with
    mac := { cbc := { M.cbc with
                      chain := lastChain M.cbc.chain (cbcCipher (bcEnc p M.cbc.keyref) M.cbc.chain (wholeBlocks all)) },
             pend := Block.ofList (tailBytes all), plen := rem16 all.length },
    ctr := { C.ctr with cb := incTimes C.ctr.w.toNat counters.length C.ctr.cb },
    textcons := C.textcons + BitVec.ofNat 64 plain.length,
    ks := (counters.map (bcEnc p C.ctr.keyref)).getLastD C.ks }

/-- The requests of a text update, in order (R97). -/
def textRequests (C : CcmCtx) (p : BcPort) (plain : List Byte) : List Request :=
  let M := C.mac
  let all := pendingThen M.pend M.plen.val plain
  let keystream := encRequests C.ctr.keyref (nextCounters C plain.length)
  let mac := encRequests M.cbc.keyref (cbcInputs (bcEnc p M.cbc.keyref) M.cbc.chain (wholeBlocks all))
  if C.textcons.toNat % 16 = 0 then inTurn keystream mac else inTurn mac keystream

theorem nextCounters_zero (C : CcmCtx) : nextCounters C 0 = [] := by
  simp [nextCounters, newKeystreams]

/-- At a block's first byte the stored counter block is the first one used. -/
theorem nextCounters_first {C C' : CcmCtx} {n : Nat} (h : C.textcons.toNat % 16 = 0)
    (hw : C'.ctr.w = C.ctr.w) (hcb : C'.ctr.cb = inc C.ctr.cb C.ctr.w.toNat) (ht : C'.textcons.toNat % 16 = 1) :
    nextCounters C (n + 1) = C.ctr.cb :: nextCounters C' n := by
  have h1 : newKeystreams C (n + 1) = newKeystreams C' n + 1 := by
    simp only [newKeystreams, h, ht]; omega
  rw [nextCounters, h1, List.range_succ_eq_map, List.map_cons, List.map_map, nextCounters, hw, hcb]
  rfl

/-- At any other byte no counter block is used. -/
theorem nextCounters_later {C C' : CcmCtx} {n : Nat} (h : C.textcons.toNat % 16 ≠ 0) (hc : C'.ctr = C.ctr)
    (ht : C'.textcons.toNat % 16 = (C.textcons.toNat % 16 + 1) % 16) : nextCounters C (n + 1) = nextCounters C' n := by
  have h1 : newKeystreams C (n + 1) = newKeystreams C' n := by
    simp only [newKeystreams, ht]; omega
  rw [nextCounters, h1, nextCounters, hc]

theorem cons_drop_block (x : Block) {r : Nat} (h : r < 16) : x.toList.drop r = x[r] :: x.toList.drop (r + 1) := by
  rw [List.drop_eq_getElem_cons (by simpa using h)]
  simp

theorem xorBytes_cons (a b : Byte) (x y : List Byte) : xorBytes (a :: x) (b :: y) = (a ^^^ b) :: xorBytes x y := rfl

/-- One byte of `mac_feed` that leaves its block incomplete. -/
theorem macFeed_part {M : MacCore} {b : Byte} {p : BcPort} (h : M.plen.val + 1 < 16) :
    macFeed M [b] p = .ok { M with pend := M.pend.set M.plen.val b, plen := ⟨M.plen.val + 1, h⟩ } p := by
  simp [macFeed, feed_cons, macByte, bufferByte_part h]

/-- One byte of `mac_feed` that completes its block. -/
theorem macFeed_full {M : MacCore} {b : Byte} {p : BcPort} (h : M.plen.val = 15) (hp : Honest p) :
    macFeed M [b] p =
      .ok { cbc := { M.cbc with chain := bcEnc p M.cbc.keyref (Block.xor (M.pend.set M.plen.val b) M.cbc.chain) },
            pend := Block.zero, plen := 0 }
        (afterRequests p [⟨.enc, M.cbc.keyref, Block.xor (M.pend.set M.plen.val b) M.cbc.chain⟩]) := by
  simp [macFeed, feed_cons, macByte, bufferByte_full h, cbcEncBlock_honest hp]

/-- The plaintext byte of one text byte. -/
def plainByte (dir : CcmDir) (input output : Byte) : Byte :=
  match dir with
  | .enc => input
  | .dec => output

/-- The first byte of a text block: a keystream block is fetched, the counter steps. -/
theorem ccmTextByte_first {dir : CcmDir} {C : CcmCtx} {b : Byte} {p : BcPort} (hr : C.textcons.toNat % 16 = 0)
    (hm : C.mac.plen.val = 0) (hp : Honest p) :
    let ks := bcEnc p C.ctr.keyref C.ctr.cb
    ccmTextByte dir C b p =
      .ok ([b ^^^ ks[0]],
        { C with mac := { C.mac with pend := C.mac.pend.set 0 (plainByte dir b (b ^^^ ks[0])), plen := 1 },
                 ctr := { C.ctr with cb := inc C.ctr.cb C.ctr.w.toNat }, ks := ks, textcons := C.textcons + 1 })
        (afterRequests p [⟨.enc, C.ctr.keyref, C.ctr.cb⟩]) := by
  intro ks
  rcases C with ⟨⟨S, pend, plen⟩, ctr, iv, tag, aad, text, ac, tc, ks0, ph⟩
  obtain rfl : plen = 0 := Fin.ext hm
  simp only at hr
  simp only [ccmTextByte, ccmKeystream, hr, if_true, bcRequest_honest hp, andThen_ok]
  rw [macFeed_part (by simp)]
  cases dir <;> rfl

/-- A byte inside a text block, but for its last one. -/
theorem ccmTextByte_inside {dir : CcmDir} {C : CcmCtx} {b : Byte} {p : BcPort} (hr : C.textcons.toNat % 16 ≠ 0)
    (hl : C.mac.plen.val + 1 < 16) (hm : C.mac.plen.val = C.textcons.toNat % 16) :
    ccmTextByte dir C b p =
      .ok ([b ^^^ C.ks[C.mac.plen.val]],
        { C with mac := { C.mac with pend := C.mac.pend.set C.mac.plen.val (plainByte dir b (b ^^^ C.ks[C.mac.plen.val])),
                                     plen := ⟨C.mac.plen.val + 1, hl⟩ },
                 textcons := C.textcons + 1 }) p := by
  have hr' : C.mac.plen.val ≠ 0 := by omega
  simp only [ccmTextByte, ccmKeystream, ← hm, hr', if_false, andThen_ok]
  rw [macFeed_part hl]
  cases dir <;> rfl

/-- The last byte of a text block. -/
theorem ccmTextByte_last {dir : CcmDir} {C : CcmCtx} {b : Byte} {p : BcPort} (hl : C.mac.plen.val = 15)
    (hm : C.mac.plen.val = C.textcons.toNat % 16) (hp : Honest p) :
    let x := C.mac.pend.set C.mac.plen.val (plainByte dir b (b ^^^ C.ks[C.mac.plen.val]))
    ccmTextByte dir C b p =
      .ok ([b ^^^ C.ks[C.mac.plen.val]],
        { C with mac := { cbc := { C.mac.cbc with chain := bcEnc p C.mac.cbc.keyref (Block.xor x C.mac.cbc.chain) },
                          pend := Block.zero, plen := 0 },
                 textcons := C.textcons + 1 })
        (afterRequests p [⟨.enc, C.mac.cbc.keyref, Block.xor x C.mac.cbc.chain⟩]) := by
  intro x
  have hr : C.mac.plen.val ≠ 0 := by omega
  simp only [ccmTextByte, ccmKeystream, ← hm, hr, if_false, andThen_ok]
  rw [macFeed_full hl hp]
  cases dir <;> rfl

theorem plainOf_cons (dir : CcmDir) (b o : Byte) (bs os : List Byte) :
    plainOf dir (b :: bs) (o :: os) = plainByte dir b o :: plainOf dir bs os := by cases dir <;> rfl

theorem xorBytes_length (x y : List Byte) : (xorBytes x y).length = min x.length y.length := by simp [xorBytes]

theorem textcons_succ {c : BitVec 64} (h : c.toNat + 1 < 2 ^ 64) : (c + 1).toNat = c.toNat + 1 := by
  rw [BitVec.toNat_add, Nat.mod_eq_of_lt (by simpa using h)]
  rfl

theorem textcons_add (c : BitVec 64) (n : Nat) : c + 1 + BitVec.ofNat 64 n = c + BitVec.ofNat 64 (n + 1) := by
  apply BitVec.eq_of_toNat_eq
  simp
  omega

theorem blockBytes_length (xs : List Block) : (blockBytes xs).length = 16 * xs.length := by
  induction xs with
  | nil => rfl
  | cons x xs ih => rw [blockBytes_cons, List.length_append, Block.toList_length, ih, List.length_cons]; omega

/-- There is a keystream byte for every text byte. -/
theorem nextKeystream_length (E : Block → Block) (C : CcmCtx) (n : Nat) : n ≤ (nextKeystream E C n).length := by
  have hc : (nextCounters C n).length = newKeystreams C n := by simp [nextCounters]
  rw [nextKeystream, List.length_append, blockBytes_length, List.length_map, hc]
  by_cases h : C.textcons.toNat % 16 = 0
  · simp only [newKeystreams, h]; omega
  · simp only [if_neg h, List.length_drop, Block.toList_length, newKeystreams]; omega

theorem plainOf_length {dir : CcmDir} {d o : List Byte} (h : o.length = d.length) : (plainOf dir d o).length = d.length := by
  cases dir <;> simp [plainOf, h]

theorem nextKeystream_first {E : Block → Block} {C C' : CcmCtx} {n : Nat} (hr : C.textcons.toNat % 16 = 0)
    (hw : C'.ctr.w = C.ctr.w) (hcb : C'.ctr.cb = inc C.ctr.cb C.ctr.w.toNat) (hk : C'.ks = E C.ctr.cb)
    (ht : C'.textcons.toNat % 16 = 1) :
    nextKeystream E C (n + 1) = (E C.ctr.cb)[0] :: nextKeystream E C' n := by
  rw [nextKeystream, nextKeystream, nextCounters_first hr hw hcb ht, if_pos hr, if_neg (by omega), List.map_cons,
    blockBytes_cons, ht, hk, List.nil_append, ← List.cons_append, ← cons_drop_block (E C.ctr.cb) (by omega),
    List.drop_zero]

theorem nextKeystream_later {E : Block → Block} {C C' : CcmCtx} {n : Nat} (hr : C.textcons.toNat % 16 ≠ 0)
    (hc : C'.ctr = C.ctr) (hk : C'.ks = C.ks) (ht : C'.textcons.toNat % 16 = (C.textcons.toNat % 16 + 1) % 16) :
    nextKeystream E C (n + 1) =
      C.ks[C.textcons.toNat % 16]'(Nat.mod_lt _ (by omega)) :: nextKeystream E C' n := by
  have hlt : C.textcons.toNat % 16 < 16 := Nat.mod_lt _ (by omega)
  rw [nextKeystream, nextKeystream, nextCounters_later hr hc ht, if_neg hr, cons_drop_block C.ks hlt, List.cons_append]
  congr 2
  by_cases h : C.textcons.toNat % 16 = 15
  · rw [if_pos (by omega), List.drop_of_length_le (by simp; omega)]
  · rw [if_neg (by omega), ht, hk, Nat.mod_eq_of_lt (a := C.textcons.toNat % 16 + 1) (by omega)]

theorem text_first {C C' : CcmCtx} {p : BcPort} {x : Byte} {xs : List Byte} (hr : C.textcons.toNat % 16 = 0)
    (hm : C.mac.plen.val = 0) (_ : C.textcons.toNat + xs.length + 1 < 2 ^ 64)
    (hC : C' = { C with mac := { C.mac with pend := C.mac.pend.set 0 x, plen := 1 },
                        ctr := { C.ctr with cb := inc C.ctr.cb C.ctr.w.toNat }, ks := bcEnc p C.ctr.keyref C.ctr.cb,
                        textcons := C.textcons + 1 }) :
    textContext C' (afterRequests p [⟨.enc, C.ctr.keyref, C.ctr.cb⟩]) xs = textContext C p (x :: xs) ∧
      [⟨.enc, C.ctr.keyref, C.ctr.cb⟩] ++ textRequests C' (afterRequests p [⟨.enc, C.ctr.keyref, C.ctr.cb⟩]) xs =
        textRequests C p (x :: xs) := by
  have ht : C'.textcons.toNat = C.textcons.toNat + 1 := by rw [hC]; exact textcons_succ (by omega)
  have hnc := nextCounters_first (C := C) (C' := C') (n := xs.length) hr (by rw [hC]) (by rw [hC]) (by omega)
  have hmac : C'.mac = { C.mac with pend := C.mac.pend.set 0 x, plen := 1 } := by rw [hC]
  have hpend : pendingThen C'.mac.pend C'.mac.plen.val xs = pendingThen C.mac.pend C.mac.plen.val (x :: xs) := by
    rw [hmac, hm]; exact pendingThen_set _ x xs (by omega)
  constructor
  · simp only [textContext, hpend, List.length_cons, hnc, bcEnc_afterRequests]
    rw [hC]
    simp only [incTimes_succ, textcons_add, List.map_cons]
    congr 1
    cases (nextCounters C' xs.length).map (bcEnc p C.ctr.keyref) <;> simp [List.getLast?_cons]
  · simp only [textRequests, hpend, List.length_cons, hnc, bcEnc_afterRequests]
    rw [if_pos hr, if_neg (by omega), encRequests_cons, List.singleton_append, List.singleton_append, inTurn_cons]
    rw [hC]

theorem text_inside {C C' : CcmCtx} {p : BcPort} {x : Byte} {xs : List Byte} (hr : C.textcons.toNat % 16 ≠ 0)
    (hl : C.mac.plen.val + 1 < 16) (hm : C.mac.plen.val = C.textcons.toNat % 16)
    (_ : C.textcons.toNat + xs.length + 1 < 2 ^ 64)
    (hC : C' = { C with mac := { C.mac with pend := C.mac.pend.set C.mac.plen.val x, plen := ⟨C.mac.plen.val + 1, hl⟩ },
                        textcons := C.textcons + 1 }) :
    textContext C' p xs = textContext C p (x :: xs) ∧ textRequests C' p xs = textRequests C p (x :: xs) := by
  have ht : C'.textcons.toNat = C.textcons.toNat + 1 := by rw [hC]; exact textcons_succ (by omega)
  have hnc := nextCounters_later (C := C) (C' := C') (n := xs.length) hr (by rw [hC]) (by omega)
  have hpend : pendingThen C'.mac.pend C'.mac.plen.val xs = pendingThen C.mac.pend C.mac.plen.val (x :: xs) := by
    rw [hC]; exact pendingThen_set _ x xs (by omega)
  constructor
  · simp only [textContext, hpend, List.length_cons, hnc]
    rw [hC]
    simp only [textcons_add]
  · simp only [textRequests, hpend, List.length_cons, hnc]
    rw [if_neg hr, if_neg (by omega)]
    rw [hC]

theorem text_last {C C' : CcmCtx} {p : BcPort} {x : Byte} {xs : List Byte} (hl : C.mac.plen.val = 15)
    (hm : C.mac.plen.val = C.textcons.toNat % 16) (_ : C.textcons.toNat + xs.length + 1 < 2 ^ 64)
    (hC : C' = { C with
      mac := { cbc := { C.mac.cbc with
                        chain := bcEnc p C.mac.cbc.keyref (Block.xor (C.mac.pend.set C.mac.plen.val x) C.mac.cbc.chain) },
               pend := Block.zero, plen := 0 },
      textcons := C.textcons + 1 }) :
    let q : Request := ⟨.enc, C.mac.cbc.keyref, Block.xor (C.mac.pend.set C.mac.plen.val x) C.mac.cbc.chain⟩
    textContext C' (afterRequests p [q]) xs = textContext C p (x :: xs) ∧
      [q] ++ textRequests C' (afterRequests p [q]) xs = textRequests C p (x :: xs) := by
  intro q
  have ht : C'.textcons.toNat = C.textcons.toNat + 1 := by rw [hC]; exact textcons_succ (by omega)
  have hr : C.textcons.toNat % 16 ≠ 0 := by omega
  have hnc := nextCounters_later (C := C) (C' := C') (n := xs.length) hr (by rw [hC]) (by omega)
  have hpend : pendingThen C.mac.pend C.mac.plen.val (x :: xs) =
      (C.mac.pend.set C.mac.plen.val x).toList ++ pendingThen C'.mac.pend C'.mac.plen.val xs := by
    have h0 : pendingThen C'.mac.pend C'.mac.plen.val xs = xs := by rw [hC]; exact pendingThen_zero _ _
    rw [h0]
    simp only [hl, pendingThen_full]
  constructor
  · simp only [textContext, hpend, List.length_cons, hnc, bcEnc_afterRequests, wholeBlocks_block, tailBytes_block,
      rem16_block, cbcCipher, lastChain_cons]
    rw [hC]
    simp only [textcons_add]
  · simp only [textRequests, hpend, List.length_cons, hnc, bcEnc_afterRequests, wholeBlocks_block, cbcInputs,
      encRequests_cons]
    rw [if_neg hr, if_pos (by omega), List.singleton_append, List.singleton_append, inTurn_cons]
    rw [hC]

/-- CCM's text data path on a byte string (R97). -/
theorem feed_ccmTextByte (dir : CcmDir) {C : CcmCtx} {p : BcPort} (d : List Byte)
    (hz : ZeroTail C.mac.pend C.mac.plen.val) (hm : C.mac.plen.val = C.textcons.toNat % 16)
    (hn : C.textcons.toNat + d.length < 2 ^ 64) (hp : Honest p) :
    let out := xorBytes d (nextKeystream (bcEnc p C.ctr.keyref) C d.length)
    feed (ccmTextByte dir) C d p =
      .ok (out, textContext C p (plainOf dir d out)) (afterRequests p (textRequests C p (plainOf dir d out))) := by
  induction d generalizing C p with
  | nil =>
    obtain ⟨h1, h2, h3⟩ := pendingThen_nil hz
    have hplain : plainOf dir [] (xorBytes [] (nextKeystream (bcEnc p C.ctr.keyref) C 0)) = [] := by
      cases dir <;> simp [plainOf, xorBytes]
    simp only [List.length_nil, hplain, textContext, textRequests, h1, h2, h3, nextCounters_zero]
    simp [cbcCipher, cbcInputs, lastChain, encRequests, xorBytes, incTimes, inTurn]
  | cons b bs ih =>
    intro out
    have hn' : C.textcons.toNat + bs.length + 1 < 2 ^ 64 := by simpa [Nat.add_assoc] using hn
    have hsucc := textcons_succ (c := C.textcons) (by omega)
    rw [feed_cons]
    by_cases hr : C.textcons.toNat % 16 = 0
    · have h0 : C.mac.plen.val = 0 := by omega
      rw [ccmTextByte_first hr h0 hp]
      simp only [andThen_ok]
      generalize hC : CcmCtx.mk { C.mac with
          pend := C.mac.pend.set 0 (plainByte dir b (b ^^^ (bcEnc p C.ctr.keyref C.ctr.cb)[0])), plen := 1 }
        { C.ctr with cb := inc C.ctr.cb C.ctr.w.toNat } C.ivsize C.tagsize C.aadsize C.textsize C.aadcons
        (C.textcons + 1) (bcEnc p C.ctr.keyref C.ctr.cb) C.phase = C'
      have ht : C'.textcons.toNat = C.textcons.toNat + 1 := by rw [← hC]; exact hsucc
      have hout : out = (b ^^^ (bcEnc p C.ctr.keyref C.ctr.cb)[0]) ::
          xorBytes bs (nextKeystream (bcEnc p C.ctr.keyref) C' bs.length) := by
        simp only [out, List.length_cons]
        rw [nextKeystream_first (C' := C') hr (by rw [← hC]) (by rw [← hC]) (by rw [← hC]) (by omega), xorBytes_cons]
      have hlen : (plainOf dir bs (xorBytes bs (nextKeystream (bcEnc p C.ctr.keyref) C' bs.length))).length = bs.length :=
        plainOf_length (by rw [xorBytes_length]; exact Nat.min_eq_left (nextKeystream_length _ _ _))
      obtain ⟨h1, h2⟩ := text_first (p := p) hr h0 (by rw [hlen]; exact hn') hC.symm
      rw [ih (C := C') (by rw [← hC]; exact zeroTail_set _ (by omega) (h0 ▸ hz)) (by rw [ht, ← hC]; simp; omega) (by omega)
        (hp.after _)]
      have hk : C'.ctr.keyref = C.ctr.keyref := by rw [← hC]
      simp only [andThen_ok, bcEnc_afterRequests, hk, afterRequests_append, List.singleton_append, h1, hout, plainOf_cons]
      rw [← h2]
      rfl
    · by_cases hl : C.mac.plen.val + 1 < 16
      · rw [ccmTextByte_inside hr hl hm]
        simp only [andThen_ok]
        generalize hC : CcmCtx.mk { C.mac with
            pend := C.mac.pend.set C.mac.plen.val (plainByte dir b (b ^^^ C.ks[C.mac.plen.val])),
            plen := ⟨C.mac.plen.val + 1, hl⟩ }
          C.ctr C.ivsize C.tagsize C.aadsize C.textsize C.aadcons (C.textcons + 1) C.ks C.phase = C'
        have ht : C'.textcons.toNat = C.textcons.toNat + 1 := by rw [← hC]; exact hsucc
        have hk : C'.ctr.keyref = C.ctr.keyref := by rw [← hC]
        have hout : out = (b ^^^ C.ks[C.mac.plen.val]) ::
            xorBytes bs (nextKeystream (bcEnc p C.ctr.keyref) C' bs.length) := by
          simp only [out, List.length_cons]
          rw [nextKeystream_later (C' := C') hr (by rw [← hC]) (by rw [← hC]) (by omega), xorBytes_cons]
          simp only [hm]
        have hlen : (plainOf dir bs (xorBytes bs (nextKeystream (bcEnc p C.ctr.keyref) C' bs.length))).length =
            bs.length := plainOf_length (by rw [xorBytes_length]; exact Nat.min_eq_left (nextKeystream_length _ _ _))
        obtain ⟨h1, h2⟩ := text_inside (p := p) hr hl hm (by rw [hlen]; exact hn') hC.symm
        rw [ih (C := C') (by rw [← hC]; exact zeroTail_set _ (by omega) hz) (by rw [ht, ← hC]; simp only; omega)
          (by omega) hp]
        simp only [andThen_ok, hk, List.singleton_append, h1, hout, plainOf_cons, h2]
      · have h15 : C.mac.plen.val = 15 := by omega
        rw [ccmTextByte_last h15 hm hp]
        simp only [andThen_ok]
        generalize hC : CcmCtx.mk
          { cbc := { C.mac.cbc with
                     chain := bcEnc p C.mac.cbc.keyref (Block.xor
                       (C.mac.pend.set C.mac.plen.val (plainByte dir b (b ^^^ C.ks[C.mac.plen.val]))) C.mac.cbc.chain) },
            pend := Block.zero, plen := 0 }
          C.ctr C.ivsize C.tagsize C.aadsize C.textsize C.aadcons (C.textcons + 1) C.ks C.phase = C'
        have ht : C'.textcons.toNat = C.textcons.toNat + 1 := by rw [← hC]; exact hsucc
        have hk : C'.ctr.keyref = C.ctr.keyref := by rw [← hC]
        have hout : out = (b ^^^ C.ks[C.mac.plen.val]) ::
            xorBytes bs (nextKeystream (bcEnc p C.ctr.keyref) C' bs.length) := by
          simp only [out, List.length_cons]
          rw [nextKeystream_later (C' := C') hr (by rw [← hC]) (by rw [← hC]) (by omega), xorBytes_cons]
          simp only [hm]
        have hlen : (plainOf dir bs (xorBytes bs (nextKeystream (bcEnc p C.ctr.keyref) C' bs.length))).length =
            bs.length := plainOf_length (by rw [xorBytes_length]; exact Nat.min_eq_left (nextKeystream_length _ _ _))
        obtain ⟨h1, h2⟩ := text_last (p := p) h15 hm (by rw [hlen]; exact hn') hC.symm
        rw [ih (C := C') (by rw [← hC]; exact zeroTail_zero _) (by rw [ht, ← hC]; simp only [Fin.val_zero]; omega)
          (by omega) (hp.after _)]
        simp only [andThen_ok, bcEnc_afterRequests, hk, afterRequests_append, List.singleton_append, h1, hout,
          plainOf_cons]
        rw [← h2]
        rfl

/-! ## The end of a CCM stream -/

/-- `ccm_flush()` (R96): one request if a block is pending, none else; nothing is pending afterwards. -/
theorem ccmFlush_honest {M : MacCore} {p : BcPort} (hz : ZeroTail M.pend M.plen.val) (hh : Honest p) :
    ccmFlush M p = .ok { cbc := { M.cbc with chain := flushedChain (bcEnc p M.cbc.keyref) M }, pend := Block.zero, plen := 0 }
      (afterRequests p (encRequests M.cbc.keyref (flushInputs M))) := by
  unfold ccmFlush
  by_cases h : M.plen = 0
  · have hp : M.pend = Block.zero := by
      ext i hi : 1
      have := hz ⟨i, hi⟩ (by rw [h]; exact Nat.zero_le _); simpa using this
    rw [if_neg (by simp [h])]
    simp only [flushInputs, flushedChain, h, if_true, encRequests, List.map_nil, afterRequests_nil]
    rcases M with ⟨S, pe, pl⟩
    simp only at h hp; subst h hp; rfl
  · rw [if_pos h, macFeed_honest _ hz hh]
    have hl : (M.pend.toList.take M.plen.val ++ zeros (16 - M.plen.val)).length = 16 := by simp
    have hb : pendingThen M.pend M.plen.val (zeros (16 - M.plen.val)) = M.pend.toList := by
      have : M.pend = Block.ofList (M.pend.toList.take M.plen.val ++ zeros (16 - M.plen.val)) := by
        rw [Block.ofList_append_zeros, ofList_take_of_zeroTail hz]
      conv => rhs; rw [this]
      rw [Block.toList_ofList hl]; rfl
    have hw : wholeBlocks M.pend.toList = [M.pend] := by have := wholeBlocks_block M.pend []; simpa using this
    have ht : tailBytes M.pend.toList = [] := by simp [tailBytes]
    rw [hb, hw, ht]
    simp [flushInputs, flushedChain, h, cbcCipher, cbcInputs, lastChain, rem16]; rfl

/-- The tag comparison finds a difference exactly when there is one (R102). -/
theorem tagDiff_eq_zero (a b : List Byte) (h : a.length = b.length) :
    tagDiff a b = 0 ↔ b = a := by
  unfold tagDiff
  have gen : ∀ (l : List Byte) (acc : Byte), l.foldl (fun acc d => acc ||| d) acc = 0 ↔ acc = 0 ∧ ∀ x ∈ l, x = 0 := by
    intro l; induction l with
    | nil => simp
    | cons x xs ih =>
      intro acc; simp only [List.foldl_cons, ih, List.mem_cons, forall_eq_or_imp]
      constructor
      · rintro ⟨h1, h2⟩
        have : acc = 0 ∧ x = 0 := by
          constructor <;> (apply BitVec.eq_of_getLsbD_eq; intro i hi; have := congrArg (fun z => z.getLsbD i) h1; simp at this ⊢; tauto)
        exact ⟨this.1, this.2, h2⟩
      · rintro ⟨h1, h2, h3⟩; subst h1 h2; exact ⟨rfl, h3⟩
  rw [gen]
  constructor
  · rintro ⟨-, h2⟩
    apply List.ext_getElem h.symm
    intro i h3 h4
    have := h2 (a[i] ^^^ b[i]) (by rw [List.mem_iff_getElem]; exact ⟨i, by simp; omega, by simp⟩)
    have := BitVec.xor_eq_zero_iff.mp this
    exact this.symm
  · rintro rfl
    refine ⟨rfl, fun x hx => ?_⟩
    rw [List.mem_iff_getElem] at hx
    obtain ⟨i, h1, h2⟩ := hx
    simp at h2; exact h2.symm

end Sys2Proof.Machine
end

