-- ==== Sys2Proof/Tests/Slice0.lean ====
section
/-! SUPPORT. Tests. The expected values are those of spec/95_test_vectors.md and of the rules' own examples; the
BlockCipher is its fixture TOY, and most tests fix the requests a command makes as well. A
theorem witness_X shows values that meet the hypotheses of Obligations.X. -/

namespace Sys2Proof.Tests

open Machine

/-! ## Helpers -/

/-- The block of a 32-digit hexadecimal number. -/
def blk (v : Nat) : Block := Block.ofList (be v 16)

/-- `KeyRef (1, 0)`. -/
def k1 : KeyRef := { slot := 1, blk := 0 }

/-- Requests of one kind under `k1`. -/
def reqs (op : BcOp) (xs : List Nat) : List Request := xs.map fun x => { op := op, key := k1, blk := blk x }

/-- `s` with TOY behind the BlockCipher port. -/
def toy (s : State) : State := s.setBc { cipher := .toy, draws := [], trace := [] }

/-- `s` with `TOY_FAIL(2, 0xa5)` behind the BlockCipher port. -/
def failsSecond (s : State) : State :=
  s.setBc { cipher := .toy, draws := [.cipher, .err ⟨0xa5, by decide⟩, .cipher], trace := [] }

def core (pad : Bool) (chain : Nat) (pend : List Byte) (plen : Fin 16) : CbcCore :=
  { keyref := k1, chain := blk chain, pend := Block.ofList pend, plen := plen, pad := pad }

/-- A CBC stream of spec/41_cbc.md's examples. -/
def cbc (phase : CbcPhase) (C : CbcCore) : State :=
  State.reset.setCbc { core := C, held := Block.zero, heldv := false, phase := phase }

/-- A CBC decrypt stream with a held block. -/
def cbcHeld (C : CbcCore) (held : Block) : State :=
  State.reset.setCbc { core := C, held := held, heldv := true, phase := .dec }

def cmac (chain : Nat) (pend : List Byte) (plen : Fin 17) : State :=
  State.reset.setCmac { cbc := core false chain [] 0, pend := Block.ofList pend, plen := plen, phase := .active }

def ctr (w : Byte) (cb : Nat) : State :=
  State.reset.setCtr { core := { keyref := k1, cb := blk cb, w := w }, phase := .active }

def macCore (chain : Nat) (pend : List Byte) (plen : Fin 16) : MacCore :=
  { cbc := core false chain [] 0, pend := Block.ofList pend, plen := plen }

def mac (chain : Nat) (pend : List Byte) (plen : Fin 16) : State :=
  State.reset.setMac { core := macCore chain pend plen, phase := .active }

/-- A CCM stream with the parameters of spec/45_ccm.md's examples: nonce 10..1c, tag 8, 5 bytes of AAD, 20 of text. -/
def ccm (phase : CcmPhase) (M : MacCore) (counter : Nat) (aadcons textcons : Nat) (ks : Nat) : State :=
  State.reset.setCcm
    { mac := M, ctr := { keyref := k1, cb := blk (0x01101112131415161718191a1b1c0000 + counter), w := 2 }, ivsize := 13,
      tagsize := 8, aadsize := 5, textsize := 20, aadcons := BitVec.ofNat 64 aadcons,
      textcons := BitVec.ofNat 64 textcons, ks := blk ks, phase := phase }

/-- The bytes from `a` on, `n` of them, each one more than the last. -/
def upFrom (a n : Nat) : List Byte := (List.range n).map fun i => BitVec.ofNat 8 (a + i)

def after (i : Instr) (s : State) : Option State :=
  match exec i s with
  | .next t => some t
  | _ => none

/-- The responses presented and the requests made by a command. -/
def seen (i : Instr) (s : State) : Option (List (List Byte) × List Request) :=
  (after i s).map fun t => (t.responses.map responseBytes, t.bc.trace)

/-! ## Well-formedness, decoding -/

/-- A payload longer than `MAXLEN` is no packet's (R43, R47). -/
theorem test_wellFormed_refuses_long_payload : ¬ Instr.WellFormed (.p7Pad 0 0 (zeros 65521)) := by
  simp only [Instr.WellFormed, Instr.payload, zeros, rep, List.length_replicate]; decide

theorem test_wellFormed_longest : Instr.WellFormed (.p7Pad 0 0 (zeros 65520)) := by
  simp only [Instr.WellFormed, Instr.payload, zeros, rep, List.length_replicate]; decide

/-- Every row of R50, a packet written from it. -/
theorem test_decode_p7 :
    decode [0x00, 0, 0xff, 0xff, 0, 3, 1, 2, 3] = .ok (.p7Pad 0 0xffff [1, 2, 3]) ∧
    decode [0x01, 0, 0xff, 0xff, 0, 1, 9] = .ok (.p7Unpad 0 0xffff [9]) := by decide

theorem test_decode_cbc :
    decode [0x10, 1, 0, 0, 0, 3, 0, 1, 0] = .ok (.cbcInit 1 0 [0, 1, 0]) ∧
    decode [0x11, 0, 0, 0x10, 0, 5, 1, 2, 3, 4, 5] = .ok (.cbcEncUpdate 0 0x10 [1, 2, 3, 4, 5]) ∧
    decode [0x12, 0, 0, 0x10, 0, 0] = .ok (.cbcEncFinish 0 0x10 []) ∧
    decode [0x13, 0, 1, 0, 0, 1, 7] = .ok (.cbcDecUpdate 0 0x100 [7]) ∧
    decode [0x14, 0, 0, 0x10, 0, 0] = .ok (.cbcDecFinish 0 0x10 []) := by decide

theorem test_decode_cmac :
    decode [0x20, 0, 0, 0, 0, 3, 0, 1, 0] = .ok (.cmacInit 0 0 [0, 1, 0]) ∧
    decode [0x21, 0, 0, 0, 0, 1, 5] = .ok (.cmacUpdate 0 0 [5]) ∧
    decode [0x22, 0x10, 0, 0x10, 0, 0] = .ok (.cmacFinish 0x10 0x10 []) := by decide

theorem test_decode_ctr :
    decode [0x30, 0x11, 0, 0, 0, 2, 1, 2] = .ok (.ctrInit 0x11 0 [1, 2]) ∧
    decode [0x31, 0, 0, 0x10, 0, 1, 0] = .ok (.ctrEncBlock 0 0x10 [0]) ∧
    decode [0x32, 0, 0, 0x10, 0, 1, 0] = .ok (.ctrDecBlock 0 0x10 [0]) := by decide

theorem test_decode_mac :
    decode [0x40, 0, 0, 0, 0, 3, 0, 1, 0] = .ok (.macInit 0 0 [0, 1, 0]) ∧
    decode [0x41, 0, 0, 0, 0, 1, 5] = .ok (.macUpdate 0 0 [5]) ∧
    decode [0x42, 0x10, 0, 0x10, 0, 0] = .ok (.macFinish 0x10 0x10 []) := by decide

theorem test_decode_ccm :
    decode [0x50, 4, 0, 0, 0, 1, 7] = .ok (.ccmInit 4 0 [7]) ∧
    decode [0x51, 0, 0, 0, 0, 1, 7] = .ok (.ccmAadUpdate 0 0 [7]) ∧
    decode [0x52, 0, 0, 0, 0, 0] = .ok (.ccmAadFinish 0 0 []) ∧
    decode [0x53, 0, 0, 1, 0, 1, 0] = .ok (.ccmEncUpdate 0 1 [0]) ∧
    decode [0x54, 4, 0, 4, 0, 0] = .ok (.ccmEncFinish 4 4 []) ∧
    decode [0x55, 0, 0, 1, 0, 1, 0] = .ok (.ccmDecUpdate 0 1 [0]) ∧
    decode [0x56, 4, 0, 0, 0, 4, 1, 2, 3, 4] = .ok (.ccmDecFinish 4 0 [1, 2, 3, 4]) := by decide

/-- R43, R44: each refusal, and the first and last reserved opcodes after each engine's last listed one. -/
theorem test_decode_refuses :
    decode [0x00, 0, 0, 0, 0] = .error .tooShort ∧
    decode [0x00, 0, 0, 0, 0xff, 0xf1] = .error .lenAboveMax ∧
    decode [0x00, 0, 0, 0, 0, 1] = .error .lengthMismatch ∧
    decode [0x02, 0, 0, 0, 0, 0] = .error (.reservedOpcode 0x02) ∧
    decode [0x15, 0, 0, 0, 0, 0] = .error (.reservedOpcode 0x15) ∧
    decode [0x57, 0, 0, 0, 0, 0] = .error (.reservedOpcode 0x57) ∧
    decode [0x60, 0, 0, 0, 0, 0] = .error (.reservedOpcode 0x60) ∧
    decode [0xff, 0, 0, 0, 0, 0] = .error (.reservedOpcode 0xff) := by decide

/-- The header as spec/opcode_table.json writes it: `OPC` in bits 47:40. -/
theorem test_tableWord :
    decodeTableWord 48 0x300100000001 = some (.ctrInit 1 0 [0]) ∧
    decodeTableWord 48 0x560800100000 = some (.ccmDecFinish 8 0x10 []) ∧
    decodeTableWord 48 0x060000000000 = none := by decide

/-- That header, placed where the step takes its next packet, is run as the first command after reset. -/
theorem test_fetchWord_runs :
    step (State.reset.withFetchWord 48 0x200000000003) = exec (.cmacInit 0 0 [0, 0, 0]) State.reset := rfl

/-! ## Arithmetic -/

/-- spec/95_test_vectors.md 2.1. -/
theorem test_toy :
    toyEnc k1 (blk 0x000102030405060708090a0b0c0d0e0f) = blk 0x10 ∧
    toyDec k1 (blk 0x10) = blk 0x000102030405060708090a0b0c0d0e0f ∧
    toyEnc k1 Block.zero = blk 0x0102030405060708090a0b0c0d0e0f10 := by decide

/-- spec/95_test_vectors.md 2.2. -/
theorem test_dbl :
    dbl (blk 0x80000000000000000000000000000000) = blk 0x87 ∧
    dbl (blk 0xffffffffffffffffffffffffffffffff) = blk 0xffffffffffffffffffffffffffffff79 ∧
    dbl (blk 0x7d85449ea6ea19c823a7bf78837dfade) = blk 0xfb0a893d4dd43390474f7ef106fbf5bc := by decide

/-- spec/95_test_vectors.md 2.3. -/
theorem test_inc :
    inc (blk 0x000102030405060708090a0bffffffff) 4 = blk 0x000102030405060708090a0b00000000 ∧
    inc (blk 0xffffffffffffffffffffffffffffffff) 16 = Block.zero ∧
    inc (blk 0x000102030405060708090a0b0c0d0eff) 1 = blk 0x000102030405060708090a0b0c0d0e00 ∧
    inc (blk 0xaa00000000000000000000000000ffff) 15 = blk 0xaa000000000000000000000000010000 := by decide

/-- spec/95_test_vectors.md 2.4. -/
theorem test_pad7 :
    pad7 [] = rep 0x10 16 ∧ pad7 (upFrom 0 15) = upFrom 0 15 ++ [1] ∧
    pad7 (upFrom 0 16) = upFrom 0 16 ++ rep 0x10 16 := by decide

/-- R90's two flags bytes and R92's thresholds. -/
theorem test_ccm_formatting :
    ccmFlags 8 5 2 = 0x59 ∧ ccmFlags 4 0 8 = 0x0f ∧ aadPrefix 0xfeff = [0xfe, 0xff] ∧
    aadPrefix 0xff00 = [0xff, 0xfe, 0, 0, 0xff, 0] ∧ aadPrefix (2 ^ 32) = [0xff, 0xff, 0, 0, 0, 1, 0, 0, 0, 0] := by
  decide

/-! ## The commands -/

theorem test_p7Pad :
    seen (.p7Pad 0 0xffff [1, 2, 3]) State.reset = some ([[0, 0, 0, 16, 0, 16, 1, 2, 3] ++ rep 13 13], []) := by decide

theorem test_p7Pad_capacity :
    seen (.p7Pad 0 15 []) State.reset = some ([[0x21, 0, 0, 0, 0, 16]], []) := by decide

theorem test_p7Unpad :
    seen (.p7Unpad 0 0xffff ([1, 2, 3] ++ rep 13 13)) State.reset = some ([[0, 0, 0, 3, 0, 15, 1, 2, 3]], []) := by decide

theorem test_p7Unpad_inconsistent :
    seen (.p7Unpad 0 0xffff (zeros 13 ++ [2, 3, 3])) State.reset = some ([[0x32, 0, 0, 0, 0, 0]], []) := by decide

theorem test_cbcInit :
    (after (.cbcInit 1 0 ([0, 1, 0] ++ upFrom 0xa0 16)) State.reset).map (fun t => t.cbc) =
      some (cbc .ready (core true 0xa0a1a2a3a4a5a6a7a8a9aaabacadaeaf [] 0)).cbc := by decide

theorem test_cbcInit_noIv : seen (.cbcInit 1 0 [0, 1, 0]) State.reset = some ([[0x11, 0, 0, 0, 0, 0]], []) := by decide

/-- R63's example: the block `10..1f` completed by its last 15 bytes. -/
theorem test_cbcEncUpdate :
    seen (.cbcEncUpdate 0 0xffff (upFrom 0x11 15)) (toy (cbc .enc (core true 0xa0a1a2a3a4a5a6a7a8a9aaabacadaeaf [0x10] 1))) =
    some ([[0, 0, 0, 16, 0, 16] ++ upFrom 0xb1 15 ++ [0xa0]], reqs .enc [0xb0b0b0b0b0b0b0b0b0b0b0b0b0b0b0b0]) := by decide

/-- spec/95_test_vectors.md 3.2 l: the second request fails with 0xa5. -/
theorem test_cbcEncUpdate_fails :
    (after (.cbcEncUpdate 0 32 (zeros 48)) (failsSecond ((cbc .ready (core false 0 [] 0)).setStraps
      { legacyZeroPad := true, capPolicy := .exact, ctrWidth0 := .reject }))).map
        (fun t => (t.responses.map responseBytes, t.cbc.phase)) =
      some ([[0x21, 0, 0, 0, 0, 48]], .idle) ∧
    (after (.cbcEncUpdate 0 32 (zeros 32)) (failsSecond (cbc .ready (core false 0 [] 0)))).map
        (fun t => (t.responses.map responseBytes, t.cbc.phase, t.bc.trace.length, t.bc.draws)) =
      some ([[0x41, 0xa5, 0, 0, 0, 0]], .idle, 2, [.cipher]) := by decide

/-- spec/95_test_vectors.md 3.2 f. -/
theorem test_cbcEncFinish_padded :
    seen (.cbcEncFinish 0 16 []) (toy (cbc .ready (core true 0xa0a1a2a3a4a5a6a7a8a9aaabacadaeaf [] 0))) =
    some ([[0, 0, 0, 16, 0, 16] ++ rep 0xb0 15 ++ [0xa0]], reqs .enc [0xb0b1b2b3b4b5b6b7b8b9babbbcbdbebf]) := by decide

/-- spec/95_test_vectors.md 3.2 g: the legacy zero-pad. -/
theorem test_cbcEncFinish_legacy :
    seen (.cbcEncFinish 0 16 []) (toy (cbc .enc (core false 0xa0a1a2a3a4a5a6a7a8a9aaabacadaeaf [1, 2, 3, 4, 5] 5))) =
    some ([[0, 0, 0, 16, 0, 16, 0xa2, 0xa3, 0xa4, 0xa5] ++ rep 0xa0 11 ++ [0xb1]],
      reqs .enc [0xa1a3a1a7a1a5a6a7a8a9aaabacadaeaf]) := by decide

/-- R65's example: the held block is released and the second one held. -/
theorem test_cbcDecUpdate :
    (after (.cbcDecUpdate 0 0xffff (be 0x9394bdbfbdb3bdbfbdbfbbbdbfbda381 16 |>.drop 1))
      (toy (cbcHeld (core true 0xb1b2b3b4b5b6b7b8b9babbbcbdbebfa0 [0x92] 1) (blk 0x101112131415161718191a1b1c1d1e1f)))).map
      (fun t => (t.responses.map responseBytes, t.cbc.heldv, t.cbc.core.plen)) =
    some ([[0, 0, 0, 16, 0, 16] ++ upFrom 0x10 16], true, 0) := by decide

/-- R66's example. -/
theorem test_cbcDecFinish :
    seen (.cbcDecFinish 0 15 []) (cbcHeld (core true 7 [] 0) (blk 0x202122230c0c0c0c0c0c0c0c0c0c0c0c)) =
      some ([[0, 0, 0, 4, 0, 15, 0x20, 0x21, 0x22, 0x23]], []) := by decide

/-- spec/95_test_vectors.md 3.2 i: nothing held. -/
theorem test_cbcDecFinish_nothing :
    seen (.cbcDecFinish 0 16 []) (cbc .ready (core true 7 [] 0)) = some ([[0x32, 0, 0, 0, 0, 0]], []) := by decide

theorem test_cmacInit :
    (after (.cmacInit 0 0 [0, 1, 0]) State.reset).map (fun t => t.cmac) = some (cmac 0 [] 0).cmac := by decide

/-- R73's example: a full lookahead is encrypted when the next byte comes. -/
theorem test_cmacUpdate :
    seen (.cmacUpdate 0 0 [0x11, 0x12, 0x13, 0x14]) (toy (cmac 0 (upFrom 1 16) 16)) =
    some ([[0, 0, 0, 0, 0, 0]], reqs .enc [0x0102030405060708090a0b0c0d0e0f10]) := by decide

/-- R74's example, the partial branch. -/
theorem test_cmacFinish :
    seen (.cmacFinish 16 16 []) (toy (cmac 0x0301070103010f010301070103011f11 [0x11, 0x12, 0x13, 0x14] 4)) =
    some ([[0, 0, 0, 16, 0, 16] ++ be 0x1a1a06931c15262f20213a3b342d5e06 16],
      reqs .enc [0, 0x161b18059719132127292b3137392351]) := by decide

/-- spec/95_test_vectors.md 3.3 b, the whole-block branch, 8 bytes wanted. -/
theorem test_cmacFinish_whole :
    seen (.cmacFinish 8 8 []) (toy (cmac 0 (upFrom 1 16) 16)) =
    some ([[0, 0, 0, 8, 0, 8, 7, 7, 0x0f, 0x0b, 0x0f, 0x0f, 0x1f, 0x13]],
      reqs .enc [0, 0x0306050c0f0a09181b1e1d1417121130]) := by decide

/-- A width of 200 is accepted (R77). -/
theorem test_ctrInit :
    (after (.ctrInit 200 0 ([0, 1, 0] ++ upFrom 5 16)) State.reset).map (fun t => t.ctr) =
      some (ctr 200 0x05060708090a0b0c0d0e0f1011121314).ctr := by decide

/-- R78's example. -/
theorem test_ctrEncBlock :
    (after (.ctrEncBlock 0 16 (zeros 16)) (toy (ctr 4 0x000102030405060708090a0bfffffffe))).map
      (fun t => (t.responses.map responseBytes, t.bc.trace, t.ctr.core.cb)) =
    some ([[0, 0, 0, 16, 0, 16] ++ be 0x0000000000000000000000f3f2f1f110 16],
      reqs .enc [0x000102030405060708090a0bfffffffe], blk 0x000102030405060708090a0bffffffff) := by decide

/-- spec/95_test_vectors.md 3.4 a: a width of 17 is refused at block time, with no request. -/
theorem test_ctrEncBlock_width :
    seen (.ctrEncBlock 0 16 (zeros 16)) (ctr 17 0) = some ([[0x12, 0, 0, 0, 0, 0]], []) := by decide

/-- R80's example, and the strap's width 0: the counter block stays. -/
theorem test_ctrDecBlock :
    seen (.ctrDecBlock 0 16 (zeros 16)) (toy (ctr 4 0x000102030405060708090a0b00000000)) =
    some ([[0, 0, 0, 16, 0, 16] ++ be 0x0c0d0e0f10 16], reqs .enc [0x000102030405060708090a0b00000000]) ∧
    (after (.ctrDecBlock 0 16 (zeros 16)) (toy ((ctr 0 9).setStraps
      { legacyZeroPad := true, capPolicy := .conservative, ctrWidth0 := .noop }))).map (fun t => t.ctr.core.cb) =
      some (blk 9) := by decide

theorem test_macInit :
    (after (.macInit 0 0 [0, 1, 0]) State.reset).map (fun t => t.mac) = some (mac 0 [] 0).mac := by decide

/-- spec/95_test_vectors.md 3.5 b, the second update. -/
theorem test_macUpdate :
    (after (.macUpdate 0 0 (upFrom 0x15 12)) (toy (mac 0x0301070103010f010301070103011f11 [0x11, 0x12, 0x13, 0x14] 4))).map
      (fun t => (t.mac, t.bc.trace)) =
    some ((mac 0x12161612121e1e1212161612120e3e02 [] 0).mac, reqs .enc [0x12131415161718191a1b1c1d1e1f0031]) := by decide

theorem test_macFinish :
    seen (.macFinish 4 4 []) (mac 0x12161612121e1e1212161612120e3e02 [] 0) =
      some ([[0, 0, 0, 4, 0, 4, 0x12, 0x16, 0x16, 0x12]], []) := by decide

/-- spec/95_test_vectors.md 3.5 a: alignment is judged before capacity. -/
theorem test_macFinish_unaligned :
    seen (.macFinish 16 0 []) (mac 3 [1, 2, 3, 4] 4) = some ([[0x31, 0, 0, 0, 0, 0]], []) := by decide

/-- R94's example. -/
theorem test_ccmInit :
    (after (.ccmInit 8 0 ([0, 1, 0, 13, 0, 0, 0, 0, 0, 0, 0, 5, 0, 0, 0, 0, 0, 0, 0, 20] ++ upFrom 0x10 13))
      (toy State.reset)).map (fun t => (t.ccm, t.bc.trace)) =
    some ((ccm .init (macCore 0x111311171113111f11131117110e1b49 [] 0) 1 0 0 0).ccm,
      reqs .enc [0x59101112131415161718191a1b1c0014]) := by decide

/-- spec/95_test_vectors.md 3.6 c: a text size that its field cannot hold. -/
theorem test_ccmInit_textSize :
    seen (.ccmInit 8 0 ([0, 1, 0, 13, 0, 0, 0, 0, 0, 0, 0, 5, 0, 0, 0, 0, 0, 1, 0, 0] ++ upFrom 0x10 13)) State.reset =
      some ([[0x12, 0, 0, 0, 0, 0]], []) := by decide

/-- R95's example: the length prefix, then the data, stay pending. -/
theorem test_ccmAadUpdate :
    (after (.ccmAadUpdate 0 0 (upFrom 0xa0 5)) (ccm .init (macCore 7 [] 0) 1 0 0 0)).map (fun t => t.ccm) =
      some (ccm .aad (macCore 7 ([0, 5] ++ upFrom 0xa0 5) 7) 1 5 0 0).ccm := by decide

/-- R96's example. -/
theorem test_ccmAadFinish :
    (after (.ccmAadFinish 0 0 []) (toy (ccm .aad (macCore 0x111311171113111f11131117110e1b49 ([0, 5] ++ upFrom 0xa0 5) 7) 1 5 0 0))).map
      (fun t => (t.ccm, t.bc.trace)) =
    some ((ccm .aadFinish (macCore 0x17b3b5b7b5b318191a1b1c1d03154601 [] 0) 1 5 0 0).ccm,
      reqs .enc [0x1116b1b6b3b0b51f11131117110e1b49]) := by decide

/-- R98's example, the second update: it ends one text block and begins the next. -/
theorem test_ccmEncUpdate :
    seen (.ccmEncUpdate 0 13 (upFrom 0x27 13))
      (toy (ccm .encryptText (macCore 0x17b3b5b7b5b318191a1b1c1d03154601 (upFrom 0x20 7) 7) 2 5 7
          0x111311171113111f11131117110e0e11)) =
    some ([[0, 0, 0, 13, 0, 13, 0x38, 0x39, 0x3a, 0x3b, 0x3c, 0x3d, 0x23, 0x20, 0x3e, 0x21, 0x22, 0x23, 0x24]],
      reqs .enc [0x3792979491963e3e323236362f38682e, 0x01101112131415161718191a1b1c0002]) := by decide

/-- R101's example. -/
theorem test_ccmEncFinish :
    seen (.ccmEncFinish 8 8 []) (toy (ccm .encryptText (macCore 0x939597959338393a3b3c3d2335662127 (upFrom 0x30 4) 4) 3 5 20 0)) =
    some ([[0, 0, 0, 8, 0, 8, 0xb4, 0xb4, 0xb4, 0x80, 0x2c, 0x2c, 0x2c, 0x2c]],
      reqs .enc [0xa3a4a5a69338393a3b3c3d2335662127, 0x01101112131415161718191a1b1c0000]) := by decide

/-- R99's example, its second update. -/
theorem test_ccmDecUpdate :
    (after (.ccmDecUpdate 0 13 [0x38, 0x39, 0x3a, 0x3b, 0x3c, 0x3d, 0x23, 0x20, 0x3e, 0x21, 0x22, 0x23, 0x24])
      (toy (ccm .decryptText (macCore 0x17b3b5b7b5b318191a1b1c1d03154601 (upFrom 0x20 7) 7) 2 5 7
          0x111311171113111f11131117110e0e11))).map (fun t => (t.responses.map responseBytes, t.ccm)) =
    some ([[0, 0, 0, 13, 0, 13] ++ upFrom 0x27 13],
      (ccm .decryptText (macCore 0x939597959338393a3b3c3d2335662127 (upFrom 0x30 4) 4) 3 5 20
        0x111311171113111f11131117110e0d11).ccm) := by decide

/-- R102's example, and a tag that differs in its last byte. -/
theorem test_ccmDecFinish :
    [0x2c, 0x2d].map (fun b => (after (.ccmDecFinish 8 0 [0xb4, 0xb4, 0xb4, 0x80, 0x2c, 0x2c, 0x2c, b])
      (toy (ccm .decryptText (macCore 0x939597959338393a3b3c3d2335662127 (upFrom 0x30 4) 4) 3 5 20 0))).map
      (fun t => (t.responses.map responseBytes, t.ccm.phase))) =
    [some ([[0, 1, 0, 0, 0, 0]], .idle), some ([[0, 0, 0, 0, 0, 0]], .idle)] := by decide

/-! ## Witnesses -/

/-- A state in which the host has one event to come. -/
def onHost (e : HostEvent) : State := State.reset.setPending [e]

def pad1 (n : Nat) : CbcCore := core true 7 (upFrom 1 n) (Fin.ofNat 16 n)
def pad0 (n : Nat) : CbcCore := core false 7 (upFrom 1 n) (Fin.ofNat 16 n)
def strict (s : State) : State :=
  s.setStraps { legacyZeroPad := false, capPolicy := .exact, ctrWidth0 := .reject }

/-- The straps with a width of 0 allowed. -/
def noop (s : State) : State :=
  s.setStraps { legacyZeroPad := true, capPolicy := .conservative, ctrWidth0 := .noop }

/-- A CCM stream's next text byte is number `n`; all AAD has been closed. -/
def textAt (phase : CcmPhase) (n : Nat) : State :=
  ccm phase (macCore 9 (upFrom 1 (n % 16)) (Fin.ofNat 16 n)) (1 + (n + 15) / 16) 5 n 3

/-- A CCM stream with `n` AAD bytes fed, the two bytes of the length prefix among the pending ones. -/
def aadAt (n : Nat) : State := ccm .aad (macCore 9 ([0, 5] ++ upFrom 1 n) (Fin.ofNat 16 (n + 2))) 1 n 0 0

/-- A CTR stream whose next request fails with 0x5a. -/
def failing : State := (ctr 4 5).setBc { cipher := .keyed 0, draws := [.err ⟨0x5a, by decide⟩], trace := [] }

def fresh : State := ccm .init (macCore 9 [] 0) 1 0 0 0

/-- `n` decrypted bytes of padding mode 1 with the byte `b` at their end. -/
def heldEnd (n : Nat) (b : Byte) : State := cbcHeld (pad1 n) (Block.ofList (upFrom 0 15 ++ [b]))

theorem not_padded (d : List Byte) (h : d.getLast? = some 0) (b : List Byte) (p : Nat) (h1 : 1 ≤ p) (h2 : p ≤ 16) :
    d ≠ b ++ List.replicate p (BitVec.ofNat 8 p) := by
  rintro rfl
  obtain ⟨q, rfl⟩ : ∃ q, p = q + 1 := ⟨p - 1, by omega⟩
  rw [List.replicate_succ', ← List.append_assoc, List.getLast?_append] at h
  have := congrArg (Option.map BitVec.toNat) h
  simp at this
  omega

theorem witness_DecodeOfEncode : Instr.WellFormed (.p7Pad 0 0 []) := by decide

theorem witness_EncodeOfDecode : decode [0x12, 0, 0, 0x10, 0, 0] = .ok (.cbcEncFinish 0 0x10 []) := by decide

theorem witness_MalformedPacketsRefused :
    malformed [0, 0, 0, 0, 0] ∧ malformed [0, 0, 0, 0, 0xff, 0xf1] ∧ malformed [0, 0, 0, 0, 0, 0, 0] ∧
    ¬ malformed [0, 0, 0, 0, 0, 0] ∧
    (onHost (.command [0, 0, 0, 0, 0])).pending = .command [0, 0, 0, 0, 0] :: [] := by
  simp only [malformed]; decide

theorem witness_ReservedOpcodesRefused :
    ∀ opc ∈ [0x02, 0x0f, 0x15, 0x1f, 0x23, 0x2f, 0x33, 0x3f, 0x43, 0x4f, 0x57, 0x5f, 0x60, 0xff],
      reservedOpc opc ∧ ¬ malformed [opc, 0, 0, 0, 0, 0] ∧
        (onHost (.command [opc, 0, 0, 0, 0, 0])).pending = .command [opc, 0, 0, 0, 0, 0] :: [] := by
  simp only [malformed, reservedOpc]; decide

theorem witness_StepRunsDecodedCommand :
    Instr.WellFormed (.macFinish 4 4 []) ∧
    (onHost (.command (encode (.macFinish 4 4 [])))).pending = .command (encode (.macFinish 4 4 [])) :: [] := by decide

theorem witness_ResetValues :
    (onHost (.reset Config.defaultStraps)).pending = .reset Config.defaultStraps :: [] := by decide

theorem witness_EveryCommandHasOneResponse : (onHost (.command [])).pending = .command [] :: [] := by decide

theorem witness_ResponsePacketLayout : (okResponse 0 16 (zeros 16)).out.length < 2 ^ 16 := by decide

theorem witness_ErrorEntryClearsContext :
    (∃ t, exec (.macUpdate 0 0 []) State.reset = .next t ∧
      t.responses = State.reset.responses ++ [⟨.badState, 0, 0, []⟩]) ∧
    (∃ t, exec (.ctrEncBlock 0 16 (zeros 16)) failing = .next t ∧
      t.responses = failing.responses ++ [⟨.ioError, 0x5a, 0, []⟩]) :=
  ⟨⟨_, rfl, by decide⟩, ⟨_, rfl, by decide⟩⟩

theorem witness_WrongPhaseRaisesBadState :
    accepts (.macUpdate 0 0 []) State.reset = false ∧ accepts (.cbcDecUpdate 0 0 []) (cbc .enc (pad1 0)) = false ∧
    accepts (.ccmEncFinish 8 8 []) (textAt .decryptText 20) = false := by decide

theorem witness_BlockCipherFailureEndsCommand :
    (∃ t, exec (.ctrEncBlock 0 16 (zeros 16)) failing = .next t ∧
      t.bc.trace.length = 1 ∧ t.responses = [⟨.ioError, 0x5a, 0, []⟩]) ∧
    failing.bc.draws[0]? = some (.err ⟨0x5a, by decide⟩) :=
  ⟨⟨_, rfl, by decide, by decide⟩, by decide⟩

theorem witness_ChecksPrecedeRequests :
    ∃ t, exec (.ctrEncBlock 0 15 (zeros 16)) (ctr 4 0) = .next t ∧
      t.responses = (ctr 4 0).responses ++ [⟨.bufferTooSmall, 0, 16, []⟩] :=
  ⟨_, rfl, by decide⟩

theorem witness_EnginesIndependent :
    (∃ t, exec (.macFinish 4 4 []) (mac 3 [] 0) = .next t) ∧
    (let s' := (mac 3 [] 0).setCtr (ctr 4 0).ctr
     sameContext .mac (mac 3 [] 0) s' ∧ s' ≠ mac 3 [] 0 ∧ s'.straps = (mac 3 [] 0).straps ∧ s'.bc = (mac 3 [] 0).bc) :=
  ⟨⟨_, rfl⟩, rfl, by decide, rfl, rfl⟩

theorem witness_KeyrefWrittenOnlyByInit :
    isInit (.macFinish 4 4 []) = false ∧ ∃ t, exec (.macFinish 4 4 []) (mac 3 [] 0) = .next t := ⟨rfl, _, rfl⟩

theorem witness_FinishClearsContext :
    isFinish (.macFinish 4 4 []) = true ∧ ∃ t, exec (.macFinish 4 4 []) (mac 3 [] 0) = .next t := ⟨rfl, _, rfl⟩

theorem witness_StepKeepsResponsesSound :
    (∀ r ∈ (onHost (.command [])).responses, ResponseSound r) ∧ ∃ t, step (onHost (.command [])) = .next t :=
  ⟨by decide, _, rfl⟩

/-- A packet that feeds an AAD byte. -/
def aadPacket (s : State) : State := s.setPending [.command [0x51, 0, 0, 0, 0, 1, 9]]

theorem witness_StepKeepsContextInvariant :
    ContextInv (aadPacket fresh) ∧ ∃ t, step (aadPacket fresh) = .next t :=
  ⟨⟨by decide, by decide, by decide, by decide, by decide⟩, _, rfl⟩

theorem witness_StepKeepsCcmStreamInvariant :
    ContextInv (aadPacket fresh) ∧ CcmStreamInv (aadPacket fresh).ccm ∧ CcmCounterInv (aadPacket fresh).ccm ∧
      ∃ t, step (aadPacket fresh) = .next t :=
  ⟨⟨by decide, by decide, by decide, by decide, by decide⟩, ⟨by decide, by decide, by decide, by decide⟩, by decide, _, rfl⟩

/-- The counter's clause at the ends of a text block. -/
theorem witness_CcmCounterInv :
    ∀ n ∈ [0, 1, 15, 16, 17, 20], CcmCounterInv (textAt .encryptText n).ccm := by decide

theorem witness_PadCommand :
    ((1 : Byte) ≠ 0) ∧ (zeros 65520).length > 65519 ∧
    ((zeros 65519).length ≤ 65519 ∧ (0xffef : Half).toNat < 16 * ((zeros 65519).length / 16 + 1)) ∧
    ((zeros 65519).length ≤ 65519 ∧ 16 * ((zeros 65519).length / 16 + 1) ≤ (0xfff0 : Half).toNat) := by
  simp only [zeros, rep, List.length_replicate]; decide

theorem witness_UnpadCommand :
    ((1 : Byte) ≠ 0) ∧ ((zeros 0).length = 0 ∨ (zeros 0).length % 16 ≠ 0) ∧
    ((zeros 15).length = 0 ∨ (zeros 15).length % 16 ≠ 0) ∧
    ((zeros 16).length ≠ 0 ∧ (zeros 16).length % 16 = 0 ∧ (14 : Half).toNat < (zeros 16).length - 1) ∧
    ((zeros 16).length - 1 ≤ (15 : Half).toNat) ∧
    (zeros 15 ++ [1] = zeros 15 ++ List.replicate 1 (BitVec.ofNat 8 1) ∧ (zeros 15 ++ [1]).length = 16) ∧
    (rep 16 16 = [] ++ List.replicate 16 (BitVec.ofNat 8 16) ∧ (rep 16 16).length = 16) ∧
    (∀ (b : List Byte) (p : Nat), 1 ≤ p → p ≤ 16 → zeros 16 ≠ b ++ List.replicate p (BitVec.ofNat 8 p)) :=
  ⟨by decide, by decide, by decide, by decide, by decide, by decide, by decide, not_padded _ (by decide)⟩

theorem witness_UnpadOfPad :
    (zeros 65519).length ≤ 65519 ∧ 16 * ((zeros 65519).length / 16 + 1) ≤ (0xfff0 : Half).toNat := by
  simp only [zeros, rep, List.length_replicate]; decide

theorem witness_CbcInitCommand :
    (zeros 3).length = 3 ∧ ((zeros 18).length ≠ 3 ∧ (zeros 18).length ≠ 19) ∧
    ((zeros 19).length ≠ 3 ∧ (2 : Byte).toNat ≥ 2) ∧ ((zeros 16).length = 16 ∧ (1 : Byte).toNat < 2) := by decide

theorem witness_CbcEncUpdateResult :
    let s := cbc .enc (pad1 15)
    ContextInv s ∧ Honest s.bc ∧ (s.cbc.phase = .ready ∨ s.cbc.phase = .enc) ∧
      updateDemand s.straps (16 * ((pendingThen s.cbc.core.pend s.cbc.core.plen.val [9]).length / 16)) 1 ≤
        (16 : Half).toNat :=
  ⟨⟨by decide, by decide, by decide, by decide, by decide⟩, by decide, by decide, by decide⟩

theorem witness_CbcEncFinishResult :
    (let s := cbc .ready (pad1 0)
     ContextInv s ∧ Honest s.bc ∧ s.cbc.phase = .ready ∧ s.cbc.core.pad = true ∧ 16 ≤ (16 : Half).toNat) ∧
    (let s := cbc .enc (pad0 0)
     ContextInv s ∧ Honest s.bc ∧ s.cbc.phase = .enc ∧ s.cbc.core.pad = false ∧ s.cbc.core.plen = 0) ∧
    (let s := cbc .enc (pad0 15)
     ContextInv s ∧ Honest s.bc ∧ s.cbc.phase = .enc ∧ s.cbc.core.pad = false ∧ s.cbc.core.plen ≠ 0 ∧
      s.straps.legacyZeroPad = true) :=
  ⟨⟨⟨by decide, by decide, by decide, by decide, by decide⟩, by decide⟩,
    ⟨⟨by decide, by decide, by decide, by decide, by decide⟩, by decide⟩,
    ⟨⟨by decide, by decide, by decide, by decide, by decide⟩, by decide⟩⟩

theorem witness_CbcDecUpdateResult :
    let s := cbcHeld (pad1 15) (blk 5)
    ContextInv s ∧ Honest s.bc ∧ (s.cbc.phase = .ready ∨ s.cbc.phase = .dec) ∧
      (let ys := wholeBlocks (pendingThen s.cbc.core.pend s.cbc.core.plen.val [9])
       let queue := [s.cbc.held] ++ cbcPlain (bcDec s.bc s.cbc.core.keyref) s.cbc.core.chain ys
       updateDemand s.straps (16 * queue.dropLast.length) 1 ≤ (16 : Half).toNat) :=
  ⟨⟨by decide, by decide, by decide, by decide, by decide⟩, by decide, by decide, Nat.le_refl 16⟩

theorem witness_CbcDecFinishResult :
    (let s := heldEnd 0 1
     ContextInv s ∧ Honest s.bc ∧ s.cbc.phase = .dec ∧ s.cbc.core.pad = true ∧ s.cbc.core.plen = 0 ∧
      s.cbc.heldv = true ∧ 15 ≤ (15 : Half).toNat ∧
      s.cbc.held.toList = upFrom 0 15 ++ List.replicate 1 (BitVec.ofNat 8 1)) ∧
    (let s := cbc .ready (pad0 0)
     ContextInv s ∧ Honest s.bc ∧ s.cbc.phase = .ready ∧ s.cbc.core.pad = false ∧ s.cbc.core.plen = 0) ∧
    (let s := cbc .dec (pad0 1)
     ContextInv s ∧ Honest s.bc ∧ s.cbc.phase = .dec ∧ s.cbc.core.pad = false ∧ s.cbc.core.plen ≠ 0 ∧
      s.straps.legacyZeroPad = true ∧ 16 ≤ (16 : Half).toNat) :=
  ⟨⟨⟨by decide, by decide, by decide, by decide, by decide⟩, by decide⟩,
    ⟨⟨by decide, by decide, by decide, by decide, by decide⟩, by decide⟩,
    ⟨⟨by decide, by decide, by decide, by decide, by decide⟩, by decide⟩⟩

theorem witness_CbcUpdateErrors :
    (cbc .enc (pad1 1)).cbc.phase = .enc ∧ (cbc .dec (pad1 1)).cbc.phase = .dec ∧ (0x80 : Byte) ≠ 0 ∧
    (15 : Half).toNat < updateDemand (cbc .enc (pad1 1)).straps (16 * ((1 + 1) / 16)) 1 ∧
    (15 : Half).toNat < updateDemand (strict (cbc .enc (pad1 1))).straps (16 * ((1 + 15) / 16)) 15 ∧
    (15 : Half).toNat < updateDemand (strict (heldEnd 1 1)).straps (16 * ((1 + 15) / 16)) 15 := by decide

theorem witness_CbcFinishErrors :
    (cbc .ready (pad1 0)).cbc.phase = .ready ∧ [(0 : Byte)] ≠ [] ∧ (15 : Half).toNat < 16 ∧
    (cbc .ready (pad1 0)).cbc.core.pad = true ∧
    (let s := strict (cbc .enc (pad0 1))
     s.cbc.phase = .enc ∧ s.cbc.core.pad = false ∧ s.cbc.core.plen ≠ 0 ∧ s.straps.legacyZeroPad = false) ∧
    (let s := cbc .dec (pad0 15)
     s.cbc.phase = .dec ∧ s.cbc.core.pad = false ∧ s.cbc.core.plen ≠ 0 ∧ s.straps.legacyZeroPad = true) ∧
    (let s := strict (cbc .dec (pad0 15))
     s.cbc.phase = .dec ∧ s.cbc.core.pad = false ∧ s.cbc.core.plen ≠ 0 ∧ s.straps.legacyZeroPad = false) ∧
    (let s := heldEnd 1 1
     s.cbc.phase = .dec ∧ s.cbc.core.pad = true ∧ s.cbc.core.plen ≠ 0) ∧
    (let s := heldEnd 0 0
     s.cbc.phase = .dec ∧ s.cbc.core.pad = true ∧ s.cbc.core.plen = 0 ∧ s.cbc.heldv = true ∧ (14 : Half).toNat < 15 ∧
      15 ≤ (15 : Half).toNat) ∧
    (∀ (b : List Byte) (p : Nat), 1 ≤ p → p ≤ 16 →
      (heldEnd 0 0).cbc.held.toList ≠ b ++ List.replicate p (BitVec.ofNat 8 p)) :=
  ⟨by decide, by decide, by decide, by decide, by decide, by decide, by decide, by decide, by decide,
    not_padded _ (by decide)⟩

theorem witness_CbcDecryptOfEncrypt :
    Honest State.reset.bc ∧ (zeros 16).length = 16 ∧
    ((1 : Byte).toNat = 1 ∧ (zeros 65519).length ≤ 65519) ∧
    ((0 : Byte).toNat = 0 ∧ (zeros 65520).length % 16 = 0 ∧ (zeros 65520).length ≤ 65520) := by
  simp only [zeros, rep, List.length_replicate]; decide

theorem witness_CbcUpdateSplit :
    Honest (cbc .ready (pad1 7)).bc ∧ (cbc .ready (pad1 7)).cbc.phase = .ready ∧
    (zeros 32760).length + (zeros 32760).length ≤ 65520 := by
  simp only [zeros, rep, List.length_replicate]; decide

theorem witness_CmacInitCommand : (zeros 2).length ≠ 3 ∧ (1 : Byte) ≠ 0 ∧ (0 : Byte) = 0 := by decide

theorem witness_CmacUpdateResult :
    ContextInv (cmac 3 (upFrom 1 16) 16) ∧ Honest (cmac 3 (upFrom 1 16) 16).bc ∧
    (cmac 3 (upFrom 1 16) 16).cmac.phase = .active :=
  ⟨⟨by decide, by decide, by decide, by decide, by decide⟩, by decide, by decide⟩

theorem witness_CmacFinishResult :
    (∀ n ∈ [(0 : Fin 17), 15, 16], Honest (cmac 3 (upFrom 1 n.val) n).bc ∧
      (cmac 3 (upFrom 1 n.val) n).cmac.phase = .active) ∧ (16 : Byte).toNat ≤ 16 ∧ (16 : Byte).toNat ≤ (16 : Half).toNat := by
  decide

theorem witness_CmacErrors :
    (cmac 3 [] 0).cmac.phase = .active ∧ (1 : Byte) ≠ 0 ∧ (17 : Byte).toNat > 16 ∧
    ((16 : Byte).toNat ≤ 16 ∧ (15 : Half).toNat < (16 : Byte).toNat) := by decide

theorem witness_MacUpdateSplit :
    Honest (cmac 3 [] 0).bc ∧ (cmac 3 [] 0).cmac.phase = .active ∧ Honest (mac 3 [] 0).bc ∧
    (mac 3 [] 0).mac.phase = .active := by decide

theorem witness_CtrInitCommand : (zeros 18).length ≠ 19 ∧ (zeros 16).length = 16 := by decide

theorem witness_IncrementStaysInField : 1 ≤ 1 ∧ 16 ≤ 16 := by decide

theorem witness_CtrBlockResult :
    (let s := ctr 16 5
     Honest s.bc ∧ s.ctr.phase = .active ∧ widthAccepted s.straps s.ctr.core.w) ∧
    (let s := noop (ctr 0 5)
     Honest s.bc ∧ s.ctr.phase = .active ∧ widthAccepted s.straps s.ctr.core.w) ∧
    (zeros 16).length = 16 ∧ 16 ≤ (16 : Half).toNat := by
  simp only [widthAccepted]; decide

theorem witness_NonceBytesKept :
    (∃ t, exec (.ctrEncBlock 0 16 (zeros 16)) (toy (ctr 4 5)) = .next t ∧
      t.responses = (toy (ctr 4 5)).responses ++ [okResponse 0 16 (be 0x0102030405060708090a0b0c0d0e0a10 16)]) ∧
    (okResponse 0 16 (be 0x0102030405060708090a0b0c0d0e0a10 16)).status = .ok ∧ 11 < 16 - (ctr 4 5).ctr.core.w.toNat :=
  ⟨⟨_, rfl, by decide⟩, by decide⟩

theorem witness_CtrBlockErrors :
    (ctr 17 0).ctr.phase = .active ∧ (ctr 17 0).ctr.core.w.toNat > 16 ∧
    ((ctr 0 0).ctr.phase = .active ∧ (ctr 0 0).ctr.core.w = 0 ∧ (ctr 0 0).straps.ctrWidth0 = .reject) ∧
    (zeros 15).length ≠ 16 ∧
    (widthAccepted (ctr 16 0).straps (ctr 16 0).ctr.core.w ∧ (zeros 16).length = 16 ∧ (15 : Half).toNat < 16) := by
  simp only [widthAccepted]; decide

theorem witness_MacInitCommand : (zeros 4).length ≠ 3 ∧ (1 : Byte) ≠ 0 ∧ (0 : Byte) = 0 := by decide

theorem witness_MacUpdateResult :
    ContextInv (mac 3 (upFrom 1 15) 15) ∧ Honest (mac 3 (upFrom 1 15) 15).bc ∧
    (mac 3 (upFrom 1 15) 15).mac.phase = .active :=
  ⟨⟨by decide, by decide, by decide, by decide, by decide⟩, by decide, by decide⟩

theorem witness_MacFinishCommand :
    State.reset.mac.phase ≠ .active ∧ (mac 3 [] 0).mac.phase = .active ∧ (17 : Byte).toNat > 16 ∧
    ((16 : Byte).toNat ≤ 16 ∧ (mac 3 (upFrom 1 15) 15).mac.phase = .active ∧
      (mac 3 (upFrom 1 15) 15).mac.core.plen ≠ 0) ∧
    ((mac 3 [] 0).mac.core.plen = 0 ∧ (15 : Half).toNat < (16 : Byte).toNat) ∧
    (16 : Byte).toNat ≤ (16 : Half).toNat := by decide

theorem witness_CcmInitResult :
    Honest State.reset.bc ∧ (4 : Byte).toNat ∈ [4, 6, 8, 10, 12, 14, 16] ∧ 7 ≤ (zeros 7).length ∧
    (zeros 13).length ≤ 13 ∧ 2 ^ 64 - 1 < 2 ^ 64 ∧ 2 ^ 64 - 1 < 2 ^ (8 * (15 - (zeros 7).length)) ∧
    2 ^ 16 - 1 < 2 ^ (8 * (15 - (zeros 13).length)) := by decide

theorem witness_CcmInitErrors :
    (2 : Byte).toNat ∉ [4, 6, 8, 10, 12, 14, 16] ∧ (17 : Byte).toNat ∉ [4, 6, 8, 10, 12, 14, 16] ∧
    (zeros 19).length < 20 ∧ (([0, 1, 0, 6] ++ zeros 22 : List Byte).getD 3 0).toNat < 7 ∧
    (([0, 1, 0, 14] ++ zeros 30 : List Byte).getD 3 0).toNat > 13 ∧
    ([0, 1, 0, 13] ++ zeros 30 : List Byte).length ≠ 20 + 13 ∧
    intBe (slice ([0, 1, 0, 13] ++ zeros 8 ++ be (2 ^ 16) 8 ++ zeros 13) 12 8) ≥ 2 ^ (8 * (15 - 13)) := by decide

theorem witness_AadPrefixForms :
    0 < 1 ∧ 0xFEFF < 0xFF00 ∧ 0xFF00 < 2 ^ 32 ∧ 2 ^ 32 - 1 < 2 ^ 32 ∧ 2 ^ 64 - 1 < 2 ^ 64 := by decide

theorem witness_CcmAadUpdateResult :
    (ContextInv fresh ∧ Honest fresh.bc ∧ fresh.ccm.phase = .init ∧
      fresh.ccm.aadcons.toNat + (zeros 5).length ≤ fresh.ccm.aadsize.toNat) ∧
    (ContextInv (aadAt 1) ∧ Honest (aadAt 1).bc ∧ (aadAt 1).ccm.phase = .aad ∧
      (aadAt 1).ccm.aadcons.toNat + (zeros 4).length ≤ (aadAt 1).ccm.aadsize.toNat) :=
  ⟨⟨⟨by decide, by decide, by decide, by decide, by decide⟩, by decide⟩,
    ⟨⟨by decide, by decide, by decide, by decide, by decide⟩, by decide⟩⟩

theorem witness_CcmAadFinishResult :
    ContextInv (aadAt 5) ∧ Honest (aadAt 5).bc ∧ (aadAt 5).ccm.phase = .aad ∧
    (aadAt 5).ccm.aadcons = (aadAt 5).ccm.aadsize :=
  ⟨⟨by decide, by decide, by decide, by decide, by decide⟩, by decide⟩

theorem witness_CcmTextUpdateResult :
    (let s := textAt .encryptText 15
     ContextInv s ∧ CcmStreamInv s.ccm ∧ Honest s.bc ∧ s.ccm.phase = .encryptText ∧
      s.ccm.textcons.toNat + (zeros 5).length ≤ s.ccm.textsize.toNat ∧ (zeros 5).length ≤ (5 : Half).toNat) ∧
    (let s := textAt .decryptText 16
     ContextInv s ∧ CcmStreamInv s.ccm ∧ Honest s.bc ∧ s.ccm.phase = .decryptText ∧
      s.ccm.textcons.toNat + (zeros 4).length ≤ s.ccm.textsize.toNat ∧ (zeros 4).length ≤ (4 : Half).toNat) :=
  ⟨⟨⟨by decide, by decide, by decide, by decide, by decide⟩, ⟨by decide, by decide, by decide, by decide⟩, by decide⟩,
    ⟨⟨by decide, by decide, by decide, by decide, by decide⟩, ⟨by decide, by decide, by decide, by decide⟩, by decide⟩⟩

theorem witness_CcmEncFinishResult :
    let s := textAt .encryptText 20
    ContextInv s ∧ CcmStreamInv s.ccm ∧ Honest s.bc ∧ s.ccm.phase = .encryptText ∧ s.ccm.textcons = s.ccm.textsize ∧
      s.ccm.tagsize.toNat ≤ (8 : Half).toNat :=
  ⟨⟨by decide, by decide, by decide, by decide, by decide⟩, ⟨by decide, by decide, by decide, by decide⟩, by decide⟩

theorem witness_CcmDecFinishResult :
    let s := textAt .decryptText 20
    ContextInv s ∧ CcmStreamInv s.ccm ∧ Honest s.bc ∧ s.ccm.phase = .decryptText ∧ s.ccm.textcons = s.ccm.textsize ∧
      (zeros 8).length = s.ccm.tagsize.toNat :=
  ⟨⟨by decide, by decide, by decide, by decide, by decide⟩, ⟨by decide, by decide, by decide, by decide⟩, by decide⟩

theorem witness_CcmOpenOfSeal :
    let s := textAt .aadFinish 0
    ContextInv s ∧ CcmStreamInv s.ccm ∧ Honest s.bc ∧ s.ccm.phase = .aadFinish ∧
      (zeros 20).length = s.ccm.textsize.toNat ∧ (zeros 20).length ≤ 65520 :=
  ⟨⟨by decide, by decide, by decide, by decide, by decide⟩, ⟨by decide, by decide, by decide, by decide⟩, by decide⟩

theorem witness_TagCompareLeavesNoTrace : (zeros 8).length = (upFrom 1 8).length := by decide

theorem witness_CcmBudgetChecks :
    ((aadAt 5).ccm.phase = .aad ∧ (aadAt 5).ccm.aadcons.toNat + (zeros 1).length > (aadAt 5).ccm.aadsize.toNat) ∧
    ((aadAt 4).ccm.phase = .aad ∧ (aadAt 4).ccm.aadcons ≠ (aadAt 4).ccm.aadsize) ∧
    (∀ p ∈ [CcmPhase.encryptText, .decryptText],
      (textAt p 20).ccm.textcons.toNat + (zeros 1).length > (textAt p 20).ccm.textsize.toNat ∧
      (textAt p 19).ccm.textcons ≠ (textAt p 19).ccm.textsize ∧ (textAt p 20).ccm.phase = p ∧
      (zeros 8).length = (textAt p 19).ccm.tagsize.toNat) := by decide

theorem witness_CcmArgumentErrors :
    (aadAt 5).ccm.phase = .aad ∧ (1 : Byte) ≠ 0 ∧ zeros 1 ≠ [] ∧
    (∀ p ∈ [CcmPhase.encryptText, .decryptText], (textAt p 19).ccm.phase = p ∧
      ((textAt p 19).ccm.textcons.toNat + (zeros 1).length ≤ (textAt p 19).ccm.textsize.toNat ∧
        (0 : Half).toNat < (zeros 1).length) ∧
      (7 : Byte) ≠ (textAt p 19).ccm.tagsize ∧ (zeros 7).length ≠ (textAt p 19).ccm.tagsize.toNat ∧
      ((textAt p 20).ccm.textcons = (textAt p 20).ccm.textsize ∧
        (7 : Half).toNat < (textAt p 20).ccm.tagsize.toNat)) := by decide

theorem witness_CcmUpdateSplit :
    (ContextInv fresh ∧ CcmStreamInv fresh.ccm ∧ Honest fresh.bc ∧ fresh.ccm.phase = .init ∧
      fresh.ccm.aadcons.toNat + (zeros 2).length + (zeros 3).length ≤ fresh.ccm.aadsize.toNat) ∧
    (let s := textAt .decryptText 7
     ContextInv s ∧ CcmStreamInv s.ccm ∧ Honest s.bc ∧ (zeros 9).length + (zeros 4).length ≤ 65520 ∧
      s.ccm.textcons.toNat + (zeros 9).length + (zeros 4).length ≤ s.ccm.textsize.toNat ∧
      s.ccm.phase = .decryptText) :=
  ⟨⟨⟨by decide, by decide, by decide, by decide, by decide⟩, ⟨by decide, by decide, by decide, by decide⟩, by decide⟩,
    ⟨⟨by decide, by decide, by decide, by decide, by decide⟩, ⟨by decide, by decide, by decide, by decide⟩, by decide⟩⟩

end Sys2Proof.Tests
end

section
/-! SUPPORT. What a command does to its own engine's context, said once: one relation per engine, every command's checks
included, and the walk through the commands that ties the relations to `exec`. -/

namespace Sys2Proof.Machine

/-! ## Steps, by the host's next event -/

theorem step_idle {s : State} (h : s.pending = []) : step s = .next s := by
  simp only [step, h]

theorem step_reset {s : State} {straps : Straps} {rest : List HostEvent} (h : s.pending = .reset straps :: rest) :
    step s = .next (resetEvent straps (s.setPending rest)) := by
  simp only [step, h]

theorem step_command {s : State} {packet : List Byte} {rest : List HostEvent} {i : Instr}
    (h : s.pending = .command packet :: rest) (hd : decode packet = .ok i) :
    step s = exec i (s.setPending rest) := by
  simp only [step, h, hd]

theorem step_rejected {s : State} {packet : List Byte} {rest : List HostEvent} {err : DecodeError}
    (h : s.pending = .command packet :: rest) (hd : decode packet = .error err) :
    step s = rejectPacket (s.setPending rest) := by
  simp only [step, h, hd]

/-! ## The moves of the contexts -/

/-- What CBC commands do to their context (R62 to R66): any of them may clear it, by an error or at the end of a
stream. Each relation states the checks that speak of the context. -/
inductive CbcMove : Instr → CbcCtx → CbcCtx → Prop
  | clear {i : Instr} {C : CbcCtx} : CbcMove i C (clearCbc C)
  | start {arg : Byte} {cap : Half} {d : List Byte} {C : CbcCtx} : CbcMove (.cbcInit arg cap d) C (cbcStart arg d)
  | encUpdate {arg : Byte} {cap : Half} {d : List Byte} {C : CbcCtx} {p q : BcPort} {r : List Byte × CbcCore}
      (hphase : C.phase = .ready ∨ C.phase = .enc) (hfed : feed cbcEncByte C.core d p = .ok r q) :
      CbcMove (.cbcEncUpdate arg cap d) C { C with core := r.2, phase := .enc }
  | decUpdate {arg : Byte} {cap : Half} {d : List Byte} {C : CbcCtx} {p q : BcPort} {r : List Byte × CbcCtx}
      (hphase : C.phase = .ready ∨ C.phase = .dec) (hfed : feed cbcDecByte C d p = .ok r q) :
      CbcMove (.cbcDecUpdate arg cap d) C { r.2 with phase := .dec }

/-- What CMAC commands do to their context (R72 to R74). -/
inductive CmacMove : Instr → CmacCtx → CmacCtx → Prop
  | clear {i : Instr} {C : CmacCtx} : CmacMove i C (clearCmac C)
  | start {arg : Byte} {cap : Half} {d : List Byte} {C : CmacCtx} : CmacMove (.cmacInit arg cap d) C (cmacStart d)
  | update {arg : Byte} {cap : Half} {d : List Byte} {C : CmacCtx} {p q : BcPort} {r : List Byte × CmacCtx}
      (hphase : C.phase = .active) (hfed : feed cmacByte C d p = .ok r q) : CmacMove (.cmacUpdate arg cap d) C r.2

/-- What CTR commands do to their context (R77, R78, R80). -/
inductive CtrMove : Instr → CtrCtx → CtrCtx → Prop
  | clear {i : Instr} {C : CtrCtx} : CtrMove i C (clearCtr C)
  | start {arg : Byte} {cap : Half} {d : List Byte} {C : CtrCtx} : CtrMove (.ctrInit arg cap d) C (ctrStart arg d)
  | encBlock {arg : Byte} {cap : Half} {d : List Byte} {C : CtrCtx} (hphase : C.phase = .active) :
      CtrMove (.ctrEncBlock arg cap d) C { C with core := ctrStep C.core }
  | decBlock {arg : Byte} {cap : Half} {d : List Byte} {C : CtrCtx} (hphase : C.phase = .active) :
      CtrMove (.ctrDecBlock arg cap d) C { C with core := ctrStep C.core }

/-- What CBC-MAC commands do to their context (R84 to R86). -/
inductive MacMove : Instr → MacCtx → MacCtx → Prop
  | clear {i : Instr} {C : MacCtx} : MacMove i C (clearMac C)
  | start {arg : Byte} {cap : Half} {d : List Byte} {C : MacCtx} :
      MacMove (.macInit arg cap d) C { core := macCoreStart (payloadKeyRef d), phase := .active }
  | update {arg : Byte} {cap : Half} {d : List Byte} {C : MacCtx} {p q : BcPort} {m : MacCore}
      (hphase : C.phase = .active) (hfed : macFeed C.core d p = .ok m q) :
      MacMove (.macUpdate arg cap d) C { C with core := m }

/-- The checks of CCM.INIT (R94). -/
structure CcmParamsOk (arg : Byte) (d : List Byte) : Prop where
  tagSize : arg.toNat ∈ ccmTagSizes
  ivLow : 7 ≤ ccmIvSize d
  ivHigh : ccmIvSize d ≤ 13
  length : d.length = 20 + ccmIvSize d
  textSize : ccmTextSize d < 2 ^ (8 * (15 - ccmIvSize d))

/-- What CCM commands do to their context (R94 to R102). A CCM.INIT whose `B0` request fails clears the context it has
just set up, new key handle and all (log entry 15). -/
inductive CcmMove : Instr → CcmCtx → CcmCtx → Prop
  | clear {i : Instr} {C : CcmCtx} : CcmMove i C (clearCcm C)
  | startFailed {arg : Byte} {cap : Half} {d : List Byte} {C : CcmCtx} (hok : CcmParamsOk arg d) :
      CcmMove (.ccmInit arg cap d) C (clearCcm (ccmStart arg d))
  | start {arg : Byte} {cap : Half} {d : List Byte} {C : CcmCtx} {p q : BcPort} {m : MacCore} (hok : CcmParamsOk arg d)
      (hfed : macFeed (ccmStart arg d).mac (ccmB0 arg.toNat (ccmAadSize d) (ccmTextSize d) (ccmIv d)) p = .ok m q) :
      CcmMove (.ccmInit arg cap d) C { ccmStart arg d with mac := m }
  | aadUpdate {arg : Byte} {cap : Half} {d : List Byte} {C : CcmCtx} {p q : BcPort} {m : MacCore}
      (hphase : C.phase = .init ∨ C.phase = .aad) (hroom : C.aadcons.toNat + d.length ≤ C.aadsize.toNat)
      (hfed : ((macFeed C.mac (ccmFirstAad C) p).andThen fun m p => macFeed m d p) = .ok m q) :
      CcmMove (.ccmAadUpdate arg cap d) C
        { C with mac := m, aadcons := C.aadcons + BitVec.ofNat 64 d.length, phase := .aad }
  | aadFinish {arg : Byte} {cap : Half} {d : List Byte} {C : CcmCtx} {p q : BcPort} {m : MacCore}
      (hphase : C.phase = .init ∨ C.phase = .aad) (hall : C.aadcons = C.aadsize) (hfed : ccmFlush C.mac p = .ok m q) :
      CcmMove (.ccmAadFinish arg cap d) C { C with mac := m, phase := .aadFinish }
  | encUpdate {arg : Byte} {cap : Half} {d : List Byte} {C : CcmCtx} {p q : BcPort} {r : List Byte × CcmCtx}
      (hphase : C.phase = .aadFinish ∨ C.phase = .encryptText)
      (hroom : C.textcons.toNat + d.length ≤ C.textsize.toNat) (hfed : feed (ccmTextByte .enc) C d p = .ok r q) :
      CcmMove (.ccmEncUpdate arg cap d) C { r.2 with phase := .encryptText }
  | decUpdate {arg : Byte} {cap : Half} {d : List Byte} {C : CcmCtx} {p q : BcPort} {r : List Byte × CcmCtx}
      (hphase : C.phase = .aadFinish ∨ C.phase = .decryptText)
      (hroom : C.textcons.toNat + d.length ≤ C.textsize.toNat) (hfed : feed (ccmTextByte .dec) C d p = .ok r q) :
      CcmMove (.ccmDecUpdate arg cap d) C { r.2 with phase := .decryptText }

/-- The context of engine `e` has made a move of the command `i`; the PKCS7 codec has none (R42). -/
def Moved (e : Eng) (i : Instr) (s t : State) : Prop :=
  match e with
  | .p7 => True
  | .cbc => CbcMove i s.cbc t.cbc
  | .cmac => CmacMove i s.cmac t.cmac
  | .ctr => CtrMove i s.ctr t.ctr
  | .mac => MacMove i s.mac t.mac
  | .ccm => CcmMove i s.ccm t.ccm

/-! ## Walking through a command's checks -/

/-- Whenever a result is a next state, that state meets `Q`. -/
def Leaves (Q : State → Prop) (res : Result) : Prop := ∀ t, res = .next t → Q t

section
variable {α : Type} {Q : State → Prop} {e : Eng} {i : Instr} {s t : State}

theorem Leaves.ite {c : Prop} [Decidable c] {a b : Result} (ha : c → Leaves Q a) (hb : ¬c → Leaves Q b) :
    Leaves Q (if c then a else b) := by
  split
  · exact ha ‹_›
  · exact hb ‹_›

theorem Leaves.next (h : Q t) : Leaves Q (.next t) := by
  rintro _ ⟨⟩
  exact h

theorem Leaves.respond {aux : Byte} {req : Nat} {out : List Byte}
    (h : Q (s.addResponse (okResponse aux req out))) : Leaves Q (Machine.respond aux req out s) := Leaves.next h

/-- Error entry is a move of every command: the context is cleared (R112). -/
theorem Leaves.raise {err : Err} {p : BcPort} : Leaves (Moved e i s) (Machine.raise e err (s.setBc p)) := by
  apply Leaves.next
  cases e
  exacts [trivial, .clear, .clear, .clear, .clear, .clear]

/-- A check, and what follows when it passes. -/
theorem Leaves.check {c : Prop} [Decidable c] {err : Err} {res : Result} (h : ¬c → Leaves (Moved e i s) res) :
    Leaves (Moved e i s) (if c then Machine.raise e err s else res) :=
  .ite (fun _ => .raise (p := s.bc)) h

/-- Requests: what follows when none fails, and error entry when one does (R114). -/
theorem Leaves.runCipher {r : BcResult α} {k : α → State → Result}
    (hok : ∀ a p, r = .ok a p → Leaves Q (k a (s.setBc p)))
    (hfail : ∀ c p, Leaves Q (Machine.raise e (.ioError c) (s.setBc p))) : Leaves Q (Machine.runCipher e r s k) := by
  cases r with
  | ok a p => exact hok a p rfl
  | failed c p => exact hfail c p

/-- Requests of a command that has not yet written its context. -/
theorem Leaves.requests {r : BcResult α} {k : α → State → Result}
    (h : ∀ a p, r = .ok a p → Leaves (Moved e i s) (k a (s.setBc p))) :
    Leaves (Moved e i s) (Machine.runCipher e r s k) := .runCipher h fun _ _ => .raise

end

/-- The function the two CTR block commands share (R80) steps the counter of an active context. -/
theorem ctrBlock_leaves {i : Instr} {arg : Byte} {cap : Half} {d : List Byte} {s : State}
    (hmove : s.ctr.phase = .active → CtrMove i s.ctr { s.ctr with core := ctrStep s.ctr.core }) :
    Leaves (Moved .ctr i s) (ctrBlock arg cap d s) :=
  .check fun hphase => .check fun _ => .check fun _ => .check fun _ => .requests fun _ _ _ =>
    .respond (hmove (not_not.mp hphase))

/-- Every command moves its own engine's context by one of that engine's moves. -/
theorem exec_leaves (i : Instr) (s : State) : Leaves (Moved (engOf i) i s) (exec i s) := by
  cases i with
  | p7Pad => exact fun _ _ => trivial
  | p7Unpad => exact fun _ _ => trivial
  | cbcInit arg cap d =>
    exact .check (e := .cbc) fun _ => .check fun _ => .respond .start
  | cbcEncUpdate arg cap d =>
    exact .check (e := .cbc) fun hphase => .check fun _ => .check fun _ => .requests fun _ _ hfed =>
      .respond (.encUpdate (or_iff_not_and_not.mpr hphase) hfed)
  | cbcEncFinish arg cap d =>
    have hlast (x : Block) : Leaves (Moved .cbc (.cbcEncFinish arg cap d) s) (cbcEncLast x s) :=
      .requests fun _ _ _ => .respond .clear
    exact .check (e := .cbc) fun _ => .check fun _ => .ite
      (fun _ => .check fun _ => hlast _)
      fun _ => .ite (fun _ => .respond .clear) fun _ => .check fun _ => .check fun _ => hlast _
  | cbcDecUpdate arg cap d =>
    exact .check (e := .cbc) fun hphase => .check fun _ => .check fun _ => .requests fun _ _ hfed =>
      .respond (.decUpdate (or_iff_not_and_not.mpr hphase) hfed)
  | cbcDecFinish arg cap d =>
    refine .check (e := .cbc) fun _ => .check fun _ => .ite
      (fun _ => .check fun _ => .check fun _ => ?_)
      fun _ => .ite (fun _ => .respond .clear) fun _ => .check fun _ => .check fun _ => .requests fun _ _ _ =>
        .respond .clear
    cases unpad7 s.cbc.held.toList with
    | none => exact .raise (p := s.bc)
    | some out => exact .respond .clear
  | cmacInit arg cap d =>
    exact .check (e := .cmac) fun _ => .respond .start
  | cmacUpdate arg cap d =>
    exact .check (e := .cmac) fun hphase => .check fun _ => .requests fun _ _ hfed =>
      .respond (.update (not_not.mp hphase) hfed)
  | cmacFinish arg cap d =>
    exact .check (e := .cmac) fun _ => .check fun _ => .check fun _ => .requests fun _ _ _ => .respond .clear
  | ctrInit arg cap d => exact .check (e := .ctr) fun _ => .respond .start
  | ctrEncBlock arg cap d => exact ctrBlock_leaves .encBlock
  | ctrDecBlock arg cap d => exact ctrBlock_leaves .decBlock
  | macInit arg cap d =>
    exact .check (e := .mac) fun _ => .respond .start
  | macUpdate arg cap d =>
    exact .check (e := .mac) fun hphase => .check fun _ => .requests fun _ _ hfed =>
      .respond (.update (not_not.mp hphase) hfed)
  | macFinish arg cap d =>
    exact .check (e := .mac) fun _ => .check fun _ => .check fun _ => .check fun _ => .respond .clear
  | ccmInit arg cap d =>
    refine .check (e := .ccm) fun htag => .check fun _ => .check fun hiv => .check fun hlen => .check fun htext => ?_
    obtain ⟨hlow, hhigh⟩ := not_or.mp hiv
    have hok : CcmParamsOk arg d :=
      ⟨not_not.mp htag, not_lt.mp hlow, not_lt.mp hhigh, not_not.mp hlen, not_le.mp htext⟩
    exact .runCipher (fun _ _ hfed => .respond (.start hok hfed)) fun _ _ => .next (.startFailed hok)
  | ccmAadUpdate arg cap d =>
    exact .check (e := .ccm) fun hphase => .check fun _ => .check fun hroom => .requests fun _ _ hfed =>
      .respond (.aadUpdate (or_iff_not_and_not.mpr hphase) (not_lt.mp hroom) hfed)
  | ccmAadFinish arg cap d =>
    exact .check (e := .ccm) fun hphase => .check fun _ => .check fun hall => .requests fun _ _ hfed =>
      .respond (.aadFinish (or_iff_not_and_not.mpr hphase) (not_not.mp hall) hfed)
  | ccmEncUpdate arg cap d =>
    exact .check (e := .ccm) fun hphase => .check fun _ => .check fun hroom => .check fun _ => .requests
      fun _ _ hfed => .respond (.encUpdate (or_iff_not_and_not.mpr hphase) (not_lt.mp hroom) hfed)
  | ccmEncFinish arg cap d =>
    exact .check (e := .ccm) fun _ => .check fun _ => .check fun _ => .check fun _ => .requests fun _ _ _ =>
      .respond .clear
  | ccmDecUpdate arg cap d =>
    exact .check (e := .ccm) fun hphase => .check fun _ => .check fun hroom => .check fun _ => .requests
      fun _ _ hfed => .respond (.decUpdate (or_iff_not_and_not.mpr hphase) (not_lt.mp hroom) hfed)
  | ccmDecFinish arg cap d =>
    exact .check (e := .ccm) fun _ => .check fun _ => .check fun _ => .requests fun _ _ _ => .respond .clear

/-- A command that ends in `t` has moved its own engine's context. -/
theorem exec_moved {i : Instr} {s t : State} (h : exec i s = .next t) : Moved (engOf i) i s t := exec_leaves i s t h

end Sys2Proof.Machine
end

section
/-! SUPPORT. What the data paths keep of a context, whatever the requests answer. -/

namespace Sys2Proof.Machine

/-! ## One byte -/

/-- A byte of a CBC encrypt stream is buffered, or completes a block that becomes the chaining value (R63). -/
theorem cbcEncByte_ok {S : CbcCore} {b : Byte} {p q : BcPort} {r : List Byte × CbcCore}
    (h : cbcEncByte S b p = .ok r q) :
    (∃ hn : S.plen.val + 1 < 16, r.2 = { S with pend := S.pend.set S.plen.val b, plen := ⟨S.plen.val + 1, hn⟩ }) ∨
      ∃ y, r.2 = { S with chain := y, pend := Block.zero, plen := 0 } := by
  rcases bufferByte_cases S.pend S.plen b with ⟨hn, hb⟩ | ⟨-, hb⟩ <;> simp only [cbcEncByte, hb] at h
  · simp only [BcResult.ok.injEq] at h
    exact .inl ⟨hn, by rw [← h.1]⟩
  · obtain ⟨a, _, henc, hr⟩ := andThen_eq_ok.mp h
    simp only [BcResult.ok.injEq] at hr
    exact .inr ⟨a.1, by rw [← hr.1, cbcEncBlock_ok henc]⟩

/-- A byte of a CBC decrypt stream is buffered, or completes a block that becomes the chaining value and whose plaintext
leaves the engine (R65). -/
theorem cbcDecByte_ok {C : CbcCtx} {b : Byte} {p q : BcPort} {r : List Byte × CbcCtx}
    (h : cbcDecByte C b p = .ok r q) :
    (∃ hn : C.core.plen.val + 1 < 16, r.2 = { C with core :=
        { C.core with pend := C.core.pend.set C.core.plen.val b, plen := ⟨C.core.plen.val + 1, hn⟩ } }) ∨
      ∃ y x, r.2 = (cbcRelease { C with core := { C.core with chain := y, pend := Block.zero, plen := 0 } } x).2 := by
  rcases bufferByte_cases C.core.pend C.core.plen b with ⟨hn, hb⟩ | ⟨-, hb⟩ <;> simp only [cbcDecByte, hb] at h
  · simp only [BcResult.ok.injEq] at h
    exact .inl ⟨hn, by rw [← h.1]⟩
  · obtain ⟨a, _, hdec, hr⟩ := andThen_eq_ok.mp h
    simp only [BcResult.ok.injEq] at hr
    exact .inr ⟨_, a.1, by rw [← hr.1, cbcDecBlock_ok hdec]⟩

/-- A byte of a CMAC stream joins the lookahead, or begins a new one after the full one is folded in (R73). -/
theorem cmacByte_ok {C : CmacCtx} {b : Byte} {p q : BcPort} {r : List Byte × CmacCtx} (h : cmacByte C b p = .ok r q) :
    (∃ hn : C.plen.val < 16, r.2 = { C with pend := C.pend.set C.plen.val b, plen := ⟨C.plen.val + 1, by omega⟩ }) ∨
      ∃ y, r.2 = { C with cbc := { C.cbc with chain := y }, pend := Block.zero.set 0 b, plen := 1 } := by
  unfold cmacByte at h
  split at h
  · simp only [BcResult.ok.injEq] at h
    exact .inl ⟨‹_›, by rw [← h.1]⟩
  · obtain ⟨a, _, henc, hr⟩ := andThen_eq_ok.mp h
    simp only [BcResult.ok.injEq] at hr
    exact .inr ⟨a.1, by rw [← hr.1, cbcEncBlock_ok henc]⟩

/-- A byte of `mac_feed` is buffered, or completes a block that is folded into the chaining value (R83). -/
theorem macByte_ok {M : MacCore} {b : Byte} {p q : BcPort} {r : List Byte × MacCore} (h : macByte M b p = .ok r q) :
    (∃ hn : M.plen.val + 1 < 16, r.2 = { M with pend := M.pend.set M.plen.val b, plen := ⟨M.plen.val + 1, hn⟩ }) ∨
      ∃ y, r.2 = { cbc := { M.cbc with chain := y }, pend := Block.zero, plen := 0 } := by
  rcases bufferByte_cases M.pend M.plen b with ⟨hn, hb⟩ | ⟨-, hb⟩ <;> simp only [macByte, hb] at h
  · simp only [BcResult.ok.injEq] at h
    exact .inl ⟨hn, by rw [← h.1]⟩
  · obtain ⟨a, _, henc, hr⟩ := andThen_eq_ok.mp h
    simp only [BcResult.ok.injEq] at hr
    exact .inr ⟨a.1, by rw [← hr.1, cbcEncBlock_ok henc]⟩

/-- The keystream step of a text byte writes `KS` and the counter block, the latter only at the first byte of a text
block (R97). -/
theorem ccmKeystream_ok {C C' : CcmCtx} {p q : BcPort} (h : ccmKeystream C p = .ok C' q) :
    ∃ ks, C' = { C with ks := ks, ctr := { C.ctr with
      cb := if C.textcons.toNat % 16 = 0 then inc C.ctr.cb C.ctr.w.toNat else C.ctr.cb } } := by
  unfold ccmKeystream at h
  split at h
  · obtain ⟨ks, _, -, hr⟩ := andThen_eq_ok.mp h
    simp only [BcResult.ok.injEq] at hr
    exact ⟨ks, by rw [← hr.1, if_pos ‹_›]⟩
  · simp only [BcResult.ok.injEq] at h
    exact ⟨C.ks, by rw [← h.1, if_neg ‹_›]⟩

/-- A text byte of a CCM stream: the keystream step, one byte through the CBC-MAC, `TEXTCONS` one more (R97). -/
theorem ccmTextByte_ok {dir : CcmDir} {C : CcmCtx} {b : Byte} {p q : BcPort} {r : List Byte × CcmCtx}
    (h : ccmTextByte dir C b p = .ok r q) :
    ∃ ks m x p', macFeed C.mac [x] p' = .ok m q ∧ r.2 = { C with
      mac := m, ks := ks, textcons := C.textcons + 1, ctr := { C.ctr with
        cb := if C.textcons.toNat % 16 = 0 then inc C.ctr.cb C.ctr.w.toNat else C.ctr.cb } } := by
  obtain ⟨C', p', hks, hrest⟩ := andThen_eq_ok.mp h
  obtain ⟨m, _, hfed, hr⟩ := andThen_eq_ok.mp hrest
  obtain ⟨ks, rfl⟩ := ccmKeystream_ok hks
  simp only [BcResult.ok.injEq] at hr
  obtain ⟨rfl, rfl⟩ := hr
  exact ⟨ks, m, _, p', hfed, rfl⟩

/-! ## A byte string -/

variable {d : List Byte} {p q : BcPort}

/-- A property that speaks of the number of bytes consumed, kept by every byte, holds after a byte string. -/
theorem feed_counts {σ : Type} {f : σ → Byte → BcPort → BcResult (List Byte × σ)} {P : Nat → σ → Prop}
    (hf : ∀ n S b p r q, P n S → f S b p = .ok r q → P (n + 1) r.2) {n : Nat} {S : σ} {r : List Byte × σ} (hS : P n S)
    (h : feed f S d p = .ok r q) : P (n + d.length) r.2 := by
  induction d generalizing n S p r with
  | nil =>
    simp only [feed_nil, BcResult.ok.injEq] at h
    exact h.1 ▸ hS
  | cons b bs ih =>
    obtain ⟨a, _, hbyte, hrest⟩ := andThen_eq_ok.mp h
    obtain ⟨a', _, hfed, hr⟩ := andThen_eq_ok.mp hrest
    simp only [BcResult.ok.injEq] at hr
    obtain ⟨rfl, rfl⟩ := hr
    have hlast : P (n + 1 + bs.length) a'.2 := ih (hf _ _ _ _ _ _ hS hbyte) hfed
    rwa [List.length_cons, Nat.add_comm bs.length, ← Nat.add_assoc]

/-- An encrypt stream keeps its key handle. -/
theorem feed_cbcEncByte_keyref {S : CbcCore} {r : List Byte × CbcCore} (h : feed cbcEncByte S d p = .ok r q) :
    r.2.keyref = S.keyref := by
  refine feed_keeps (P := fun S' => S'.keyref = S.keyref) (fun S' b p r q hk hb => ?_) rfl h
  rcases cbcEncByte_ok hb with ⟨_, hr⟩ | ⟨_, hr⟩ <;> rw [hr] <;> exact hk

/-- An encrypt stream keeps the bytes after the pending ones zero. -/
theorem feed_cbcEncByte_zeroTail {S : CbcCore} {r : List Byte × CbcCore} (hz : ZeroTail S.pend S.plen.val)
    (h : feed cbcEncByte S d p = .ok r q) : ZeroTail r.2.pend r.2.plen.val := by
  refine feed_keeps (P := fun S => ZeroTail S.pend S.plen.val) (fun S b p r q hz hb => ?_) hz h
  rcases cbcEncByte_ok hb with ⟨_, hr⟩ | ⟨_, hr⟩ <;> rw [hr]
  · exact zeroTail_set b S.plen.isLt hz
  · exact zeroTail_zero _

theorem cbcRelease_core (C : CbcCtx) (x : Block) : (cbcRelease C x).2.core = C.core := by
  unfold cbcRelease
  split <;> rfl

/-- The buffers of a decrypt stream (R18, I22): a block is held back only with padding enabled, `HELD` is zero when it
holds none, and so are the bytes after the pending ones. -/
def DecBuffers (C : CbcCtx) : Prop :=
  ZeroTail C.core.pend C.core.plen.val ∧ (C.heldv = true → C.core.pad = true) ∧
    (C.heldv = false → C.held = Block.zero)

theorem cbcRelease_decBuffers {C : CbcCtx} (x : Block) (h : DecBuffers C) : DecBuffers (cbcRelease C x).2 := by
  unfold cbcRelease
  split
  · exact ⟨h.1, fun _ => ‹_›, fun hv => nomatch hv⟩
  · exact h

/-- A decrypt stream keeps its key handle. -/
theorem feed_cbcDecByte_keyref {C : CbcCtx} {r : List Byte × CbcCtx} (h : feed cbcDecByte C d p = .ok r q) :
    r.2.core.keyref = C.core.keyref := by
  refine feed_keeps (P := fun C' => C'.core.keyref = C.core.keyref) (fun C' b p r q hk hb => ?_) rfl h
  rcases cbcDecByte_ok hb with ⟨_, hr⟩ | ⟨_, _, hr⟩ <;> rw [hr]
  · exact hk
  · rw [cbcRelease_core]; exact hk

/-- A decrypt stream keeps its buffers in order. -/
theorem feed_cbcDecByte_decBuffers {C : CbcCtx} {r : List Byte × CbcCtx} (hC : DecBuffers C)
    (h : feed cbcDecByte C d p = .ok r q) : DecBuffers r.2 := by
  refine feed_keeps (fun C b p r q hC hb => ?_) hC h
  obtain ⟨hz, hpad, hheld⟩ := hC
  rcases cbcDecByte_ok hb with ⟨_, hr⟩ | ⟨_, x, hr⟩ <;> rw [hr]
  · exact ⟨zeroTail_set b C.core.plen.isLt hz, hpad, hheld⟩
  · exact cbcRelease_decBuffers x ⟨zeroTail_zero _, hpad, hheld⟩

/-- A CMAC stream keeps its key handle and phase. -/
theorem feed_cmacByte_keyref_phase {C : CmacCtx} {r : List Byte × CmacCtx} (h : feed cmacByte C d p = .ok r q) :
    r.2.cbc.keyref = C.cbc.keyref ∧ r.2.phase = C.phase := by
  refine feed_keeps (P := fun C' => C'.cbc.keyref = C.cbc.keyref ∧ C'.phase = C.phase)
    (fun C' b p r q hk hb => ?_) ⟨rfl, rfl⟩ h
  rcases cmacByte_ok hb with ⟨_, hr⟩ | ⟨_, hr⟩ <;> rw [hr] <;> exact hk

/-- A CMAC stream keeps the bytes after its lookahead zero and its inner CBC buffer empty (R18). -/
theorem feed_cmacByte_buffers {C : CmacCtx} {r : List Byte × CmacCtx}
    (hC : ZeroTail C.pend C.plen.val ∧ InnerEmpty C.cbc) (h : feed cmacByte C d p = .ok r q) :
    ZeroTail r.2.pend r.2.plen.val ∧ InnerEmpty r.2.cbc := by
  refine feed_keeps (P := fun C => ZeroTail C.pend C.plen.val ∧ InnerEmpty C.cbc) (fun C b p r q hC hb => ?_) hC h
  obtain ⟨hz, hin⟩ := hC
  rcases cmacByte_ok hb with ⟨hn, hr⟩ | ⟨_, hr⟩ <;> rw [hr]
  · exact ⟨zeroTail_set b hn hz, hin⟩
  · exact ⟨zeroTail_set b (by omega) (zeroTail_zero 0), hin⟩

theorem macFeed_ok {M m : MacCore} (h : macFeed M d p = .ok m q) : ∃ out, feed macByte M d p = .ok (out, m) q := by
  obtain ⟨⟨out, m'⟩, _, hfed, hr⟩ := andThen_eq_ok.mp h
  simp only [BcResult.ok.injEq] at hr
  obtain ⟨rfl, rfl⟩ := hr
  exact ⟨out, hfed⟩

/-- `mac_feed` keeps the key handle. -/
theorem macFeed_keyref {M m : MacCore} (h : macFeed M d p = .ok m q) : m.cbc.keyref = M.cbc.keyref := by
  obtain ⟨_, hfed⟩ := macFeed_ok h
  refine feed_keeps (P := fun M' => M'.cbc.keyref = M.cbc.keyref) (fun M' b p r q hk hb => ?_) rfl hfed
  rcases macByte_ok hb with ⟨_, hr⟩ | ⟨_, hr⟩ <;> rw [hr] <;> exact hk

/-- `mac_feed` keeps R18 of a `MacCore`. -/
theorem macFeed_inv {M m : MacCore} (hM : MacCoreInv M) (h : macFeed M d p = .ok m q) : MacCoreInv m := by
  obtain ⟨_, hfed⟩ := macFeed_ok h
  refine feed_keeps (P := MacCoreInv) (fun M b p r q hM hb => ?_) hM hfed
  obtain ⟨hz, hin⟩ := hM
  rcases macByte_ok hb with ⟨_, hr⟩ | ⟨_, hr⟩ <;> rw [hr]
  · exact ⟨zeroTail_set b M.plen.isLt hz, hin⟩
  · exact ⟨zeroTail_zero _, hin⟩

/-- A flush feeds some bytes, or none. -/
theorem ccmFlush_eq_macFeed (M : MacCore) (p : BcPort) : ∃ d, ccmFlush M p = macFeed M d p := by
  unfold ccmFlush
  split
  · exact ⟨_, rfl⟩
  · exact ⟨[], rfl⟩

/-- `mac_feed` of two strings, one after the other, is `mac_feed` of their concatenation. -/
theorem macFeed_append (M : MacCore) (d e : List Byte) (p : BcPort) :
    ((macFeed M d p).andThen fun m p' => macFeed m e p') = macFeed M (d ++ e) p := by
  simp only [macFeed, feed_append, andThen_assoc, andThen_ok]

/-- What `n` bytes of a CCM text leave of the context `C` they began with: the sizes and both key handles stay. -/
structure CcmTextKept (C : CcmCtx) (n : Nat) (C' : CcmCtx) : Prop where
  textcons : C'.textcons = C.textcons + BitVec.ofNat 64 n
  textsize : C'.textsize = C.textsize
  aadcons : C'.aadcons = C.aadcons
  aadsize : C'.aadsize = C.aadsize
  macKey : C'.mac.cbc.keyref = C.mac.cbc.keyref
  ctrKey : C'.ctr.keyref = C.ctr.keyref
  mac : MacCoreInv C.mac → MacCoreInv C'.mac

theorem feed_ccmTextByte_kept {dir : CcmDir} {C : CcmCtx} {r : List Byte × CcmCtx}
    (h : feed (ccmTextByte dir) C d p = .ok r q) : CcmTextKept C d.length r.2 := by
  have hstart : CcmTextKept C 0 C := ⟨by simp, rfl, rfl, rfl, rfl, rfl, id⟩
  rw [← Nat.zero_add d.length]
  refine feed_counts (P := CcmTextKept C) (fun n C' b p r q hk hb => ?_) hstart h
  obtain ⟨_, m, x, _, hfed, hr⟩ := ccmTextByte_ok hb
  rw [hr]
  refine ⟨?_, hk.textsize, hk.aadcons, hk.aadsize, (macFeed_keyref hfed).trans hk.macKey, hk.ctrKey,
    fun hM => macFeed_inv (hk.mac hM) hfed⟩
  calc C'.textcons + 1 = C.textcons + 1 + BitVec.ofNat 64 n := by rw [hk.textcons]; ac_rfl
    _ = C.textcons + BitVec.ofNat 64 (n + 1) := textcons_add _ _

end Sys2Proof.Machine
end

section
/-! SUPPORT. What every move keeps of a context: its key handle, R18 between commands, and the end of a stream. -/

namespace Sys2Proof.Machine

/-! ## A cleared context meets R18 -/

theorem cbcInv_of_cleared {C : CbcCtx} (h : clearCbc C = C) : CbcInv C := by
  rw [← h]
  exact ⟨zeroTail_zero _, nofun, fun _ => rfl, fun _ => rfl⟩

theorem cmacInv_of_cleared {C : CmacCtx} (h : clearCmac C = C) : CmacInv C := by
  rw [← h]
  exact ⟨zeroTail_zero _, ⟨rfl, rfl, rfl⟩, fun _ => rfl⟩

theorem macInv_of_cleared {C : MacCtx} (h : clearMac C = C) : MacInv C := by
  rw [← h]
  exact ⟨⟨zeroTail_zero _, rfl, rfl, rfl⟩, fun _ => rfl⟩

/-- Of a CCM context `clear` keeps two key handles, and R18 asks that they be one. -/
theorem ccmInv_of_cleared {C : CcmCtx} (h : clearCcm C = C) (hkey : C.mac.cbc.keyref = C.ctr.keyref) : CcmInv C := by
  rw [← h]
  exact ⟨⟨zeroTail_zero _, rfl, rfl, rfl⟩, le_rfl, le_rfl, hkey, fun _ => rfl⟩

/-- The contexts of the reset state are clear. -/
theorem contextInv_reset : ContextInv State.reset :=
  ⟨cbcInv_of_cleared rfl, cmacInv_of_cleared rfl, fun _ => rfl, macInv_of_cleared rfl, ccmInv_of_cleared rfl rfl⟩

/-- An idle CCM context holds no stream. -/
theorem ccmStreamInv_of_idle {C : CcmCtx} (h : C.phase = .idle) : CcmStreamInv C := by
  simp [CcmStreamInv, h]

theorem ccmCounterInv_of_idle {C : CcmCtx} (h : C.phase = .idle) : CcmCounterInv C := fun hne => absurd h hne

/-! ## CBC -/

theorem CbcMove.keyref {i : Instr} {C C' : CbcCtx} (h : CbcMove i C C') (hi : isInit i = false) :
    C'.core.keyref = C.core.keyref := by
  cases h with
  | clear => rfl
  | start => nomatch hi
  | encUpdate _ hfed => exact feed_cbcEncByte_keyref hfed
  | decUpdate _ hfed => exact feed_cbcDecByte_keyref hfed

theorem CbcMove.eq_clear_of_finish {i : Instr} {C C' : CbcCtx} (h : CbcMove i C C') (hi : isFinish i = true) :
    C' = clearCbc C := by
  cases h with
  | clear => rfl
  | start | encUpdate | decUpdate => nomatch hi

/-- An encrypt stream holds no block back: it began in phase READY or ENC, and R18 allows one in DEC only. -/
theorem CbcMove.inv {i : Instr} {C C' : CbcCtx} (h : CbcMove i C C') (hC : CbcInv C) : CbcInv C' := by
  obtain ⟨hz, hv, hheld, -⟩ := hC
  cases h with
  | clear => exact cbcInv_of_cleared (clearCbc_idem C)
  | start => exact ⟨zeroTail_zero _, nofun, fun _ => rfl, nofun⟩
  | encUpdate hphase hfed =>
    refine ⟨feed_cbcEncByte_zeroTail hz hfed, fun hheldv => ?_, hheld, nofun⟩
    have hdec := (hv hheldv).1
    simp [hdec] at hphase
  | decUpdate _ hfed =>
    obtain ⟨hz', hpad, hheld'⟩ := feed_cbcDecByte_decBuffers ⟨hz, fun h => (hv h).2, hheld⟩ hfed
    exact ⟨hz', fun h => ⟨rfl, hpad h⟩, hheld', nofun⟩

/-! ## CMAC -/

theorem CmacMove.keyref {i : Instr} {C C' : CmacCtx} (h : CmacMove i C C') (hi : isInit i = false) :
    C'.cbc.keyref = C.cbc.keyref := by
  cases h with
  | clear => rfl
  | start => nomatch hi
  | update _ hfed => exact (feed_cmacByte_keyref_phase hfed).1

theorem CmacMove.eq_clear_of_finish {i : Instr} {C C' : CmacCtx} (h : CmacMove i C C') (hi : isFinish i = true) :
    C' = clearCmac C := by
  cases h with
  | clear => rfl
  | start | update => nomatch hi

theorem CmacMove.inv {i : Instr} {C C' : CmacCtx} (h : CmacMove i C C') (hC : CmacInv C) : CmacInv C' := by
  obtain ⟨hz, hin, -⟩ := hC
  cases h with
  | clear => exact cmacInv_of_cleared (clearCmac_idem C)
  | start => exact ⟨zeroTail_zero _, ⟨rfl, rfl, rfl⟩, nofun⟩
  | update hphase hfed =>
    obtain ⟨hz', hin'⟩ := feed_cmacByte_buffers ⟨hz, hin⟩ hfed
    refine ⟨hz', hin', fun hp => ?_⟩
    rw [(feed_cmacByte_keyref_phase hfed).2, hphase] at hp
    nomatch hp

/-! ## CTR -/

theorem ctrStep_keyref (C : CtrCore) : (ctrStep C).keyref = C.keyref := by
  unfold ctrStep
  split <;> rfl

theorem CtrMove.keyref {i : Instr} {C C' : CtrCtx} (h : CtrMove i C C') (hi : isInit i = false) :
    C'.core.keyref = C.core.keyref := by
  cases h with
  | clear => rfl
  | start => nomatch hi
  | encBlock | decBlock => exact ctrStep_keyref _

theorem CtrMove.eq_clear_of_finish {i : Instr} {C C' : CtrCtx} (h : CtrMove i C C') (hi : isFinish i = true) :
    C' = clearCtr C := by
  cases h with
  | clear => rfl
  | start | encBlock | decBlock => nomatch hi

theorem CtrMove.inv {i : Instr} {C C' : CtrCtx} (h : CtrMove i C C') : CtrInv C' := by
  cases h with
  | clear => exact fun _ => clearCtr_idem C
  | start => exact nofun
  | encBlock hphase | decBlock hphase =>
    intro hp
    rw [hphase] at hp
    nomatch hp

/-! ## CBC-MAC -/

theorem MacMove.keyref {i : Instr} {C C' : MacCtx} (h : MacMove i C C') (hi : isInit i = false) :
    C'.core.cbc.keyref = C.core.cbc.keyref := by
  cases h with
  | clear => rfl
  | start => nomatch hi
  | update _ hfed => exact macFeed_keyref hfed

theorem MacMove.eq_clear_of_finish {i : Instr} {C C' : MacCtx} (h : MacMove i C C') (hi : isFinish i = true) :
    C' = clearMac C := by
  cases h with
  | clear => rfl
  | start | update => nomatch hi

theorem macCoreInv_start (k : KeyRef) : MacCoreInv (macCoreStart k) := ⟨zeroTail_zero _, rfl, rfl, rfl⟩

theorem MacMove.inv {i : Instr} {C C' : MacCtx} (h : MacMove i C C') (hC : MacInv C) : MacInv C' := by
  cases h with
  | clear => exact macInv_of_cleared (clearMac_idem C)
  | start => exact ⟨macCoreInv_start _, nofun⟩
  | update hphase hfed =>
    refine ⟨macFeed_inv hC.1 hfed, fun hp => ?_⟩
    rw [hphase] at hp
    nomatch hp

/-! ## CCM -/

theorem ccmFlush_keyref {M m : MacCore} {p q : BcPort} (h : ccmFlush M p = .ok m q) : m.cbc.keyref = M.cbc.keyref := by
  obtain ⟨_, heq⟩ := ccmFlush_eq_macFeed M p
  exact macFeed_keyref (heq ▸ h)

theorem ccmFlush_inv {M m : MacCore} {p q : BcPort} (hM : MacCoreInv M) (h : ccmFlush M p = .ok m q) :
    MacCoreInv m := by
  obtain ⟨_, heq⟩ := ccmFlush_eq_macFeed M p
  exact macFeed_inv hM (heq ▸ h)

theorem CcmMove.keyref {i : Instr} {C C' : CcmCtx} (h : CcmMove i C C') (hi : isInit i = false) :
    C'.mac.cbc.keyref = C.mac.cbc.keyref ∧ C'.ctr.keyref = C.ctr.keyref := by
  cases h with
  | clear => exact ⟨rfl, rfl⟩
  | startFailed | start => nomatch hi
  | aadUpdate _ _ hfed =>
    rw [macFeed_append] at hfed
    exact ⟨macFeed_keyref hfed, rfl⟩
  | aadFinish _ _ hfed => exact ⟨ccmFlush_keyref hfed, rfl⟩
  | encUpdate _ _ hfed | decUpdate _ _ hfed =>
    have hkept := feed_ccmTextByte_kept hfed
    exact ⟨hkept.macKey, hkept.ctrKey⟩

theorem CcmMove.eq_clear_of_finish {i : Instr} {C C' : CcmCtx} (h : CcmMove i C C') (hi : isFinish i = true) :
    C' = clearCcm C := by
  cases h with
  | clear => rfl
  | startFailed | start | aadUpdate | aadFinish | encUpdate | decUpdate => nomatch hi

/-- A 64-bit counter of consumed bytes stays within its size when there was room for the bytes (R103). -/
theorem consumed_le {c size : BitVec 64} {n : Nat} (h : c.toNat + n ≤ size.toNat) :
    (c + BitVec.ofNat 64 n).toNat ≤ size.toNat := by
  have := size.isLt
  rw [BitVec.toNat_add, BitVec.toNat_ofNat]
  omega

/-- A text update keeps R18, in either direction (R97, R103). -/
theorem ccmInv_textUpdate {dir : CcmDir} {C : CcmCtx} {d : List Byte} {p q : BcPort} {r : List Byte × CcmCtx}
    {active : CcmPhase} (hactive : active ≠ .idle) (hC : CcmInv C)
    (hroom : C.textcons.toNat + d.length ≤ C.textsize.toNat) (hfed : feed (ccmTextByte dir) C d p = .ok r q) :
    CcmInv { r.2 with phase := active } := by
  obtain ⟨hmac, haad, -, hkey, -⟩ := hC
  have hkept := feed_ccmTextByte_kept hfed
  refine ⟨hkept.mac hmac, ?_, ?_, ?_, fun hp => absurd hp hactive⟩
  · rw [hkept.aadcons, hkept.aadsize]
    exact haad
  · rw [hkept.textcons, hkept.textsize]
    exact consumed_le hroom
  · rw [hkept.macKey, hkept.ctrKey]
    exact hkey

theorem CcmMove.inv {i : Instr} {C C' : CcmCtx} (h : CcmMove i C C') (hC : CcmInv C) : CcmInv C' := by
  have ⟨hmac, haad, htext, hkey, _⟩ := hC
  cases h with
  | clear => exact ccmInv_of_cleared (clearCcm_idem C) hkey
  | @startFailed arg _ d => exact ccmInv_of_cleared (clearCcm_idem (ccmStart arg d)) rfl
  | start _ hfed =>
    exact ⟨macFeed_inv (macCoreInv_start _) hfed, Nat.zero_le _, Nat.zero_le _, macFeed_keyref hfed, nofun⟩
  | aadUpdate _ hroom hfed =>
    rw [macFeed_append] at hfed
    exact ⟨macFeed_inv hmac hfed, consumed_le hroom, htext, (macFeed_keyref hfed).trans hkey, nofun⟩
  | aadFinish _ _ hfed =>
    exact ⟨ccmFlush_inv hmac hfed, haad, htext, (ccmFlush_keyref hfed).trans hkey, nofun⟩
  | encUpdate _ hroom hfed | decUpdate _ hroom hfed => exact ccmInv_textUpdate (by decide) hC hroom hfed

/-! ## Commands -/

theorem sameOutside_trans {e : Eng} {s t u : State} (hst : sameOutside e s t) (htu : sameOutside e t u) :
    sameOutside e s u := by
  unfold sameOutside at *
  grind

/-- What a command leaves alone: all but its own engine's context, the responses and the port (R19). -/
theorem exec_sameOutside {i : Instr} {s t : State} (h : exec i s = .next t) : sameOutside (engOf i) s t := by
  rcases exec_ends i s with ⟨_, -, hend⟩ | ⟨_, _, _, s', _, hend, hs, -⟩ | ⟨_, s', _, hend, hs, -⟩ <;>
    rw [hend] at h <;> obtain rfl := Host.Outcome.next.inj h
  · exact sameOutside_clearEng _ s
  · exact hs
  · exact sameOutside_trans hs (sameOutside_clearEng _ s')

/-- Each of the five contexts has made one of its engine's moves, or is as it was. -/
theorem exec_contexts {i : Instr} {s t : State} (h : exec i s = .next t) :
    (CbcMove i s.cbc t.cbc ∨ t.cbc = s.cbc) ∧ (CmacMove i s.cmac t.cmac ∨ t.cmac = s.cmac) ∧
      (CtrMove i s.ctr t.ctr ∨ t.ctr = s.ctr) ∧ (MacMove i s.mac t.mac ∨ t.mac = s.mac) ∧
      (CcmMove i s.ccm t.ccm ∨ t.ccm = s.ccm) := by
  have hmove {e : Eng} (he : engOf i = e) : Moved e i s t := he ▸ exec_moved h
  obtain ⟨hcbc, hcmac, hctr, hmac, hccm, -⟩ := exec_sameOutside h
  exact ⟨hcbc.imp_left hmove, hcmac.imp_left hmove, hctr.imp_left hmove, hmac.imp_left hmove, hccm.imp_left hmove⟩

/-- Every command keeps R18. -/
theorem exec_contextInv {i : Instr} {s t : State} (hs : ContextInv s) (h : exec i s = .next t) : ContextInv t := by
  obtain ⟨hcbc, hcmac, hctr, hmac, hccm⟩ := hs
  obtain ⟨mcbc, mcmac, mctr, mmac, mccm⟩ := exec_contexts h
  exact ⟨mcbc.elim (·.inv hcbc) (· ▸ hcbc), mcmac.elim (·.inv hcmac) (· ▸ hcmac), mctr.elim (·.inv) (· ▸ hctr),
    mmac.elim (·.inv hmac) (· ▸ hmac), mccm.elim (·.inv hccm) (· ▸ hccm)⟩

/-- A context that is a cleared one is a fixed point of `clear`. -/
theorem clearEng_of_sameContext {e : Eng} {s t : State} (h : sameContext e (clearEng e s) t) : clearEng e t = t := by
  have hclear {κ : Type} {c : κ → κ} {x y : κ} (hidem : c (c x) = c x) (hy : y = c x) : c y = y := by rw [hy, hidem]
  cases e with
  | p7 => rfl
  | cbc => exact congrArg t.setCbc (hclear (clearCbc_idem s.cbc) h)
  | cmac => exact congrArg t.setCmac (hclear (clearCmac_idem s.cmac) h)
  | ctr => exact congrArg t.setCtr (hclear (clearCtr_idem s.ctr) h)
  | mac => exact congrArg t.setMac (hclear (clearMac_idem s.mac) h)
  | ccm => exact congrArg t.setCcm (hclear (clearCcm_idem s.ccm) h)

/-- A finish command's move is `clear`, whichever its engine. -/
theorem Moved.sameContext_clearEng {e : Eng} {i : Instr} {s t : State} (h : Moved e i s t) (hi : isFinish i = true) :
    sameContext e (clearEng e s) t := by
  cases e with
  | p7 => trivial
  | cbc => exact CbcMove.eq_clear_of_finish h hi
  | cmac => exact CmacMove.eq_clear_of_finish h hi
  | ctr => exact CtrMove.eq_clear_of_finish h hi
  | mac => exact MacMove.eq_clear_of_finish h hi
  | ccm => exact CcmMove.eq_clear_of_finish h hi

end Sys2Proof.Machine
end

section
/-! SUPPORT. Two states that agree on one engine's context, the straps and the BlockCipher port get the same answer from
that engine's commands (R19): both runs make the same checks, the same requests and the same context writes. -/

namespace Sys2Proof.Machine

/-- `u` with engine `e`'s context, the straps and the BlockCipher port of `s`: all that a command of `e` may read. -/
def graft (e : Eng) (s u : State) : State :=
  let own : State :=
    match e with
    | .p7 => u
    | .cbc => u.setCbc s.cbc
    | .cmac => u.setCmac s.cmac
    | .ctr => u.setCtr s.ctr
    | .mac => u.setMac s.mac
    | .ccm => u.setCcm s.ccm
  (own.setStraps s.straps).setBc s.bc

theorem graft_cbc (s u : State) : (graft .cbc s u).cbc = s.cbc := rfl

/-- A state that agrees with `s` on these is its own graft. -/
theorem graft_of_agree {e : Eng} {s u : State} (hctx : sameContext e s u) (hstraps : u.straps = s.straps)
    (hbc : u.bc = s.bc) : graft e s u = u := by
  unfold graft
  rw [← hstraps, ← hbc]
  cases e with
  | p7 => rfl
  | cbc => exact congrArg u.setCbc (Eq.symm hctx)
  | cmac => exact congrArg u.setCmac (Eq.symm hctx)
  | ctr => exact congrArg u.setCtr (Eq.symm hctx)
  | mac => exact congrArg u.setMac (Eq.symm hctx)
  | ccm => exact congrArg u.setCcm (Eq.symm hctx)

/-- Two results are the same answer to engine `e`, given after the responses `l` and `l'`. -/
def SameAnswer (e : Eng) (res res' : Result) (l l' : List Response) : Prop :=
  ∃ t t' r, res = .next t ∧ res' = .next t' ∧ sameContext e t t' ∧ t'.bc = t.bc ∧ t.responses = l ++ [r] ∧
    t'.responses = l' ++ [r]

section
variable {α : Type} {e : Eng} {l l' : List Response} {s s' u : State}

theorem SameAnswer.ite {c : Prop} [Decidable c] {a b a' b' : Result} (ha : SameAnswer e a a' l l')
    (hb : SameAnswer e b b' l l') : SameAnswer e (if c then a else b) (if c then a' else b') l l' := by
  split
  · exact ha
  · exact hb

theorem SameAnswer.respond {aux : Byte} {req : Nat} {out : List Byte} (hctx : sameContext e s s') (hbc : s'.bc = s.bc)
    (hl : s.responses = l) (hl' : s'.responses = l') :
    SameAnswer e (Machine.respond aux req out s) (Machine.respond aux req out s') l l' := by
  subst hl hl'
  refine ⟨_, _, _, rfl, rfl, ?_, hbc, rfl, rfl⟩
  cases e <;> exact hctx

theorem sameContext_clearEng (h : sameContext e s s') : sameContext e (clearEng e s) (clearEng e s') := by
  cases e with
  | p7 => exact h
  | cbc => exact congrArg clearCbc h
  | cmac => exact congrArg clearCmac h
  | ctr => exact congrArg clearCtr h
  | mac => exact congrArg clearMac h
  | ccm => exact congrArg clearCcm h

theorem SameAnswer.raise {err : Err} (hctx : sameContext e s s') (hbc : s'.bc = s.bc) (hl : s.responses = l)
    (hl' : s'.responses = l') : SameAnswer e (Machine.raise e err s) (Machine.raise e err s') l l' := by
  subst hl hl'
  refine ⟨_, _, _, rfl, rfl, ?_, by simp [hbc], by simp; rfl, by simp⟩
  have h := sameContext_clearEng hctx
  cases e <;> exact h

theorem SameAnswer.runCipher {r : BcResult α} {k k' : α → State → Result} (hctx : sameContext e s s')
    (hl : s.responses = l) (hl' : s'.responses = l')
    (hok : ∀ a p, SameAnswer e (k a (s.setBc p)) (k' a (s'.setBc p)) l l') :
    SameAnswer e (Machine.runCipher e r s k) (Machine.runCipher e r s' k') l l' := by
  cases r with
  | ok a p => exact hok a p
  | failed c p => exact .raise (by cases e <;> exact hctx) rfl hl hl'

theorem sameContext_graft (e : Eng) (s u : State) : sameContext e s (graft e s u) := by
  cases e <;> trivial

theorem graft_responses (e : Eng) (s u : State) : (graft e s u).responses = u.responses := by cases e <;> rfl

/-- A check both runs make. -/
theorem SameAnswer.check {c : Prop} [Decidable c] {err : Err} {res res' : Result}
    (h : SameAnswer e res res' s.responses u.responses) :
    SameAnswer e (if c then Machine.raise e err s else res) (if c then Machine.raise e err (graft e s u) else res')
      s.responses u.responses :=
  .ite (.raise (sameContext_graft e s u) rfl rfl (graft_responses e s u)) h

/-- Requests both runs make. -/
theorem SameAnswer.requests {r : BcResult α} {k k' : α → State → Result}
    (h : ∀ a p, SameAnswer e (k a (s.setBc p)) (k' a ((graft e s u).setBc p)) s.responses u.responses) :
    SameAnswer e (Machine.runCipher e r s k) (Machine.runCipher e r (graft e s u) k') s.responses u.responses :=
  .runCipher (sameContext_graft e s u) rfl (graft_responses e s u) h

end

/-- The answer that ends both runs of a command: equal contexts are written, with equal responses. -/
theorem SameAnswer.done {e : Eng} {aux : Byte} {req : Nat} {out : List Byte} {s s' : State}
    (hctx : sameContext e s s') (hbc : s'.bc = s.bc) :
    SameAnswer e (Machine.respond aux req out s) (Machine.respond aux req out s') s.responses s'.responses :=
  .respond hctx hbc rfl rfl

theorem ctrBlock_sameAnswer (arg : Byte) (cap : Half) (d : List Byte) (s u : State) :
    SameAnswer .ctr (ctrBlock arg cap d s) (ctrBlock arg cap d (graft .ctr s u)) s.responses u.responses :=
  .check <| .check <| .check <| .check <| .requests fun _ _ => .done rfl rfl

theorem ccmTextUpdate_sameAnswer (dir : CcmDir) (active : CcmPhase) (arg : Byte) (cap : Half) (d : List Byte)
    (s u : State) :
    SameAnswer .ccm (ccmTextUpdate dir active arg cap d s) (ccmTextUpdate dir active arg cap d (graft .ccm s u))
      s.responses u.responses :=
  .check <| .check <| .check <| .check <| .requests fun _ _ => .done rfl rfl

/-- A command answers a state and its graft alike. -/
theorem exec_sameAnswer (i : Instr) (s u : State) :
    SameAnswer (engOf i) (exec i s) (exec i (graft (engOf i) s u)) s.responses u.responses := by
  cases i with
  | p7Pad arg cap d => exact .check (e := .p7) <| .check <| .check <| .done trivial rfl
  | p7Unpad arg cap d =>
    refine .check (e := .p7) <| .check <| .check ?_
    cases unpad7 d with
    | none => exact .raise (e := .p7) trivial rfl rfl rfl
    | some out => exact .done trivial rfl
  | cbcInit arg cap d => exact .check (e := .cbc) <| .check <| .done rfl rfl
  | cbcEncUpdate arg cap d =>
    exact .check (e := .cbc) <| .check <| .check <| .requests fun _ _ => .done rfl rfl
  | cbcEncFinish arg cap d =>
    have hlast (x : Block) :
        SameAnswer .cbc (cbcEncLast x s) (cbcEncLast x (graft .cbc s u)) s.responses u.responses :=
      .requests fun _ _ => .done rfl rfl
    exact .check (e := .cbc) <| .check <| .ite (.check (hlast _)) <|
      .ite (.done rfl rfl) <| .check <| .check <| hlast _
  | cbcDecUpdate arg cap d =>
    exact .check (e := .cbc) <| .check <| .check <| .requests fun _ _ => .done rfl rfl
  | cbcDecFinish arg cap d =>
    refine .check (e := .cbc) <| .check <| .ite (.check <| .check ?_) <|
      .ite (.done rfl rfl) <| .check <| .check <| .requests fun _ _ => .done rfl rfl
    simp only [engOf, graft_cbc]
    cases unpad7 s.cbc.held.toList with
    | none => exact .raise (e := .cbc) rfl rfl rfl rfl
    | some out => exact .done rfl rfl
  | cmacInit arg cap d => exact .check (e := .cmac) <| .done rfl rfl
  | cmacUpdate arg cap d => exact .check (e := .cmac) <| .check <| .requests fun _ _ => .done rfl rfl
  | cmacFinish arg cap d => exact .check (e := .cmac) <| .check <| .check <| .requests fun _ _ => .done rfl rfl
  | ctrInit arg cap d => exact .check (e := .ctr) <| .done rfl rfl
  | ctrEncBlock arg cap d => exact ctrBlock_sameAnswer arg cap d s u
  | ctrDecBlock arg cap d => exact ctrBlock_sameAnswer arg cap d s u
  | macInit arg cap d => exact .check (e := .mac) <| .done rfl rfl
  | macUpdate arg cap d => exact .check (e := .mac) <| .check <| .requests fun _ _ => .done rfl rfl
  | macFinish arg cap d => exact .check (e := .mac) <| .check <| .check <| .check <| .done rfl rfl
  | ccmInit arg cap d =>
    refine .check (e := .ccm) <| .check <| .check <| .check <| .check <| .runCipher rfl rfl rfl fun m p => ?_
    apply SameAnswer.done <;> rfl
  | ccmAadUpdate arg cap d =>
    exact .check (e := .ccm) <| .check <| .check <| .requests fun _ _ => .done rfl rfl
  | ccmAadFinish arg cap d =>
    exact .check (e := .ccm) <| .check <| .check <| .requests fun _ _ => .done rfl rfl
  | ccmEncUpdate arg cap d => exact ccmTextUpdate_sameAnswer _ _ arg cap d s u
  | ccmEncFinish arg cap d =>
    exact .check (e := .ccm) <| .check <| .check <| .check <| .requests fun _ _ => .done rfl rfl
  | ccmDecUpdate arg cap d => exact ccmTextUpdate_sameAnswer _ _ arg cap d s u
  | ccmDecFinish arg cap d =>
    exact .check (e := .ccm) <| .check <| .check <| .requests fun _ _ => .done rfl rfl

end Sys2Proof.Machine
end

section
/-! CERTIFICATE. The statements of spec/10_state.md: what a command reads and writes, what `clear` and reset leave, and
the invariant of the contexts. -/

namespace Sys2Proof.Machine

/-- Settles O19: reset leaves clear contexts, a refused packet leaves the contexts, and a command moves at most its own
engine's context, by a move that keeps R18. -/
theorem stepKeepsContextInvariant : Obligations.StepKeepsContextInvariant := by
  intro s t hs h
  cases hp : s.pending with
  | nil =>
    rw [step_idle hp] at h
    exact Host.Outcome.next.inj h ▸ hs
  | cons event rest =>
    cases event with
    | reset straps =>
      rw [step_reset hp] at h
      obtain rfl := Host.Outcome.next.inj h
      exact contextInv_reset
    | command packet =>
      cases hd : decode packet with
      | error err =>
        rw [step_rejected hp hd] at h
        obtain rfl := Host.Outcome.next.inj h
        exact hs
      | ok i =>
        rw [step_command hp hd] at h
        exact exec_contextInv (s := s.setPending rest) hs h

/-- Settles O15: the frame is `exec_sameOutside`; for the rest, the second state is its own graft, and a command answers
a state and its graft alike. -/
theorem enginesIndependent : Obligations.EnginesIndependent := by
  refine ⟨fun i s t h => exec_sameOutside h, fun i s s' hctx hstraps hbc => ?_⟩
  have hsame := exec_sameAnswer i s s'
  rwa [graft_of_agree hctx hstraps hbc] at hsame

/-- Settles O16: clearing and every move that is not the start of a stream keep the key handles. -/
theorem keyrefWrittenOnlyByInit : Obligations.KeyrefWrittenOnlyByInit := by
  intro i s t hi h
  obtain ⟨mcbc, mcmac, mctr, mmac, mccm⟩ := exec_contexts h
  exact ⟨mcbc.elim (·.keyref hi) (· ▸ rfl), mcmac.elim (·.keyref hi) (· ▸ rfl), mctr.elim (·.keyref hi) (· ▸ rfl),
    mmac.elim (·.keyref hi) (· ▸ rfl), mccm.elim (·.keyref hi) (· ▸ ⟨rfl, rfl⟩)⟩

/-- Settles O17: a finish command has no move but `clear`. -/
theorem finishClearsContext : Obligations.FinishClearsContext :=
  fun _ _ _ hi h => clearEng_of_sameContext ((exec_moved h).sameContext_clearEng hi)

/-- Settles O7, from the step equation of a reset event. -/
theorem resetValues : Obligations.ResetValues := by
  intro s straps rest h
  refine ⟨resetEvent straps (s.setPending rest), step_reset h, rfl, rfl, rfl, rfl, ?_⟩
  exact ⟨rfl, rfl, rfl, rfl, rfl, rfl, rfl, rfl, rfl, rfl, rfl⟩

/-- Settles O10: one equation per engine. -/
theorem clearZeroesAllButKeyref : Obligations.ClearZeroesAllButKeyref := fun _ => ⟨rfl, rfl, rfl, rfl, rfl, rfl⟩

/-- Settles O21: the reset contexts are clear, and an idle CCM context holds no stream. -/
theorem resetMeetsInvariants : Obligations.ResetMeetsInvariants :=
  ⟨contextInv_reset, ccmStreamInv_of_idle rfl, ccmCounterInv_of_idle rfl⟩

end Sys2Proof.Machine
end

section
/-! SUPPORT. The packet of a command, and how a command answers: the decoder reads back what the encoder wrote, and
every command ends in one next state with one more response. -/

namespace Sys2Proof.Machine

/-! ## The packet of a command -/

/-- The opcode map names each command by its own opcode and operand fields (R50). -/
theorem commandOf_opcode (i : Instr) : commandOf i.opcode i.arg i.outcap i.payload = some i := by cases i <;> rfl

/-- `OUTCAP` survives its two big-endian bytes (R40). -/
theorem ofNat_intBe_be (cap : Half) : BitVec.ofNat 16 (intBe (be cap.toNat 2)) = cap := by
  rw [intBe_be cap.isLt, BitVec.ofNat_toNat, BitVec.setWidth_eq]

/-- The packet of a well-formed command decodes to it (R40, R43, R50): `LEN` fits its two bytes, so neither check of the
length fails. -/
theorem decode_encode {i : Instr} (hi : i.WellFormed) : decode (encode i) = .ok i := by
  have hlen : intBe (be i.payload.length 2) = i.payload.length := intBe_be (Nat.lt_of_le_of_lt hi (by decide))
  have hcap := ofNat_intBe_be i.outcap
  simp only [be] at hlen hcap
  simp only [encode, be, List.cons_append, List.nil_append, decode, hlen, hcap, gt_iff_lt, Nat.not_lt.mpr hi, ne_eq,
    not_true_eq_false, if_false, commandOf_opcode]

/-! ## The response of a command -/

/-- `IOError` is the status of a failed request only (R105, R114). -/
theorem errStatus_eq_ioError {err : Err} (h : errStatus err = .ioError) : ∃ c, err = .ioError c := by
  cases err with
  | ioError c => exact ⟨c, rfl⟩
  | _ => contradiction

/-- A command ends in a next state with one response more (R26). -/
theorem Ends.one_response {e : Eng} {s : State} {res : Result} (h : Ends e s res) :
    ∃ t r, res = .next t ∧ t.responses = s.responses ++ [r] := by
  obtain ⟨err, -, rfl⟩ | ⟨aux, req, out, s', rs, rfl, -, hresp, -⟩ | ⟨c, s', rs, rfl, -, hresp, -⟩ := h
  · exact ⟨_, errResponse err, rfl, by simp⟩
  · exact ⟨_, okResponse aux req out, rfl, by simp [hresp]⟩
  · exact ⟨_, errResponse (.ioError c), rfl, by simp [hresp]⟩

theorem exec_one_response (i : Instr) (s : State) : ∃ t r, exec i s = .next t ∧ t.responses = s.responses ++ [r] :=
  (exec_ends i s).one_response

/-- After error entry the engine's context is clear (R112). -/
theorem clearEng_raised (e : Eng) (s : State) (r : Response) :
    clearEng e ((clearEng e s).addResponse r) = (clearEng e s).addResponse r := by
  cases e <;> rfl

end Sys2Proof.Machine
end

section
/-! CERTIFICATE. The statements of spec/20_memory.md: what a step runs, that it always answers, and what a failed
BlockCipher request does. -/

namespace Sys2Proof.Machine

/-- Settles O5: the step equation of a packet that decodes, at the packet `encode` writes. -/
theorem stepRunsDecodedCommand : Obligations.StepRunsDecodedCommand :=
  fun _ _ _ hi h => step_command h (decode_encode hi)

/-- Settles O8: a packet either decodes to a command, which answers once and leaves the host's later events, or is
answered by the rejection. -/
theorem everyCommandHasOneResponse : Obligations.EveryCommandHasOneResponse := by
  refine ⟨exec_one_response, fun s packet rest h => ?_⟩
  cases hd : decode packet with
  | ok i =>
    obtain ⟨t, r, hexec, hresp⟩ := exec_one_response i (s.setPending rest)
    obtain ⟨-, -, -, -, -, -, hpending⟩ := exec_sameOutside hexec
    exact ⟨t, r, (step_command h hd).trans hexec, hresp, hpending⟩
  | error err => exact ⟨_, errResponse .badParam, step_rejected h hd, rfl, rfl⟩

/-- Settles O13, by the three ways a command ends: an error raised by a check issues no request, an answer met no
failure, and a failed request was the last one issued, no failure having come before it. -/
theorem blockCipherFailureEndsCommand : Obligations.BlockCipherFailureEndsCommand := by
  intro i s t h
  obtain ⟨err, hcheck, hend⟩ | ⟨aux, req, out, s', rs, hend, -, hresp, hbc, hnone⟩ |
    ⟨c, s', rs, hend, -, hresp, hbc, hne, hlast, hbefore⟩ := exec_ends i s
  all_goals
    rw [hend] at h
    obtain rfl := Host.Outcome.next.inj h
  · refine ⟨[], errResponse err, by simp, by simp, fun j c hj => absurd hj (Nat.not_lt_zero j), fun hio => ?_⟩
    obtain ⟨c, rfl⟩ := errStatus_eq_ioError hio
    exact absurd rfl (hcheck c)
  · exact ⟨rs, okResponse aux req out, hbc, by simp [hresp], fun j c hj hdraw => absurd hdraw (hnone j c hj), nofun⟩
  · refine ⟨rs, errResponse (.ioError c), by simp [hbc], by simp [hresp], fun j d hj hdraw => ?_,
      fun _ => ⟨c, hne, hlast⟩⟩
    obtain rfl : j = rs.length - 1 := by
      by_contra hearlier
      exact hbefore j d (by omega) hdraw
    obtain rfl : c = d := by simpa [hlast] using hdraw
    exact ⟨by omega, rfl, clearEng_raised _ s' _⟩

end Sys2Proof.Machine
end

section
/-! SUPPORT. The decoder inverted: what a byte string that decodes is, and which verdict every other one gets. -/

namespace Sys2Proof.Machine

/-! ## The opcode map -/

/-- A command the opcode map gives carries the four fields it was read from (R50). -/
theorem commandOf_eq_some {opc arg : Byte} {cap : Half} {d : List Byte} {i : Instr}
    (h : commandOf opc arg cap d = some i) :
    i.opcode = opc ∧ i.arg = arg ∧ i.outcap = cap ∧ i.payload = d := by
  unfold commandOf at h
  split at h
  case h_24 => cases h
  all_goals
    rename_i hopc
    obtain rfl := Option.some.inj h
    exact ⟨BitVec.eq_of_toNat_eq hopc.symm, rfl, rfl, rfl⟩

/-- The reserved opcodes are exactly those the map does not list (R44, R50): engine by engine, the function numbers
above the last listed one. -/
theorem reservedOpc_iff {opc arg : Byte} {cap : Half} {d : List Byte} :
    reservedOpc opc ↔ commandOf opc arg cap d = none := by
  unfold reservedOpc commandOf
  split
  case h_24 =>
    simp only [imp_false, iff_true] at *
    by_cases heng : opc.toNat / 16 ≥ 6
    · exact .inl heng
    · interval_cases heq : opc.toNat / 16
      · exact .inr (.inl ⟨rfl, by omega⟩)
      · exact .inr (.inr (.inl ⟨rfl, by omega⟩))
      · exact .inr (.inr (.inr (.inl ⟨rfl, by omega⟩)))
      · exact .inr (.inr (.inr (.inr (.inl ⟨rfl, by omega⟩))))
      · exact .inr (.inr (.inr (.inr (.inr (.inl ⟨rfl, by omega⟩)))))
      · exact .inr (.inr (.inr (.inr (.inr (.inr ⟨rfl, by omega⟩)))))
  all_goals
    rename_i hopc
    simp only [hopc, reduceCtorEq, iff_false]
    decide

/-- No command has a reserved opcode. -/
theorem not_reservedOpc_opcode (i : Instr) : ¬ reservedOpc i.opcode := fun hres =>
  Option.some_ne_none i ((commandOf_opcode i).symm.trans (reservedOpc_iff.mp hres))

/-! ## The header -/

/-- A byte string of at least 6 bytes is a header and what follows it (R40). -/
theorem exists_header {bs : List Byte} (h : 6 ≤ bs.length) :
    ∃ opc arg c1 c0 l1 l0 d, bs = opc :: arg :: c1 :: c0 :: l1 :: l0 :: d := by
  match bs, h with
  | opc :: arg :: c1 :: c0 :: l1 :: l0 :: d, _ => exact ⟨opc, arg, c1, c0, l1, l0, d, rfl⟩

theorem decode_short {bs : List Byte} (h : bs.length < 6) : decode bs = .error .tooShort := by
  unfold decode
  split
  · simp only [List.length_cons] at h
    omega
  · rfl

section
variable {opc arg c1 c0 l1 l0 : Byte} {d : List Byte}

/-- Past the header, a byte string is malformed by its two lengths only (R43). -/
theorem malformed_header :
    malformed (opc :: arg :: c1 :: c0 :: l1 :: l0 :: d) ↔
      d.length ≠ intBe [l1, l0] ∨ intBe [l1, l0] > Config.maxLen := by
  have hslice : slice (opc :: arg :: c1 :: c0 :: l1 :: l0 :: d) 4 2 = [l1, l0] := rfl
  simp only [malformed, hslice, List.length_cons, Config.maxLen]
  omega

theorem decode_header_lenAboveMax (h : intBe [l1, l0] > Config.maxLen) :
    decode (opc :: arg :: c1 :: c0 :: l1 :: l0 :: d) = .error .lenAboveMax := if_pos h

theorem decode_header_lengthMismatch (hmax : intBe [l1, l0] ≤ Config.maxLen) (h : d.length ≠ intBe [l1, l0]) :
    decode (opc :: arg :: c1 :: c0 :: l1 :: l0 :: d) = .error .lengthMismatch :=
  (if_neg (not_lt.mpr hmax)).trans (if_pos h)

/-- With both lengths in order the opcode map decides (R43, R50). -/
theorem decode_header_command {i : Instr} (hmax : intBe [l1, l0] ≤ Config.maxLen) (hlen : d.length = intBe [l1, l0])
    (h : commandOf opc arg (BitVec.ofNat 16 (intBe [c1, c0])) d = some i) :
    decode (opc :: arg :: c1 :: c0 :: l1 :: l0 :: d) = .ok i := by
  simp only [decode, not_lt.mpr hmax, hlen, ne_eq, not_true_eq_false, if_false, h]

theorem decode_header_reserved (hmax : intBe [l1, l0] ≤ Config.maxLen) (hlen : d.length = intBe [l1, l0])
    (h : commandOf opc arg (BitVec.ofNat 16 (intBe [c1, c0])) d = none) :
    decode (opc :: arg :: c1 :: c0 :: l1 :: l0 :: d) = .error (.reservedOpcode opc) := by
  simp only [decode, not_lt.mpr hmax, hlen, ne_eq, not_true_eq_false, if_false, h]

end

/-! ## The verdict on a byte string -/

/-- A malformed byte string gets one of the three malformed verdicts (R43). -/
theorem decode_malformed {bs : List Byte} (h : malformed bs) :
    decode bs = .error .tooShort ∨ decode bs = .error .lenAboveMax ∨ decode bs = .error .lengthMismatch := by
  by_cases hshort : bs.length < 6
  · exact .inl (decode_short hshort)
  obtain ⟨opc, arg, c1, c0, l1, l0, d, rfl⟩ := exists_header (not_lt.mp hshort)
  by_cases hmax : intBe [l1, l0] > Config.maxLen
  · exact .inr (.inl (decode_header_lenAboveMax hmax))
  · exact .inr (.inr (decode_header_lengthMismatch (not_lt.mp hmax) ((malformed_header.mp h).resolve_right hmax)))

/-- Any other byte string is the packet of a command, or has a reserved opcode (R43, R44). -/
theorem decode_not_malformed {bs : List Byte} (h : ¬ malformed bs) :
    (∃ i, decode bs = .ok i ∧ i.WellFormed ∧ encode i = bs) ∨
      (reservedOpc (bs.getD 0 0) ∧ decode bs = .error (.reservedOpcode (bs.getD 0 0))) := by
  obtain ⟨opc, arg, c1, c0, l1, l0, d, rfl⟩ := exists_header (not_lt.mp fun hshort => h (.inl hshort))
  obtain ⟨hlen, hmax⟩ := not_or.mp (mt malformed_header.mpr h)
  rw [not_not] at hlen
  rw [gt_iff_lt, not_lt] at hmax
  cases hcmd : commandOf opc arg (BitVec.ofNat 16 (intBe [c1, c0])) d with
  | none => exact .inr ⟨reservedOpc_iff.mpr hcmd, decode_header_reserved hmax hlen hcmd⟩
  | some i =>
    obtain ⟨hopc, harg, hcap, hd⟩ := commandOf_eq_some hcmd
    have hc : be (BitVec.ofNat 16 (intBe [c1, c0])).toNat 2 = [c1, c0] := by
      rw [BitVec.toNat_ofNat, Nat.mod_eq_of_lt (by simpa using intBe_lt [c1, c0])]
      exact be_intBe [c1, c0]
    have hl : be d.length 2 = [l1, l0] := hlen ▸ be_intBe [l1, l0]
    refine .inl ⟨i, decode_header_command hmax hlen hcmd, ?_, ?_⟩
    · rw [Instr.WellFormed, hd, hlen]
      exact hmax
    · rw [encode, hopc, harg, hcap, hd, hc, hl]
      rfl

/-- A packet the decoder refuses is answered `12 00 0000 0000`, and nothing else changes (R43, R44). -/
theorem step_refused {s : State} {bs : List Byte} {rest : List HostEvent} {err : DecodeError}
    (h : s.pending = .command bs :: rest) (hd : decode bs = .error err) :
    ∃ r : Response, responseBytes r = [0x12, 0, 0, 0, 0, 0] ∧ step s = .next ((s.setPending rest).addResponse r) :=
  ⟨errResponse .badParam, rfl, step_rejected h hd⟩

end Sys2Proof.Machine
end

section
/-! SUPPORT. How many bytes the commands put out, whatever the requests answer, and that each response is sound
(R54, R109). -/

namespace Sys2Proof.Machine

/-! ## Bytes put out -/

/-- A property that speaks of the number of bytes consumed and put out, kept by every byte, holds after a byte string. -/
theorem feed_emits {σ : Type} {f : σ → Byte → BcPort → BcResult (List Byte × σ)} {P : Nat → Nat → σ → Prop}
    (hf : ∀ n m S b p r q, P n m S → f S b p = .ok r q → P (n + 1) (m + r.1.length) r.2) {S : σ} {d : List Byte}
    {p q : BcPort} {r : List Byte × σ} (hS : P 0 0 S) (h : feed f S d p = .ok r q) : P d.length r.1.length r.2 := by
  suffices hfrom : ∀ {n m}, P n m S → P (n + d.length) (m + r.1.length) r.2 by simpa only [Nat.zero_add] using hfrom hS
  clear hS
  intro n m hS
  induction d generalizing n m S p r with
  | nil =>
    simp only [feed_nil, BcResult.ok.injEq] at h
    exact h.1 ▸ hS
  | cons b bs ih =>
    obtain ⟨a, _, hbyte, hrest⟩ := andThen_eq_ok.mp h
    obtain ⟨a', _, hfed, hr⟩ := andThen_eq_ok.mp hrest
    simp only [BcResult.ok.injEq] at hr
    obtain ⟨rfl, rfl⟩ := hr
    have hlast := ih hfed (hf _ _ _ _ _ _ _ hS hbyte)
    simpa only [List.length_cons, List.length_append, Nat.add_assoc, Nat.add_comm 1] using hlast

/-- A byte of a CBC encrypt stream stays pending, or leaves with the block it completes (R63). -/
theorem cbcEncByte_emits {S : CbcCore} {b : Byte} {p q : BcPort} {r : List Byte × CbcCore}
    (h : cbcEncByte S b p = .ok r q) : 16 ∣ r.1.length ∧ r.1.length + r.2.plen.val = S.plen.val + 1 := by
  rcases bufferByte_cases S.pend S.plen b with ⟨hn, hb⟩ | ⟨hn, hb⟩ <;> simp only [cbcEncByte, hb] at h
  · simp only [BcResult.ok.injEq] at h
    obtain ⟨rfl, -⟩ := h
    simp
  · obtain ⟨a, _, -, hr⟩ := andThen_eq_ok.mp h
    simp only [BcResult.ok.injEq] at hr
    obtain ⟨rfl, -⟩ := hr
    simp [hn]

/-- An encrypt stream puts out the whole blocks of its pending bytes and its input (R63). -/
theorem feed_cbcEncByte_length {S : CbcCore} {d : List Byte} {p q : BcPort} {r : List Byte × CbcCore}
    (h : feed cbcEncByte S d p = .ok r q) : r.1.length = 16 * ((S.plen.val + d.length) / 16) := by
  have hcount := feed_emits (P := fun n m S' => 16 ∣ m ∧ m + S'.plen.val = S.plen.val + n)
    (fun n m S' b p r q ⟨hdvd, hsum⟩ hb => by
      obtain ⟨hdvd', hsum'⟩ := cbcEncByte_emits hb
      omega) ⟨Nat.dvd_zero 16, Nat.zero_add _⟩ h
  have hlt := r.2.plen.isLt
  omega

/-- The bytes a CBC decrypt stream has taken in and not yet put out: the pending ones and, with padding enabled, the
block held back (R65). -/
def cbcDecKept (C : CbcCtx) : Nat := C.core.plen.val + if C.core.pad ∧ C.heldv then 16 else 0

/-- What a decrypt stream has done since the context `C` when it has taken in `n` bytes and put out `m` (R65). -/
structure CbcDecEmitted (C : CbcCtx) (n m : Nat) (C' : CbcCtx) : Prop where
  blocks : 16 ∣ m
  total : m + cbcDecKept C' = cbcDecKept C + n
  pad : C'.core.pad = C.core.pad
  holdsFirst : C.core.pad = true → C'.heldv = false → m = 0 ∧ C.heldv = false

theorem CbcDecEmitted.start (C : CbcCtx) : CbcDecEmitted C 0 0 C :=
  ⟨Nat.dvd_zero 16, Nat.zero_add _, rfl, fun _ hnone => ⟨rfl, hnone⟩⟩

theorem CbcDecEmitted.trans {C C' C'' : CbcCtx} {n n' m m' : Nat} (h : CbcDecEmitted C n m C')
    (h' : CbcDecEmitted C' n' m' C'') : CbcDecEmitted C (n + n') (m + m') C'' := by
  have htotal := h.total
  have htotal' := h'.total
  refine ⟨Nat.dvd_add h.blocks h'.blocks, by omega, h'.pad.trans h.pad, fun hpad hnone => ?_⟩
  obtain ⟨hm', hnone'⟩ := h'.holdsFirst (h.pad.trans hpad) hnone
  obtain ⟨hm, hheld⟩ := h.holdsFirst hpad hnone'
  exact ⟨by omega, hheld⟩

/-- A byte of a CBC decrypt stream stays in the engine, or completes a block and a block leaves, but for the first one
with padding enabled (R65). -/
theorem cbcDecByte_emits {C : CbcCtx} {b : Byte} {p q : BcPort} {r : List Byte × CbcCtx}
    (h : cbcDecByte C b p = .ok r q) : CbcDecEmitted C 1 r.1.length r.2 := by
  rcases bufferByte_cases C.core.pend C.core.plen b with ⟨hn, hb⟩ | ⟨hn, hb⟩ <;> simp only [cbcDecByte, hb] at h
  · simp only [BcResult.ok.injEq] at h
    obtain ⟨rfl, -⟩ := h
    refine ⟨Nat.dvd_zero 16, ?_, rfl, fun _ hnone => ⟨rfl, hnone⟩⟩
    simp only [cbcDecKept, List.length_nil]
    omega
  · obtain ⟨a, _, hdec, hr⟩ := andThen_eq_ok.mp h
    simp only [BcResult.ok.injEq] at hr
    obtain ⟨rfl, -⟩ := hr
    have ha := cbcDecBlock_ok hdec
    cases hpad : C.core.pad with
    | false => constructor <;> simp [cbcRelease, cbcDecKept, ha, hpad, hn]
    | true => cases hheld : C.heldv <;> constructor <;> simp [cbcRelease, cbcDecKept, ha, hpad, hheld, hn]

/-- A decrypt stream puts out the number of bytes CBC.DEC_UPDATE foresees (R65). -/
theorem feed_cbcDecByte_length {C : CbcCtx} {d : List Byte} {p q : BcPort} {r : List Byte × CbcCtx}
    (h : feed cbcDecByte C d p = .ok r q) : r.1.length = cbcDecExact C d.length := by
  obtain ⟨hblocks, htotal, hpads, hfirst⟩ :=
    feed_emits (P := CbcDecEmitted C) (fun _ _ _ _ _ _ _ hC hb => hC.trans (cbcDecByte_emits hb)) (.start C) h
  have hlt := r.2.core.plen.isLt
  simp only [cbcDecKept, hpads] at htotal
  cases hpad : C.core.pad with
  | false =>
    simp only [hpad, Bool.false_eq_true, false_and, if_false] at htotal
    simp only [cbcDecExact, hpad, Bool.false_eq_true, false_and, if_false]
    omega
  | true =>
    cases hheld : r.2.heldv with
    | false =>
      obtain ⟨hm, hnone⟩ := hfirst hpad hheld
      simp only [hheld, hnone, Bool.false_eq_true, and_false, if_false] at htotal
      have hpart : (C.core.plen.val + d.length) / 16 = 0 := by omega
      simp [cbcDecExact, hpart, hm]
    | true =>
      simp only [hpad, hheld, and_self, if_true, true_and] at htotal
      cases hbefore : C.heldv with
      | false =>
        simp only [hbefore, Bool.false_eq_true, if_false] at htotal
        have hwhole : (C.core.plen.val + d.length) / 16 > 0 := by omega
        simp only [cbcDecExact, hpad, hbefore, hwhole, Bool.false_eq_true, not_false_eq_true, and_self, if_true]
        omega
      | true =>
        simp only [hbefore, if_true] at htotal
        simp only [cbcDecExact, hbefore, not_true_eq_false, and_false, if_false]
        omega

/-- CCM's text data path puts out a byte for each byte it takes (R97). -/
theorem feed_ccmTextByte_length {dir : CcmDir} {C : CcmCtx} {d : List Byte} {p q : BcPort} {r : List Byte × CcmCtx}
    (h : feed (ccmTextByte dir) C d p = .ok r q) : r.1.length = d.length := by
  have hcount := feed_emits (P := fun n m _ => m = n)
    (fun n m C' b p r q hm hb => by
      obtain ⟨_, _, -, hrest⟩ := andThen_eq_ok.mp hb
      obtain ⟨_, _, -, hr⟩ := andThen_eq_ok.mp hrest
      simp only [BcResult.ok.injEq] at hr
      obtain ⟨rfl, -⟩ := hr
      exact congrArg (· + 1) hm) rfl h
  exact hcount

/-- The tag is no longer than `TAGSIZE` (R100). -/
theorem ccmTag_length_le {C : CcmCtx} {p q : BcPort} {t : List Byte} (h : ccmTag C p = .ok t q) :
    t.length ≤ C.tagsize.toNat := by
  obtain ⟨_, _, -, hrest⟩ := andThen_eq_ok.mp h
  obtain ⟨_, _, -, hr⟩ := andThen_eq_ok.mp hrest
  simp only [BcResult.ok.injEq] at hr
  obtain ⟨rfl, -⟩ := hr
  exact List.length_take_le _ _

/-- Stripping a padding leaves less than there was (R56). -/
theorem unpad7_length_lt {d b : List Byte} (h : unpad7 d = some b) : b.length < d.length := by
  obtain ⟨p, hpos, -, rfl⟩ := unpad7_eq_some h
  simp only [List.length_append, List.length_replicate]
  omega

/-- The demand of a block-granular update covers what it puts out, under both capacity policies (R109). -/
theorem le_updReq {st : Straps} {n len : Nat} (h : n ≤ 16 * ((len + 15) / 16)) : n ≤ updReq st n len := by
  unfold updReq
  cases st.capPolicy with
  | exact => exact le_rfl
  | conservative => exact h

theorem cbcEncExact_le (C : CbcCtx) (len : Nat) : cbcEncExact C len ≤ 16 * ((len + 15) / 16) := by
  have hlt := C.core.plen.isLt
  unfold cbcEncExact
  omega

theorem cbcDecExact_le (C : CbcCtx) (len : Nat) : cbcDecExact C len ≤ 16 * ((len + 15) / 16) := by
  have hlt := C.core.plen.isLt
  simp only [cbcDecExact]
  split <;> omega

/-! ## Sound answers -/

/-- The response of an error is sound, whatever the error (R112, R114). -/
theorem errResponse_sound (err : Err) : ResponseSound (errResponse err) := by
  cases err with
  | ioError c => exact ⟨Nat.zero_le _, fun _ => ⟨rfl, fun h => absurd rfl h, fun _ => rfl⟩, fun _ => c.property⟩
  | bufferTooSmall n => exact ⟨Nat.zero_le _, fun _ => ⟨rfl, fun _ => rfl, fun h => absurd rfl h⟩, nofun⟩
  | _ => exact ⟨Nat.zero_le _, fun _ => ⟨rfl, fun _ => rfl, fun _ => rfl⟩, nofun⟩

/-- The response of a success is sound when its output is within a demand that fits some `OUTCAP` (R109). -/
theorem okResponse_sound {aux : Byte} {req : Nat} {out : List Byte} {cap : Half} (hcap : ¬ cap.toNat < req)
    (hout : out.length ≤ req) : ResponseSound (okResponse aux req out) := by
  have hreq : (BitVec.ofNat 16 req).toNat = req := by
    rw [BitVec.toNat_ofNat, Nat.mod_eq_of_lt (Nat.lt_of_le_of_lt (not_lt.mp hcap) cap.isLt)]
  exact ⟨hout.trans_eq hreq.symm, fun h => absurd rfl h, nofun⟩

/-- Where the result is a next state, it adds one sound response to those of `s`. -/
def AnswersSoundly (s : State) (res : Result) : Prop :=
  Leaves (fun t => ∃ r, t.responses = s.responses ++ [r] ∧ ResponseSound r) res

section
variable {α : Type} {e : Eng} {s s' : State} {aux : Byte} {req : Nat} {out : List Byte} {cap : Half}

theorem AnswersSoundly.raise {err : Err} (hr : s'.responses = s.responses) :
    AnswersSoundly s (Machine.raise e err s') :=
  .next ⟨errResponse err, by rw [State.addResponse_responses, clearEng_responses, hr], errResponse_sound err⟩

/-- An answer with output, after its capacity check. -/
theorem AnswersSoundly.output (hr : s'.responses = s.responses) (hcap : ¬ cap.toNat < req) (hout : out.length ≤ req) :
    AnswersSoundly s (respond aux req out s') :=
  .next ⟨_, by rw [State.addResponse_responses, hr], okResponse_sound hcap hout⟩

/-- An answer without output. -/
theorem AnswersSoundly.done (hr : s'.responses = s.responses) : AnswersSoundly s (respond aux 0 [] s') :=
  .output (cap := 0) hr (Nat.not_lt_zero _) le_rfl

theorem AnswersSoundly.ite {c : Prop} [Decidable c] {a b : Result} (ha : c → AnswersSoundly s a)
    (hb : ¬c → AnswersSoundly s b) : AnswersSoundly s (if c then a else b) := Leaves.ite ha hb

theorem AnswersSoundly.check {c : Prop} [Decidable c] {err : Err} {res : Result} (h : ¬c → AnswersSoundly s res) :
    AnswersSoundly s (if c then Machine.raise e err s else res) := .ite (fun _ => .raise rfl) h

/-- Requests, run in a state with the responses of `s`: a failed one is answered by error entry (R114). -/
theorem AnswersSoundly.requests {r : BcResult α} {k : α → State → Result} (hr : s'.responses = s.responses)
    (h : ∀ a p, r = .ok a p → AnswersSoundly s (k a (s'.setBc p))) : AnswersSoundly s (runCipher e r s' k) :=
  Leaves.runCipher h fun _ _ => AnswersSoundly.raise hr

end

/-- The end of CBC.ENC_FINISH puts out one block (R64). -/
theorem cbcEncLast_sound {x : Block} {s : State} {cap : Half} (hcap : ¬ cap.toNat < 16) :
    AnswersSoundly s (cbcEncLast x s) :=
  .requests rfl fun r _ _ => .output rfl hcap (Block.toList_length r.1).le

/-- The function the two CTR block commands share puts out one block (R78, R80). -/
theorem ctrBlock_sound (arg : Byte) (cap : Half) (d : List Byte) (s : State) :
    AnswersSoundly s (ctrBlock arg cap d s) :=
  .check fun _ => .check fun _ => .check fun _ => .check fun hcap => .requests rfl fun _ _ _ =>
    .output rfl hcap (Block.toList_length _).le

/-- The text update the two directions share puts out as much as it takes (R98, R99). -/
theorem ccmTextUpdate_sound (dir : CcmDir) (active : CcmPhase) (arg : Byte) (cap : Half) (d : List Byte) (s : State) :
    AnswersSoundly s (ccmTextUpdate dir active arg cap d s) :=
  .check fun _ => .check fun _ => .check fun _ => .check fun hcap => .requests rfl fun _ _ hfed =>
    .output rfl hcap (feed_ccmTextByte_length hfed).le

/-- Every command answers soundly: where it puts out bytes it has checked its demand against `OUTCAP`, and the demand
covers them. -/
theorem exec_sound (i : Instr) (s : State) : AnswersSoundly s (exec i s) := by
  cases i with
  | p7Pad arg cap d =>
    exact .check (e := .p7) fun _ => .check fun _ => .check fun hcap => .output rfl hcap (pad7_length d).le
  | p7Unpad arg cap d =>
    refine .check (e := .p7) fun _ => .check fun _ => .check fun hcap => ?_
    cases hu : unpad7 d with
    | none => exact .raise rfl
    | some out => exact .output rfl hcap (Nat.le_sub_one_of_lt (unpad7_length_lt hu))
  | cbcInit arg cap d => exact .check (e := .cbc) fun _ => .check fun _ => .done rfl
  | cbcEncUpdate arg cap d =>
    exact .check (e := .cbc) fun _ => .check fun _ => .check fun hcap => .requests rfl fun _ _ hfed =>
      .output rfl hcap ((feed_cbcEncByte_length hfed).trans_le (le_updReq (cbcEncExact_le _ _)))
  | cbcEncFinish arg cap d =>
    exact .check (e := .cbc) fun _ => .check fun _ => .ite (fun _ => .check cbcEncLast_sound) fun _ =>
      .ite (fun _ => .done rfl) fun _ => .check fun _ => .check cbcEncLast_sound
  | cbcDecUpdate arg cap d =>
    exact .check (e := .cbc) fun _ => .check fun _ => .check fun hcap => .requests rfl fun _ _ hfed =>
      .output rfl hcap ((feed_cbcDecByte_length hfed).trans_le (le_updReq (cbcDecExact_le _ _)))
  | cbcDecFinish arg cap d =>
    refine .check (e := .cbc) fun _ => .check fun _ => .ite (fun _ => .check fun _ => .check fun hcap => ?_) fun _ =>
      .ite (fun _ => .done rfl) fun _ => .check fun _ => .check fun hcap => .requests rfl fun r _ _ =>
        .output rfl hcap (Block.toList_length r.1).le
    cases hu : unpad7 s.cbc.held.toList with
    | none => exact .raise rfl
    | some out =>
      have hlen : out.length < 16 := Block.toList_length s.cbc.held ▸ unpad7_length_lt hu
      exact .output rfl hcap (Nat.le_of_lt_succ hlen)
  | cmacInit arg cap d => exact .check (e := .cmac) fun _ => .done rfl
  | cmacUpdate arg cap d =>
    exact .check (e := .cmac) fun _ => .check fun _ => .requests rfl fun _ _ _ => .done rfl
  | cmacFinish arg cap d =>
    exact .check (e := .cmac) fun _ => .check fun _ => .check fun hcap => .requests rfl fun _ _ _ =>
      .output rfl hcap (List.length_take_le _ _)
  | ctrInit arg cap d => exact .check (e := .ctr) fun _ => .done rfl
  | ctrEncBlock arg cap d => exact ctrBlock_sound arg cap d s
  | ctrDecBlock arg cap d => exact ctrBlock_sound arg cap d s
  | macInit arg cap d => exact .check (e := .mac) fun _ => .done rfl
  | macUpdate arg cap d =>
    exact .check (e := .mac) fun _ => .check fun _ => .requests rfl fun _ _ _ => .done rfl
  | macFinish arg cap d =>
    exact .check (e := .mac) fun _ => .check fun _ => .check fun _ => .check fun hcap =>
      .output rfl hcap (List.length_take_le _ _)
  | ccmInit arg cap d =>
    exact .check (e := .ccm) fun _ => .check fun _ => .check fun _ => .check fun _ => .check fun _ =>
      .requests rfl fun _ _ _ => .done rfl
  | ccmAadUpdate arg cap d =>
    exact .check (e := .ccm) fun _ => .check fun _ => .check fun _ => .requests rfl fun _ _ _ => .done rfl
  | ccmAadFinish arg cap d =>
    exact .check (e := .ccm) fun _ => .check fun _ => .check fun _ => .requests rfl fun _ _ _ => .done rfl
  | ccmEncUpdate arg cap d => exact ccmTextUpdate_sound _ _ arg cap d s
  | ccmEncFinish arg cap d =>
    exact .check (e := .ccm) fun _ => .check fun _ => .check fun _ => .check fun hcap => .requests rfl fun _ _ htag =>
      .output rfl hcap (ccmTag_length_le htag)
  | ccmDecUpdate arg cap d => exact ccmTextUpdate_sound _ _ arg cap d s
  | ccmDecFinish arg cap d =>
    exact .check (e := .ccm) fun _ => .check fun _ => .check fun _ => .requests rfl fun _ _ _ => .done rfl

/-- What a step adds to the responses: nothing, or one sound response (R26, R43, R125). -/
theorem step_responses {s t : State} (h : step s = .next t) :
    t.responses = s.responses ∨ ∃ r, t.responses = s.responses ++ [r] ∧ ResponseSound r := by
  cases hp : s.pending with
  | nil =>
    rw [step_idle hp] at h
    exact .inl (Host.Outcome.next.inj h ▸ rfl)
  | cons event rest =>
    cases event with
    | reset straps =>
      rw [step_reset hp] at h
      exact .inl (Host.Outcome.next.inj h ▸ rfl)
    | command packet =>
      cases hd : decode packet with
      | error err =>
        rw [step_rejected hp hd] at h
        exact .inr ⟨_, Host.Outcome.next.inj h ▸ rfl, errResponse_sound .badParam⟩
      | ok i =>
        rw [step_command hp hd] at h
        exact .inr (exec_sound i (s.setPending rest) t h)

end Sys2Proof.Machine
end

section
/-! CERTIFICATE. The statements of spec/30_encoding.md: what the decoder reads and the encoder writes, which packets are
refused, and what a response looks like. -/

namespace Sys2Proof.Machine

/-- Settles O1: `LEN` fits its field, so the decoder reads back the fields the encoder wrote. -/
theorem decodeOfEncode : Obligations.DecodeOfEncode := fun _ hi => decode_encode hi

/-- Settles O2: a byte string that decodes is not malformed, and then the fields the decoder read are the ones the
encoder writes. -/
theorem encodeOfDecode : Obligations.EncodeOfDecode := by
  intro bs i h
  by_cases hm : malformed bs
  · rcases decode_malformed hm with he | he | he <;> cases h.symm.trans he
  · rcases decode_not_malformed hm with ⟨j, hj, henc⟩ | ⟨-, he⟩
    · obtain rfl : i = j := Except.ok.inj (h.symm.trans hj)
      exact henc
    · cases h.symm.trans he

/-- Settles O18: the responses before the step stay, and what a step adds is sound. -/
theorem stepKeepsResponsesSound : Obligations.StepKeepsResponsesSound := by
  intro s t hs h
  obtain heq | ⟨r, heq, hr⟩ := step_responses h <;> rw [heq]
  · exact hs
  · exact List.forall_mem_append.mpr ⟨hs, List.forall_mem_singleton.mpr hr⟩

/-- Settles O3, from the two verdicts: a malformed byte string gets one of the three, any other a command or its reserved
opcode. -/
theorem malformedPacketsRefused : Obligations.MalformedPacketsRefused := by
  refine ⟨fun bs => ⟨⟨decode_malformed, fun hverdict => ?_⟩, fun hm => ?_⟩, fun s bs rest h hm => ?_⟩
  · by_contra hm
    rcases decode_not_malformed hm with ⟨i, hd, -⟩ | ⟨-, hd⟩ <;> simp [hd] at hverdict
  · exact (decode_not_malformed hm).imp (fun ⟨i, hd, _⟩ => ⟨i, hd⟩) And.right
  · rcases decode_malformed hm with hd | hd | hd <;> exact step_refused h hd

/-- Settles O4: what is not malformed is refused with a reserved opcode, or is the packet of a command, whose opcode is not
reserved. -/
theorem reservedOpcodesRefused : Obligations.ReservedOpcodesRefused := by
  have hiff (bs : List Byte) (hm : ¬ malformed bs) :
      reservedOpc (bs.getD 0 0) ↔ decode bs = .error (.reservedOpcode (bs.getD 0 0)) := by
    rcases decode_not_malformed hm with ⟨i, hd, -, rfl⟩ | ⟨hres, hd⟩
    · have hlisted : ¬ reservedOpc ((encode i).getD 0 0) := not_reservedOpc_opcode i
      exact iff_of_false hlisted (by rw [hd]; exact nofun)
    · exact iff_of_true hres hd
  exact ⟨hiff, fun s bs rest h hm hres => step_refused h ((hiff bs hm).mp hres)⟩

/-- Settles O6: each packet is the one `encode` writes for its command. -/
theorem writtenPacketsDecode : Obligations.WrittenPacketsDecode :=
  ⟨decode_encode (i := .p7Pad 0 0xFFFF [1, 2, 3]) (by decide),
    decode_encode (i := .cbcEncFinish 0 0x0010 []) (by decide),
    decode_encode (i := .cmacFinish 0x10 0x0010 []) (by decide),
    decode_encode (i := .ctrDecBlock 0 0x0102 [0xAA]) (by decide),
    decode_encode (i := .macInit 0 0 [0, 1, 0]) (by decide),
    decode_encode (i := .ccmDecFinish 8 0 [0xB4, 0xB5]) (by decide)⟩

/-- Settles O9: each 16-bit field is `be` of its value, which fits two bytes. -/
theorem responsePacketLayout : Obligations.ResponsePacketLayout := by
  refine ⟨⟨rfl, rfl, rfl, rfl, rfl, rfl, rfl, rfl⟩, fun r hlen => ⟨?_, rfl, rfl, ?_, ?_, rfl⟩⟩
  · simp [responseBytes]; omega
  · exact intBe_be (n := 2) hlen
  · exact intBe_be (n := 2) r.req.isLt

end Sys2Proof.Machine
end

section
/-! SUPPORT. How the PKCS7 commands and the two CBC finish commands end, one rule per outcome of their checks. -/

namespace Sys2Proof.Machine

/-! ## Padding -/

/-- Fewer than 16 bytes are padded to one block (R55). -/
theorem pad7_short {d : List Byte} (h : d.length < 16) :
    pad7 d = d ++ List.replicate (16 - d.length) (BitVec.ofNat 8 (16 - d.length)) := by
  rw [pad7, Nat.mod_eq_of_lt h, rep]

/-- `unpad7` accepts exactly the whole blocks that end in `p` copies of the byte `p` (R56). -/
theorem unpad7_eq_some_iff {d b : List Byte} (h : d.length % 16 = 0) :
    unpad7 d = some b ↔ ∃ p, 1 ≤ p ∧ p ≤ 16 ∧ d = b ++ List.replicate p (BitVec.ofNat 8 p) := by
  refine ⟨unpad7_eq_some, ?_⟩
  rintro ⟨p, h1, h2, rfl⟩
  exact unpad7_padded b p h1 h2 (by simpa using h)

/-- `unpad7` fails on whole blocks that have no such end (R56). -/
theorem unpad7_eq_none {d : List Byte}
    (h : ∀ (b : List Byte) (p : Nat), 1 ≤ p → p ≤ 16 → d ≠ b ++ List.replicate p (BitVec.ofNat 8 p)) :
    unpad7 d = none := by
  refine Option.eq_none_iff_forall_ne_some.mpr fun b hb => ?_
  obtain ⟨p, h1, h2, hd⟩ := unpad7_eq_some hb
  exact h b p h1 h2 hd

/-! ## The PKCS7 codec -/

section
variable {s : State} {arg : Byte} {outcap : Half} {d b : List Byte}

/-- P7.PAD refuses a nonzero `ARG`, and a buffer whose demand would not fit 16 bits (R57). -/
theorem execP7Pad_badParam (h : arg ≠ 0 ∨ d.length > 65519) :
    execP7Pad arg outcap d s = .next (s.addResponse ⟨.badParam, 0, 0, []⟩) := by
  by_cases harg : arg ≠ 0
  · exact if_pos harg
  · have hlen := h.resolve_left harg
    have hlong : 16 * (d.length / 16 + 1) > 65535 := by omega
    exact (if_neg harg).trans (if_pos hlong)

/-- Past its parameter checks P7.PAD depends on the capacity alone. -/
theorem execP7Pad_checked (hd : d.length ≤ 65519) :
    execP7Pad 0 outcap d s =
      if outcap.toNat < 16 * (d.length / 16 + 1) then raise .p7 (.bufferTooSmall (16 * (d.length / 16 + 1))) s
      else respond 0 (16 * (d.length / 16 + 1)) (pad7 d) s := by
  have hshort : ¬ 16 * (d.length / 16 + 1) > 65535 := by omega
  rw [execP7Pad, if_neg (not_not.mpr rfl), if_neg hshort]

theorem execP7Pad_ok (hd : d.length ≤ 65519) (hcap : 16 * (d.length / 16 + 1) ≤ outcap.toNat) :
    execP7Pad 0 outcap d s =
      .next (s.addResponse ⟨.ok, 0, BitVec.ofNat 16 (16 * (d.length / 16 + 1)), pad7 d⟩) := by
  rw [execP7Pad_checked hd, if_neg (not_lt.mpr hcap), respond_eq, okResponse]

theorem execP7Unpad_badParam (h : arg ≠ 0) :
    execP7Unpad arg outcap d s = .next (s.addResponse ⟨.badParam, 0, 0, []⟩) := if_pos h

theorem execP7Unpad_badLength (h : d.length = 0 ∨ d.length % 16 ≠ 0) :
    execP7Unpad 0 outcap d s = .next (s.addResponse ⟨.genFail, 0, 0, []⟩) := by
  rw [execP7Unpad, if_neg (not_not.mpr rfl), if_pos h]
  rfl

theorem execP7Unpad_tooSmall (h0 : d.length ≠ 0) (h16 : d.length % 16 = 0) (hcap : outcap.toNat < d.length - 1) :
    execP7Unpad 0 outcap d s =
      .next (s.addResponse ⟨.bufferTooSmall, 0, BitVec.ofNat 16 (d.length - 1), []⟩) := by
  rw [execP7Unpad, if_neg (not_not.mpr rfl), if_neg (by simp [h0, h16]), if_pos hcap]
  rfl

theorem execP7Unpad_ok (h0 : d.length ≠ 0) (h16 : d.length % 16 = 0) (hcap : d.length - 1 ≤ outcap.toNat)
    (hb : unpad7 d = some b) :
    execP7Unpad 0 outcap d s = .next (s.addResponse ⟨.ok, 0, BitVec.ofNat 16 (d.length - 1), b⟩) := by
  rw [execP7Unpad, if_neg (not_not.mpr rfl), if_neg (by simp [h0, h16]), if_neg (not_lt.mpr hcap), hb]
  rfl

theorem execP7Unpad_badPadding (h0 : d.length ≠ 0) (h16 : d.length % 16 = 0) (hcap : d.length - 1 ≤ outcap.toNat)
    (hd : unpad7 d = none) :
    execP7Unpad 0 outcap d s = .next (s.addResponse ⟨.genFail, 0, 0, []⟩) := by
  rw [execP7Unpad, if_neg (not_not.mpr rfl), if_neg (by simp [h0, h16]), if_neg (not_lt.mpr hcap), hd]
  rfl

end

/-! ## The end of a CBC stream -/

/-- The pending bytes padded with PKCS7 are one block (R55, R64). -/
theorem pad7_pending (pend : Block) (plen : Fin 16) :
    pad7 (pend.toList.take plen.val) =
      pend.toList.take plen.val ++ List.replicate (16 - plen.val) (BitVec.ofNat 8 (16 - plen.val)) := by
  have hlen : (pend.toList.take plen.val).length = plen.val := by
    rw [List.length_take, Block.toList_length, Nat.min_eq_left plen.isLt.le]
  rw [pad7_short (by omega), hlen]

/-- A pending buffer is its pending bytes continued with zeros (R18, R69). -/
theorem ofList_pending_zeros {pend : Block} {n : Nat} (h : ZeroTail pend n) (k : Nat) :
    Block.ofList (pend.toList.take n ++ List.replicate k 0) = pend :=
  (Block.ofList_append_zeros _ k).trans (ofList_take_of_zeroTail h)

/-- The last block of an encrypt stream is one request, and its answer the output (R64). -/
theorem cbcEncLast_honest {s : State} (x : Block) (h : Honest s.bc) :
    cbcEncLast x s = .next (((clearEng .cbc s).setBc
      (afterRequests s.bc (encRequests s.cbc.core.keyref [x.xor s.cbc.core.chain]))).addResponse
      ⟨.ok, 0, 16, (bcEnc s.bc s.cbc.core.keyref (x.xor s.cbc.core.chain)).toList⟩) := by
  rw [cbcEncLast, cbcEncBlock_honest h]
  rfl

section
variable {s : State} {outcap : Half}

/-- CBC.ENC_FINISH with padding enabled (R64). -/
theorem execCbcEncFinish_padded (hphase : s.cbc.phase = .ready ∨ s.cbc.phase = .enc) (hpad : s.cbc.core.pad = true)
    (hcap : 16 ≤ outcap.toNat) :
    execCbcEncFinish 0 outcap [] s =
      cbcEncLast (Block.ofList (pad7 (s.cbc.core.pend.toList.take s.cbc.core.plen.val))) s := by
  rw [execCbcEncFinish, if_neg (or_iff_not_and_not.mp hphase), if_neg (by simp), if_pos hpad, if_neg (not_lt.mpr hcap)]

/-- CBC.ENC_FINISH with padding disabled and nothing pending (R64). -/
theorem execCbcEncFinish_empty (hphase : s.cbc.phase = .ready ∨ s.cbc.phase = .enc) (hpad : s.cbc.core.pad = false)
    (hplen : s.cbc.core.plen = 0) :
    execCbcEncFinish 0 outcap [] s = .next ((clearEng .cbc s).addResponse ⟨.ok, 0, 0, []⟩) := by
  rw [execCbcEncFinish, if_neg (or_iff_not_and_not.mp hphase), if_neg (by simp), if_neg (by simp [hpad]), if_pos hplen]
  rfl

/-- CBC.ENC_FINISH with padding disabled and bytes pending, under `LEGACY_ZERO_PAD` (R64). -/
theorem execCbcEncFinish_zeroPadded (hphase : s.cbc.phase = .ready ∨ s.cbc.phase = .enc)
    (hpad : s.cbc.core.pad = false) (hplen : s.cbc.core.plen ≠ 0) (hstrap : s.straps.legacyZeroPad = true)
    (hcap : 16 ≤ outcap.toNat) : execCbcEncFinish 0 outcap [] s = cbcEncLast s.cbc.core.pend s := by
  rw [execCbcEncFinish, if_neg (or_iff_not_and_not.mp hphase), if_neg (by simp), if_neg (by simp [hpad]), if_neg hplen,
    if_neg (not_not.mpr hstrap), if_neg (not_lt.mpr hcap)]

/-- CBC.DEC_FINISH with padding enabled: the held block without its padding (R66). -/
theorem execCbcDecFinish_padded {b : List Byte} (hphase : s.cbc.phase = .ready ∨ s.cbc.phase = .dec)
    (hpad : s.cbc.core.pad = true) (hplen : s.cbc.core.plen = 0) (hheld : s.cbc.heldv = true)
    (hcap : 15 ≤ outcap.toNat) (hb : unpad7 s.cbc.held.toList = some b) :
    execCbcDecFinish 0 outcap [] s = .next ((clearEng .cbc s).addResponse ⟨.ok, 0, 15, b⟩) := by
  rw [execCbcDecFinish, if_neg (or_iff_not_and_not.mp hphase), if_neg (by simp), if_pos hpad,
    if_neg (by simp [hplen, hheld]), if_neg (not_lt.mpr hcap), hb]
  rfl

/-- CBC.DEC_FINISH with padding disabled and nothing pending (R66). -/
theorem execCbcDecFinish_empty (hphase : s.cbc.phase = .ready ∨ s.cbc.phase = .dec) (hpad : s.cbc.core.pad = false)
    (hplen : s.cbc.core.plen = 0) :
    execCbcDecFinish 0 outcap [] s = .next ((clearEng .cbc s).addResponse ⟨.ok, 0, 0, []⟩) := by
  rw [execCbcDecFinish, if_neg (or_iff_not_and_not.mp hphase), if_neg (by simp), if_neg (by simp [hpad]), if_pos hplen]
  rfl

/-- CBC.DEC_FINISH with padding disabled and bytes pending, under `LEGACY_ZERO_PAD`: the zero-continued buffer is
decrypted by one request (R61, R66). -/
theorem execCbcDecFinish_zeroPadded (hphase : s.cbc.phase = .ready ∨ s.cbc.phase = .dec)
    (hpad : s.cbc.core.pad = false) (hplen : s.cbc.core.plen ≠ 0) (hstrap : s.straps.legacyZeroPad = true)
    (hcap : 16 ≤ outcap.toNat) (h : Honest s.bc) :
    execCbcDecFinish 0 outcap [] s =
      .next (((clearEng .cbc s).setBc
        (afterRequests s.bc (decRequests s.cbc.core.keyref [s.cbc.core.pend]))).addResponse
        ⟨.ok, 0, 16, ((bcDec s.bc s.cbc.core.keyref s.cbc.core.pend).xor s.cbc.core.chain).toList⟩) := by
  rw [execCbcDecFinish, if_neg (or_iff_not_and_not.mp hphase), if_neg (by simp), if_neg (by simp [hpad]), if_neg hplen,
    if_neg (not_not.mpr hstrap), if_neg (not_lt.mpr hcap), cbcDecBlock_honest h]
  rfl

end

end Sys2Proof.Machine
end

section
/-! CERTIFICATE. The statements of spec/40_pkcs7.md: the PKCS7 codec, and where a CBC stream pads its last block or
strips the padding. -/

namespace Sys2Proof.Machine

/-- Settles O23: `unpad7` gives `b` exactly when the buffer is `b` and a well-formed padding, and fails when it is
neither. -/
theorem unpadCommand : Obligations.UnpadCommand := by
  intro s arg outcap d
  refine ⟨execP7Unpad_badParam, ?_, ?_, ?_⟩ <;> rintro rfl
  · exact execP7Unpad_badLength
  · exact execP7Unpad_tooSmall
  · refine fun h0 h16 hcap => ⟨fun b p h1 h2 hd => ?_, fun hnot => ?_⟩
    · exact execP7Unpad_ok h0 h16 hcap ((unpad7_eq_some_iff h16).mpr ⟨p, h1, h2, hd⟩)
    · exact execP7Unpad_badPadding h0 h16 hcap (unpad7_eq_none hnot)

/-- Settles O24: the padded buffer is whole blocks, at least one, and `unpad7` undoes `pad7`. -/
theorem unpadOfPad : Obligations.UnpadOfPad := by
  intro s cap d hd hcap
  have hlen := pad7_length d
  exact ⟨pad7 d, _, _, execP7Pad_ok hd hcap,
    execP7Unpad_ok (by omega) (by omega) (by omega) (unpad7_pad7 d)⟩

/-- Settles O27: the last block is the pending bytes with their padding, or, by the zero tail of R18, the pending buffer
as it stands. -/
theorem cbcEncFinishResult : Obligations.CbcEncFinishResult := by
  intro s outcap hinv hbc hphase C lastBlock
  obtain ⟨⟨hzero, -⟩, -⟩ := hinv
  have hlast (bytes : List Byte) : cbcEncLast (Block.ofList bytes) s = lastBlock bytes := cbcEncLast_honest _ hbc
  refine ⟨fun hpad hcap => ?_, execCbcEncFinish_empty hphase, fun hpad hplen hstrap hcap => ?_⟩
  · rw [← hlast, ← pad7_pending]
    exact execCbcEncFinish_padded hphase hpad hcap
  · rw [← hlast, ofList_pending_zeros hzero]
    exact execCbcEncFinish_zeroPadded hphase hpad hplen hstrap hcap

/-- Settles O29: the held block is one block, so its padding is stripped as P7.UNPAD strips it. -/
theorem cbcDecFinishResult : Obligations.CbcDecFinishResult := by
  intro s outcap _ hbc hphase
  refine ⟨fun b p hpad hplen hheld hcap h1 h2 hb => ?_, execCbcDecFinish_empty hphase,
    fun hpad hplen hstrap hcap => execCbcDecFinish_zeroPadded hphase hpad hplen hstrap hcap hbc⟩
  have hblock : s.cbc.held.toList.length % 16 = 0 := by rw [Block.toList_length]
  exact execCbcDecFinish_padded hphase hpad hplen hheld hcap ((unpad7_eq_some_iff hblock).mpr ⟨p, h1, h2, hb⟩)

/-- Settles O22: the demand passes 65535 just when the buffer is longer than 65519 bytes, and past that check only the
capacity counts. -/
theorem padCommand : Obligations.PadCommand := by
  intro s arg outcap d p req
  refine ⟨execP7Pad_badParam, ?_, ?_⟩ <;> rintro rfl hd hcap
  · exact (execP7Pad_checked hd).trans (if_pos hcap)
  · exact execP7Pad_ok hd hcap

end Sys2Proof.Machine
end

section
/-! SUPPORT. A byte string as its whole blocks and the bytes after them: where PKCS7 pads it, and that CBC decryption
undoes CBC encryption of the blocks. -/

namespace Sys2Proof.Machine

/-! ## Whole blocks and the bytes after them -/

theorem wholeBlocks_length (d : List Byte) : (wholeBlocks d).length = d.length / 16 := by simp [wholeBlocks]

theorem tailBytes_length (d : List Byte) : (tailBytes d).length = d.length % 16 := by
  rw [tailBytes, List.length_drop]
  omega

theorem blockBytes_append (xs ys : List Block) : blockBytes (xs ++ ys) = blockBytes xs ++ blockBytes ys :=
  List.flatMap_append

/-- The bytes of blocks are taken apart into these blocks again. -/
@[simp] theorem wholeBlocks_blockBytes (xs : List Block) : wholeBlocks (blockBytes xs) = xs := by
  induction xs with
  | nil => rfl
  | cons x xs ih => rw [blockBytes_cons, wholeBlocks_block, ih]

/-- Nothing is lost by taking the whole blocks apart. -/
theorem blockBytes_wholeBlocks_append_tailBytes (d : List Byte) : blockBytes (wholeBlocks d) ++ tailBytes d = d := by
  by_cases hshort : d.length < 16
  · rw [wholeBlocks_short hshort, tailBytes_short hshort]
    rfl
  · have hfirst : (Block.ofList (d.take 16)).toList ++ d.drop 16 = d := by
      rw [Block.toList_ofList (by rw [List.length_take]; omega), List.take_append_drop]
    rw [← hfirst, wholeBlocks_block, tailBytes_block, blockBytes_cons, List.append_assoc,
      blockBytes_wholeBlocks_append_tailBytes (d.drop 16)]
termination_by d.length
decreasing_by rw [List.length_drop]; omega

theorem tailBytes_of_aligned {d : List Byte} (h : d.length % 16 = 0) : tailBytes d = [] :=
  List.length_eq_zero_iff.mp ((tailBytes_length d).trans h)

theorem blockBytes_wholeBlocks {d : List Byte} (h : d.length % 16 = 0) : blockBytes (wholeBlocks d) = d := by
  have hd := blockBytes_wholeBlocks_append_tailBytes d
  rwa [tailBytes_of_aligned h, List.append_nil] at hd

/-- The bytes after the whole blocks, put into a pending buffer and read back. -/
theorem take_ofList_tailBytes (d : List Byte) :
    (Block.ofList (tailBytes d)).toList.take (rem16 d.length).val = tailBytes d := by
  have hlen := tailBytes_length d
  have hlt := Nat.mod_lt d.length (show 0 < 16 by decide)
  apply List.ext_getElem
  · rw [List.length_take, Block.toList_length, hlen]
    exact Nat.min_eq_left hlt.le
  · intro i _ h
    simp [h]

/-! ## Padding -/

/-- Whole blocks before a string do not change its padding (R55). -/
theorem pad7_blockBytes_append (xs : List Block) (d : List Byte) :
    pad7 (blockBytes xs ++ d) = blockBytes xs ++ pad7 d := by
  have hmod : (blockBytes xs ++ d).length % 16 = d.length % 16 := by
    rw [List.length_append, blockBytes_length]
    omega
  simp only [pad7, hmod, List.append_assoc]

theorem pad7_tailBytes_length (d : List Byte) : (pad7 (tailBytes d)).length = 16 := by
  rw [pad7_length, tailBytes_length, Nat.div_eq_of_lt (Nat.mod_lt _ (by decide))]

/-- PKCS7 adds one block to the whole ones: the bytes after them, padded (R55). -/
theorem wholeBlocks_pad7 (d : List Byte) :
    wholeBlocks (pad7 d) = wholeBlocks d ++ [Block.ofList (pad7 (tailBytes d))] := by
  have hpad : pad7 d = blockBytes (wholeBlocks d ++ [Block.ofList (pad7 (tailBytes d))]) := by
    conv_lhs => rw [← blockBytes_wholeBlocks_append_tailBytes d, pad7_blockBytes_append]
    rw [blockBytes_append, blockBytes_cons, Block.toList_ofList (pad7_tailBytes_length d)]
    exact congrArg _ (List.append_nil _).symm
  rw [hpad, wholeBlocks_blockBytes]

/-! ## CBC, block by block -/

/-- Encrypting more blocks goes on from the last ciphertext block (R60). -/
theorem cbcCipher_append (E : Block → Block) (c : Block) (xs zs : List Block) :
    cbcCipher E c (xs ++ zs) = cbcCipher E c xs ++ cbcCipher E (lastChain c (cbcCipher E c xs)) zs := by
  induction xs generalizing c with
  | nil => rfl
  | cons x xs ih => rw [List.cons_append, cbcCipher, ih, cbcCipher, lastChain_cons, List.cons_append]

theorem cbcCipher_length (E : Block → Block) (c : Block) (xs : List Block) : (cbcCipher E c xs).length = xs.length := by
  induction xs generalizing c with
  | nil => rfl
  | cons x xs ih => rw [cbcCipher, List.length_cons, List.length_cons, ih]

/-- CBC decryption undoes CBC encryption where the block decryption undoes the block encryption (R60, R61). -/
theorem cbcPlain_cbcCipher {D E : Block → Block} (h : ∀ x, D (E x) = x) (c : Block) (xs : List Block) :
    cbcPlain D c (cbcCipher E c xs) = xs := by
  induction xs generalizing c with
  | nil => rfl
  | cons x xs ih => rw [cbcCipher, cbcPlain, h, Block.xor_cancel, ih]

/-- The port's decryption undoes its encryption (R32(c)). -/
theorem bcDec_bcEnc (p : BcPort) (k : KeyRef) (x : Block) : bcDec p k (bcEnc p k x) = x :=
  cipherAnswer_dec_enc p.cipher k x

end Sys2Proof.Machine
end

section
/-! SUPPORT. How CBC.INIT and the two CBC updates end, one rule per outcome of their checks, and how the two CBC finish
commands fail. -/

namespace Sys2Proof.Machine

/-! ## Operands -/

/-- Two big-endian bytes are one 16-bit value (R48). -/
theorem ofNat_intBe_pair (b0 b1 : Byte) : BitVec.ofNat 16 (intBe [b0, b1]) = b0 ++ b1 := by
  apply BitVec.eq_of_toNat_eq
  have h1 : b1.toNat < 2 ^ 8 := b1.isLt
  have h0 := b0.isLt
  rw [BitVec.toNat_append, ← Nat.shiftLeft_add_eq_or_of_lt h1, Nat.shiftLeft_eq, BitVec.toNat_ofNat]
  simp only [intBe, List.foldl_cons, List.foldl_nil]
  omega

/-- The key handle at the front of a payload (R48). -/
theorem payloadKeyRef_cons (b0 b1 b2 : Byte) (d : List Byte) :
    payloadKeyRef (b0 :: b1 :: b2 :: d) = { slot := b0 ++ b1, blk := b2 } := by
  have hblk : BitVec.ofNat 8 (intBe [b2]) = b2 := by simp [intBe]
  simp only [payloadKeyRef, slice, List.drop_zero, List.drop_succ_cons, List.take_succ_cons, List.take_zero,
    ofNat_intBe_pair, hblk]

/-- The block after the key handle (R48). -/
theorem payloadBlock_cons (b0 b1 b2 : Byte) {d : List Byte} (h : d.length = 16) :
    payloadBlock (b0 :: b1 :: b2 :: d) = Block.ofList d := by
  simp only [payloadBlock, slice, List.drop_succ_cons, List.drop_zero, List.take_of_length_le h.le]

/-- `ARG[7:1]` of CBC.INIT is zero just for the two padding modes (R45). -/
theorem argReserved_eq_zero_iff (arg : Byte) : argReserved arg = 0 ↔ arg.toNat < 2 := by
  rw [argReserved, BitVec.toNat_eq, BitVec.toNat_ushiftRight, Nat.shiftRight_eq_div_pow]
  change arg.toNat / 2 = 0 ↔ arg.toNat < 2
  omega

/-- The padding mode is the value of `ARG` where the reserved bits are zero (R45). -/
theorem argPadding_eq {arg : Byte} (h : arg.toNat < 2) : argPadding arg = decide (arg.toNat = 1) := by
  rw [argPadding, BitVec.getLsbD, Nat.testBit_zero, Nat.mod_eq_of_lt h]

section
variable {s : State} {arg : Byte} {outcap : Half} {d : List Byte} {q : BcPort}

/-! ## CBC.INIT -/

/-- CBC.INIT with no `iv` (R62, R107). -/
theorem execCbcInit_nullPointer (h : d.length = 3) :
    execCbcInit arg outcap d s = .next ((clearEng .cbc s).addResponse ⟨.nullPointer, 0, 0, []⟩) := if_pos h

theorem execCbcInit_badParam (h3 : d.length ≠ 3) (h : d.length ≠ 19 ∨ arg.toNat ≥ 2) :
    execCbcInit arg outcap d s = .next ((clearEng .cbc s).addResponse ⟨.badParam, 0, 0, []⟩) := by
  have hbad : d.length ≠ 19 ∨ argReserved arg ≠ 0 := h.imp_right fun harg h0 =>
    harg.not_gt ((argReserved_eq_zero_iff arg).mp h0)
  rw [execCbcInit, if_neg h3, if_pos hbad]
  rfl

theorem execCbcInit_ok (hd : d.length = 19) (harg : arg.toNat < 2) :
    execCbcInit arg outcap d s = .next ((s.setCbc (cbcStart arg d)).addResponse ⟨.ok, 0, 0, []⟩) := by
  have hgood : ¬(d.length ≠ 19 ∨ argReserved arg ≠ 0) :=
    not_or_intro (not_not.mpr hd) (not_not.mpr ((argReserved_eq_zero_iff arg).mpr harg))
  rw [execCbcInit, if_neg (by omega), if_neg hgood]
  rfl

/-! ## The demand of the updates -/

/-- The demand of the model is the demand of the statements (R109). -/
theorem updReq_eq_updateDemand (st : Straps) (n len : Nat) : updReq st n len = updateDemand st n len := by
  unfold updReq updateDemand
  cases st.capPolicy with
  | exact => exact (if_pos rfl).symm
  | conservative => exact (if_neg nofun).symm

/-- Full capacity covers the demand of every update that fits a packet (R47, R109). -/
theorem updReq_le_full {st : Straps} {n len : Nat} (h : n ≤ 16 * ((len + 15) / 16)) (hlen : len ≤ 65520) :
    updReq st n len ≤ (0xFFFF : Half).toNat := by
  have hfull : (0xFFFF : Half).toNat = 65535 := rfl
  unfold updReq
  cases st.capPolicy with
  | exact => simp only; omega
  | conservative => simp only; omega

/-! ## CBC.ENC_UPDATE -/

theorem execCbcEncUpdate_badParam (hphase : s.cbc.phase = .ready ∨ s.cbc.phase = .enc) (harg : arg ≠ 0) :
    execCbcEncUpdate arg outcap d s = .next ((clearEng .cbc s).addResponse ⟨.badParam, 0, 0, []⟩) := by
  rw [execCbcEncUpdate, if_neg (or_iff_not_and_not.mp hphase), if_pos harg]
  rfl

theorem execCbcEncUpdate_tooSmall (hphase : s.cbc.phase = .ready ∨ s.cbc.phase = .enc)
    (hcap : outcap.toNat < updReq s.straps (cbcEncExact s.cbc d.length) d.length) :
    execCbcEncUpdate 0 outcap d s = .next ((clearEng .cbc s).addResponse
      ⟨.bufferTooSmall, 0, BitVec.ofNat 16 (updReq s.straps (cbcEncExact s.cbc d.length) d.length), []⟩) := by
  rw [execCbcEncUpdate, if_neg (or_iff_not_and_not.mp hphase), if_neg (not_not.mpr rfl), if_pos hcap]
  rfl

/-- CBC.ENC_UPDATE past its checks puts out and keeps what its data path gives (R63). -/
theorem execCbcEncUpdate_ok {r : List Byte × CbcCore} (hphase : s.cbc.phase = .ready ∨ s.cbc.phase = .enc)
    (hcap : updReq s.straps (cbcEncExact s.cbc d.length) d.length ≤ outcap.toNat)
    (hfed : feed cbcEncByte s.cbc.core d s.bc = .ok r q) :
    execCbcEncUpdate 0 outcap d s =
      .next (((s.setBc q).setCbc { s.cbc with core := r.2, phase := .enc }).addResponse
        ⟨.ok, 0, BitVec.ofNat 16 (updReq s.straps (cbcEncExact s.cbc d.length) d.length), r.1⟩) := by
  rw [execCbcEncUpdate, if_neg (or_iff_not_and_not.mp hphase), if_neg (not_not.mpr rfl), if_neg (not_lt.mpr hcap), hfed]
  rfl

/-! ## CBC.DEC_UPDATE -/

theorem execCbcDecUpdate_badParam (hphase : s.cbc.phase = .ready ∨ s.cbc.phase = .dec) (harg : arg ≠ 0) :
    execCbcDecUpdate arg outcap d s = .next ((clearEng .cbc s).addResponse ⟨.badParam, 0, 0, []⟩) := by
  rw [execCbcDecUpdate, if_neg (or_iff_not_and_not.mp hphase), if_pos harg]
  rfl

theorem execCbcDecUpdate_tooSmall (hphase : s.cbc.phase = .ready ∨ s.cbc.phase = .dec)
    (hcap : outcap.toNat < updReq s.straps (cbcDecExact s.cbc d.length) d.length) :
    execCbcDecUpdate 0 outcap d s = .next ((clearEng .cbc s).addResponse
      ⟨.bufferTooSmall, 0, BitVec.ofNat 16 (updReq s.straps (cbcDecExact s.cbc d.length) d.length), []⟩) := by
  rw [execCbcDecUpdate, if_neg (or_iff_not_and_not.mp hphase), if_neg (not_not.mpr rfl), if_pos hcap]
  rfl

/-- CBC.DEC_UPDATE past its checks puts out and keeps what its data path gives (R65). -/
theorem execCbcDecUpdate_ok {r : List Byte × CbcCtx} (hphase : s.cbc.phase = .ready ∨ s.cbc.phase = .dec)
    (hcap : updReq s.straps (cbcDecExact s.cbc d.length) d.length ≤ outcap.toNat)
    (hfed : feed cbcDecByte s.cbc d s.bc = .ok r q) :
    execCbcDecUpdate 0 outcap d s =
      .next (((s.setBc q).setCbc { r.2 with phase := .dec }).addResponse
        ⟨.ok, 0, BitVec.ofNat 16 (updReq s.straps (cbcDecExact s.cbc d.length) d.length), r.1⟩) := by
  rw [execCbcDecUpdate, if_neg (or_iff_not_and_not.mp hphase), if_neg (not_not.mpr rfl), if_neg (not_lt.mpr hcap), hfed]
  rfl

/-! ## Failures of CBC.ENC_FINISH -/

/-- How the finish commands see a payload they do not take (R64, R66). -/
theorem length_ne_zero_or (h : d ≠ [] ∨ arg ≠ 0) : d.length ≠ 0 ∨ arg ≠ 0 := h.imp_left (mt List.length_eq_zero_iff.mp)

theorem execCbcEncFinish_badParam (hphase : s.cbc.phase = .ready ∨ s.cbc.phase = .enc) (h : d ≠ [] ∨ arg ≠ 0) :
    execCbcEncFinish arg outcap d s = .next ((clearEng .cbc s).addResponse ⟨.badParam, 0, 0, []⟩) := by
  rw [execCbcEncFinish, if_neg (or_iff_not_and_not.mp hphase), if_pos (length_ne_zero_or h)]
  rfl

theorem execCbcEncFinish_unaligned (hphase : s.cbc.phase = .ready ∨ s.cbc.phase = .enc) (hpad : s.cbc.core.pad = false)
    (hplen : s.cbc.core.plen ≠ 0) (hstrap : s.straps.legacyZeroPad = false) :
    execCbcEncFinish 0 outcap [] s = .next ((clearEng .cbc s).addResponse ⟨.protocolViolation, 0, 0, []⟩) := by
  rw [execCbcEncFinish, if_neg (or_iff_not_and_not.mp hphase), if_neg (by simp), if_neg (by simp [hpad]), if_neg hplen,
    if_pos (by simp [hstrap])]
  rfl

/-- CBC.ENC_FINISH where it would put out a block for which there is no room (R64). -/
theorem execCbcEncFinish_tooSmall (hphase : s.cbc.phase = .ready ∨ s.cbc.phase = .enc)
    (hblock : s.cbc.core.pad = true ∨ (s.cbc.core.plen ≠ 0 ∧ s.straps.legacyZeroPad = true)) (hcap : outcap.toNat < 16) :
    execCbcEncFinish 0 outcap [] s = .next ((clearEng .cbc s).addResponse ⟨.bufferTooSmall, 0, 16, []⟩) := by
  rw [execCbcEncFinish, if_neg (or_iff_not_and_not.mp hphase), if_neg (by simp)]
  by_cases hpad : s.cbc.core.pad = true
  · rw [if_pos hpad, if_pos hcap]
    rfl
  · obtain ⟨hplen, hstrap⟩ := hblock.resolve_left hpad
    rw [if_neg hpad, if_neg hplen, if_neg (not_not.mpr hstrap), if_pos hcap]
    rfl

/-! ## Failures of CBC.DEC_FINISH -/

theorem execCbcDecFinish_badParam (hphase : s.cbc.phase = .ready ∨ s.cbc.phase = .dec) (h : d ≠ [] ∨ arg ≠ 0) :
    execCbcDecFinish arg outcap d s = .next ((clearEng .cbc s).addResponse ⟨.badParam, 0, 0, []⟩) := by
  rw [execCbcDecFinish, if_neg (or_iff_not_and_not.mp hphase), if_pos (length_ne_zero_or h)]
  rfl

/-- With padding enabled the stream must end on a block boundary and hold a block (R66). -/
theorem execCbcDecFinish_noBlock (hphase : s.cbc.phase = .ready ∨ s.cbc.phase = .dec) (hpad : s.cbc.core.pad = true)
    (h : s.cbc.core.plen ≠ 0 ∨ s.cbc.heldv = false) :
    execCbcDecFinish 0 outcap [] s = .next ((clearEng .cbc s).addResponse ⟨.genFail, 0, 0, []⟩) := by
  rw [execCbcDecFinish, if_neg (or_iff_not_and_not.mp hphase), if_neg (by simp), if_pos hpad,
    if_pos (h.imp_right (by simp))]
  rfl

theorem execCbcDecFinish_padded_tooSmall (hphase : s.cbc.phase = .ready ∨ s.cbc.phase = .dec)
    (hpad : s.cbc.core.pad = true) (hplen : s.cbc.core.plen = 0) (hheld : s.cbc.heldv = true)
    (hcap : outcap.toNat < 15) :
    execCbcDecFinish 0 outcap [] s = .next ((clearEng .cbc s).addResponse ⟨.bufferTooSmall, 0, 15, []⟩) := by
  rw [execCbcDecFinish, if_neg (or_iff_not_and_not.mp hphase), if_neg (by simp), if_pos hpad,
    if_neg (by simp [hplen, hheld]), if_pos hcap]
  rfl

theorem execCbcDecFinish_badPadding (hphase : s.cbc.phase = .ready ∨ s.cbc.phase = .dec)
    (hpad : s.cbc.core.pad = true) (hplen : s.cbc.core.plen = 0) (hheld : s.cbc.heldv = true)
    (hcap : 15 ≤ outcap.toNat) (hnone : unpad7 s.cbc.held.toList = none) :
    execCbcDecFinish 0 outcap [] s = .next ((clearEng .cbc s).addResponse ⟨.genFail, 0, 0, []⟩) := by
  rw [execCbcDecFinish, if_neg (or_iff_not_and_not.mp hphase), if_neg (by simp), if_pos hpad,
    if_neg (by simp [hplen, hheld]), if_neg (not_lt.mpr hcap), hnone]
  rfl

theorem execCbcDecFinish_unaligned (hphase : s.cbc.phase = .ready ∨ s.cbc.phase = .dec) (hpad : s.cbc.core.pad = false)
    (hplen : s.cbc.core.plen ≠ 0) (hstrap : s.straps.legacyZeroPad = false) :
    execCbcDecFinish 0 outcap [] s = .next ((clearEng .cbc s).addResponse ⟨.protocolViolation, 0, 0, []⟩) := by
  rw [execCbcDecFinish, if_neg (or_iff_not_and_not.mp hphase), if_neg (by simp), if_neg (by simp [hpad]), if_neg hplen,
    if_pos (by simp [hstrap])]
  rfl

theorem execCbcDecFinish_zeroPadded_tooSmall (hphase : s.cbc.phase = .ready ∨ s.cbc.phase = .dec)
    (hpad : s.cbc.core.pad = false) (hplen : s.cbc.core.plen ≠ 0) (hstrap : s.straps.legacyZeroPad = true)
    (hcap : outcap.toNat < 16) :
    execCbcDecFinish 0 outcap [] s = .next ((clearEng .cbc s).addResponse ⟨.bufferTooSmall, 0, 16, []⟩) := by
  rw [execCbcDecFinish, if_neg (or_iff_not_and_not.mp hphase), if_neg (by simp), if_neg (by simp [hpad]), if_neg hplen,
    if_neg (not_not.mpr hstrap), if_pos hcap]
  rfl

end

end Sys2Proof.Machine
end

section
/-! SUPPORT. CBC streams with no failing request: what each command of a stream hands to the next one, at full capacity,
and what a whole stream puts out. -/

namespace Sys2Proof.Machine

/-! ## With no failure to come -/

/-- With no failure to come every computation succeeds. -/
theorem Disciplined.honest {α : Type} {p : BcPort} {r : BcResult α} (h : Disciplined p r) (hp : Honest p) :
    ∃ a rs, r = .ok a (afterRequests p rs) := by
  obtain ⟨rs, ⟨a, hr, -⟩ | ⟨c, -, -, hdraw, -⟩⟩ := h
  · exact ⟨a, rs, hr⟩
  · exact absurd (hp _ (List.mem_of_getElem? hdraw)) nofun

/-- With no failure to come two byte strings can be fed one after the other, and that is feeding their concatenation. -/
theorem feed_honest_append {σ : Type} {f : σ → Byte → BcPort → BcResult (List Byte × σ)}
    (hf : ∀ S b p, Disciplined p (f S b p)) (S : σ) (x y : List Byte) {p : BcPort} (hp : Honest p) :
    ∃ r q r' q', feed f S x p = .ok r q ∧ feed f r.2 y q = .ok r' q' ∧
      feed f S (x ++ y) p = .ok (r.1 ++ r'.1, r'.2) q' := by
  obtain ⟨r, rs, hx⟩ := (disciplined_feed hf S x p).honest hp
  obtain ⟨r', rs', hy⟩ := (disciplined_feed hf r.2 y (afterRequests p rs)).honest (hp.after rs)
  exact ⟨r, _, r', _, hx, hy, by rw [feed_append, hx, andThen_ok, hy, andThen_ok]⟩

/-! ## The decrypt data path and the phase -/

theorem cbcRelease_phase (C : CbcCtx) (x : Block) (ph : CbcPhase) :
    cbcRelease { C with phase := ph } x = ((cbcRelease C x).1, { (cbcRelease C x).2 with phase := ph }) := by
  unfold cbcRelease
  split <;> rfl

/-- A byte of a decrypt stream neither reads nor writes the phase. -/
theorem cbcDecByte_phase (C : CbcCtx) (ph : CbcPhase) (b : Byte) (p : BcPort) :
    cbcDecByte { C with phase := ph } b p =
      (cbcDecByte C b p).andThen fun r q => .ok (r.1, { r.2 with phase := ph }) q := by
  rcases bufferByte_cases C.core.pend C.core.plen b with ⟨_, hb⟩ | ⟨_, hb⟩ <;> simp only [cbcDecByte, hb]
  · rfl
  · simp only [andThen_assoc, andThen_ok, ← cbcRelease_phase]

/-- A decrypt update neither reads nor writes the phase on its way. -/
theorem feed_cbcDecByte_phase (C : CbcCtx) (ph : CbcPhase) (d : List Byte) (p : BcPort) :
    feed cbcDecByte { C with phase := ph } d p =
      (feed cbcDecByte C d p).andThen fun r q => .ok (r.1, { r.2 with phase := ph }) q := by
  induction d generalizing C p with
  | nil => rfl
  | cons b bs ih => simp only [feed_cons, cbcDecByte_phase, andThen_assoc, andThen_ok, ih]

/-! ## The commands of a stream, at full capacity -/

/-- A command that presents `OK` after some writes runs to the state after them. -/
theorem runsTo_of_next {i : Instr} {s s' : State} {req : Half} {out : List Byte}
    (h : exec i s = .next (s'.addResponse ⟨.ok, 0, req, out⟩)) (hresp : s'.responses = s.responses) :
    runsTo i s (s'.addResponse ⟨.ok, 0, req, out⟩) out :=
  ⟨req, h, by rw [State.addResponse_responses, hresp]⟩

section
variable {s : State} {C : CbcCtx} {arg : Byte} {cap : Half} {d : List Byte} {q : BcPort}

theorem cbcInit_runs (hd : d.length = 19) (harg : arg.toNat < 2) :
    ∃ t, runsTo (.cbcInit arg cap d) s t [] ∧ t.cbc = cbcStart arg d ∧ t.bc = s.bc :=
  ⟨_, runsTo_of_next (execCbcInit_ok (outcap := cap) hd harg) rfl, rfl, rfl⟩

theorem cbcEncUpdate_runs {r : List Byte × CbcCore} (hC : s.cbc = C) (hphase : C.phase = .ready ∨ C.phase = .enc)
    (hlen : d.length ≤ 65520) (hfed : feed cbcEncByte C.core d s.bc = .ok r q) :
    ∃ t, runsTo (.cbcEncUpdate 0 0xFFFF d) s t r.1 ∧ t.cbc = { C with core := r.2, phase := .enc } ∧ t.bc = q := by
  subst hC
  exact ⟨_, runsTo_of_next (execCbcEncUpdate_ok hphase (updReq_le_full (cbcEncExact_le _ _) hlen) hfed) rfl, rfl, rfl⟩

theorem cbcDecUpdate_runs {r : List Byte × CbcCtx} (hC : s.cbc = C) (hphase : C.phase = .ready ∨ C.phase = .dec)
    (hlen : d.length ≤ 65520) (hfed : feed cbcDecByte C d s.bc = .ok r q) :
    ∃ t, runsTo (.cbcDecUpdate 0 0xFFFF d) s t r.1 ∧ t.cbc = { r.2 with phase := .dec } ∧ t.bc = q := by
  subst hC
  exact ⟨_, runsTo_of_next (execCbcDecUpdate_ok hphase (updReq_le_full (cbcDecExact_le _ _) hlen) hfed) rfl, rfl, rfl⟩

theorem cbcEncFinish_runs_padded (hC : s.cbc = C) (hphase : C.phase = .ready ∨ C.phase = .enc)
    (hpad : C.core.pad = true) (hp : Honest s.bc) :
    let x := (Block.ofList (pad7 (C.core.pend.toList.take C.core.plen.val))).xor C.core.chain
    ∃ t, runsTo (.cbcEncFinish 0 0xFFFF []) s t (bcEnc s.bc C.core.keyref x).toList ∧
      t.bc = afterRequests s.bc (encRequests C.core.keyref [x]) := by
  subst hC
  exact ⟨_, runsTo_of_next ((execCbcEncFinish_padded hphase hpad (by decide)).trans (cbcEncLast_honest _ hp)) rfl, rfl⟩

theorem cbcEncFinish_runs_empty (hC : s.cbc = C) (hphase : C.phase = .ready ∨ C.phase = .enc)
    (hpad : C.core.pad = false) (hplen : C.core.plen = 0) :
    ∃ t, runsTo (.cbcEncFinish 0 0xFFFF []) s t [] ∧ t.bc = s.bc := by
  subst hC
  exact ⟨_, runsTo_of_next (execCbcEncFinish_empty hphase hpad hplen) rfl, rfl⟩

theorem cbcDecFinish_runs_padded {b : List Byte} (hC : s.cbc = C) (hphase : C.phase = .ready ∨ C.phase = .dec)
    (hpad : C.core.pad = true) (hplen : C.core.plen = 0) (hheld : C.heldv = true) (hb : unpad7 C.held.toList = some b) :
    ∃ t, runsTo (.cbcDecFinish 0 0xFFFF []) s t b := by
  subst hC
  exact ⟨_, runsTo_of_next (execCbcDecFinish_padded hphase hpad hplen hheld (by decide) hb) rfl⟩

theorem cbcDecFinish_runs_empty (hC : s.cbc = C) (hphase : C.phase = .ready ∨ C.phase = .dec)
    (hpad : C.core.pad = false) (hplen : C.core.plen = 0) : ∃ t, runsTo (.cbcDecFinish 0 0xFFFF []) s t [] := by
  subst hC
  exact ⟨_, runsTo_of_next (execCbcDecFinish_empty hphase hpad hplen) rfl⟩

end

/-! ## A whole stream -/

/-- What a stream started with this `ARG` encrypts: with padding enabled the padded message, else the message. -/
def cbcPadded (arg : Byte) (msg : List Byte) : List Byte := if argPadding arg then pad7 msg else msg

section
variable {s : State} {arg : Byte} {d msg : List Byte}

theorem cbcPadded_on (h : argPadding arg = true) : cbcPadded arg msg = pad7 msg := if_pos h

theorem cbcPadded_off (h : argPadding arg = false) : cbcPadded arg msg = msg := if_neg (by simp [h])

/-- Padding makes a message longer, up to the next multiple of 16 (R55, R68). -/
theorem cbcPadded_length (harg : arg.toNat < 2) :
    (cbcPadded arg msg).length = if arg.toNat = 1 then 16 * (msg.length / 16 + 1) else msg.length := by
  rw [cbcPadded, argPadding_eq harg, apply_ite List.length, pad7_length]
  simp only [decide_eq_true_eq]

/-- An encrypt stream of one update puts out the message, padded where padding is enabled, encrypted in CBC; with
padding disabled the message must be whole blocks (R60, R63, R64). -/
theorem cbcEncStream_runs (hs : s.cbc = cbcStart arg d) (hp : Honest s.bc)
    (hwhole : argPadding arg = false → msg.length % 16 = 0) (hlen : msg.length ≤ 65520) :
    ∃ t u c1 c2 rs, runsTo (.cbcEncUpdate 0 0xFFFF msg) s t c1 ∧ runsTo (.cbcEncFinish 0 0xFFFF []) t u c2 ∧
      u.bc = afterRequests s.bc rs ∧
      c1 ++ c2 = blockBytes
        (cbcCipher (bcEnc s.bc (payloadKeyRef d)) (payloadBlock d) (wholeBlocks (cbcPadded arg msg))) := by
  have hfed := feed_cbcEncByte (S := (cbcStart arg d).core) msg (zeroTail_zero _) hp
  have hall : pendingThen (cbcStart arg d).core.pend (cbcStart arg d).core.plen.val msg = msg := pendingThen_zero _ _
  simp only [hall] at hfed
  obtain ⟨t, ht, hctx, hport⟩ := cbcEncUpdate_runs hs (.inl rfl) hlen hfed
  cases hpad : argPadding arg with
  | true =>
    obtain ⟨u, hu, huport⟩ := cbcEncFinish_runs_padded hctx (.inr rfl) hpad (hport ▸ hp.after _)
    refine ⟨t, u, _, _, _, ht, hu, by rw [huport, hport, afterRequests_append], ?_⟩
    rw [cbcPadded_on hpad, wholeBlocks_pad7, cbcCipher_append, blockBytes_append, hport, take_ofList_tailBytes]
    exact congrArg _ (List.append_nil _).symm
  | false =>
    obtain ⟨u, hu, huport⟩ := cbcEncFinish_runs_empty hctx (.inr rfl) hpad (Fin.ext (hwhole hpad))
    refine ⟨t, u, _, _, _, ht, hu, huport.trans hport, ?_⟩
    rw [cbcPadded_off hpad, List.append_nil]
    rfl

/-- A decrypt stream of one update, fed what decrypts to a message padded where padding is enabled, puts out the
message (R61, R65, R66). -/
theorem cbcDecStream_runs {ys : List Block} (hs : s.cbc = cbcStart arg d) (hp : Honest s.bc)
    (hwhole : argPadding arg = false → msg.length % 16 = 0) (hlen : (blockBytes ys).length ≤ 65520)
    (hys : cbcPlain (bcDec s.bc (payloadKeyRef d)) (payloadBlock d) ys = wholeBlocks (cbcPadded arg msg)) :
    ∃ t u m1 m2, runsTo (.cbcDecUpdate 0 0xFFFF (blockBytes ys)) s t m1 ∧ runsTo (.cbcDecFinish 0 0xFFFF []) t u m2 ∧
      m1 ++ m2 = msg := by
  have hfed := feed_cbcDecByte (C := cbcStart arg d) (blockBytes ys) (zeroTail_zero _) (fun _ => rfl) hp
  have hall : pendingThen (cbcStart arg d).core.pend (cbcStart arg d).core.plen.val (blockBytes ys) = blockBytes ys :=
    pendingThen_zero _ _
  have hplain : cbcPlain (bcDec s.bc (cbcStart arg d).core.keyref) (cbcStart arg d).core.chain ys =
    wholeBlocks (cbcPadded arg msg) := hys
  have hnone : (if (cbcStart arg d).heldv then [(cbcStart arg d).held] else []) = [] := rfl
  simp only [hall, wholeBlocks_blockBytes, hplain, hnone, List.nil_append] at hfed
  obtain ⟨t, ht, hctx, -⟩ := cbcDecUpdate_runs hs (.inl rfl) hlen hfed
  have hplen : rem16 (blockBytes ys).length = 0 := Fin.ext (by simp [rem16, blockBytes_length])
  cases hpad : argPadding arg with
  | true =>
    have hmode : (cbcStart arg d).core.pad = true := hpad
    simp only [hmode, if_true, cbcPadded_on hpad, wholeBlocks_pad7] at ht hctx
    have hstrip : unpad7 (Block.ofList (pad7 (tailBytes msg))).toList = some (tailBytes msg) := by
      rw [Block.toList_ofList (pad7_tailBytes_length msg), unpad7_pad7]
    obtain ⟨u, hu⟩ := cbcDecFinish_runs_padded hctx (.inr rfl) rfl hplen (by simp) (by rwa [List.getLastD_concat])
    refine ⟨t, u, _, _, ht, hu, ?_⟩
    rw [List.dropLast_concat, blockBytes_wholeBlocks_append_tailBytes]
  | false =>
    have hmode : (cbcStart arg d).core.pad = false := hpad
    simp only [hmode, Bool.false_eq_true, if_false, cbcPadded_off hpad] at ht hctx
    obtain ⟨u, hu⟩ := cbcDecFinish_runs_empty hctx (.inr rfl) rfl hplen
    exact ⟨t, u, _, _, ht, hu, by rw [List.append_nil, blockBytes_wholeBlocks (hwhole hpad)]⟩

end

end Sys2Proof.Machine
end

section
/-! CERTIFICATE. The statements of spec/41_cbc.md: CBC.INIT, the two CBC updates, the errors of the finish commands, and
the laws of a CBC stream. -/

namespace Sys2Proof.Machine

/-- Settles O26: the data path takes the pending bytes and the payload together, block by block. -/
theorem cbcEncUpdateResult : Obligations.CbcEncUpdateResult := by
  intro s outcap data hinv hbc hphase C E d ys req hcap
  obtain ⟨⟨hzero, -⟩, -⟩ := hinv
  have hreq : updReq s.straps (cbcEncExact s.cbc data.length) data.length = req := by
    rw [updReq_eq_updateDemand, cbcEncExact, ← pendingThen_length C.pend data C.plen.isLt.le]
  rw [← hreq] at hcap ⊢
  exact execCbcEncUpdate_ok hphase hcap (feed_cbcEncByte data hzero hbc)

/-- Settles O28: the demand is exact because the data path puts out the blocks the command foresees. -/
theorem cbcDecUpdateResult : Obligations.CbcDecUpdateResult := by
  intro s outcap data hinv hbc hphase C d ys xs queue released req hcap
  obtain ⟨⟨hzero, -, hheld, -⟩, -⟩ := hinv
  have hfed := feed_cbcDecByte data hzero hheld hbc
  have hreq : updReq s.straps (cbcDecExact s.cbc data.length) data.length = req := by
    rw [updReq_eq_updateDemand, ← feed_cbcDecByte_length hfed, blockBytes_length]
  rw [← hreq] at hcap ⊢
  exact execCbcDecUpdate_ok hphase hcap hfed

/-- Settles O32: the encrypt stream puts out the CBC ciphertext of the padded message, the decrypt stream starts from
the same key handle and chaining value, and CBC decryption undoes CBC encryption. -/
theorem cbcDecryptOfEncrypt : Obligations.CbcDecryptOfEncrypt := by
  intro s arg b0 b1 b2 iv msg hp hiv hmsg
  have harg : arg.toNat < 2 := by omega
  have hd : (b0 :: b1 :: b2 :: iv).length = 19 := by simp [hiv]
  have hwhole : argPadding arg = false → msg.length % 16 = 0 := by
    rw [argPadding_eq harg, decide_eq_false_iff_not]
    omega
  have hpadded := cbcPadded_length (msg := msg) harg
  obtain ⟨s1, hs1, hs1ctx, hs1port⟩ := cbcInit_runs (s := s) (cap := 0) hd harg
  rw [← hs1port] at hp
  obtain ⟨s2, s3, c1, c2, rs, hs2, hs3, hs3port, hc⟩ := cbcEncStream_runs hs1ctx hp hwhole (by omega)
  obtain ⟨t1, ht1, ht1ctx, ht1port⟩ := cbcInit_runs (s := s3) (cap := 0) hd harg
  have hlen : (c1 ++ c2).length = if arg.toNat = 1 then 16 * (msg.length / 16 + 1) else msg.length := by
    rw [hc, blockBytes_length, cbcCipher_length, wholeBlocks_length, hpadded]
    split <;> omega
  rw [hs3port] at ht1port
  obtain ⟨t2, t3, m1, m2, ht2, ht3, hm⟩ := cbcDecStream_runs ht1ctx (ht1port ▸ hp.after rs) hwhole
    (by rw [← hc, hlen]; split <;> omega)
    (by rw [ht1port, bcDec_afterRequests]; exact cbcPlain_cbcCipher (bcDec_bcEnc s1.bc _) _ _)
  rw [← hc] at ht2
  exact ⟨s1, s2, s3, t1, t2, t3, c1, c2, m1, m2, hs1, hs2, hs3, ht1, ht2, ht3, hm, hlen⟩

/-- Settles O33: feeding two strings in turn is feeding their concatenation, and the phase the first decrypt update
writes is not read by the second. -/
theorem cbcUpdateSplit : Obligations.CbcUpdateSplit := by
  intro s x y hp hlen
  refine ⟨fun hphase => ?_, fun hphase => ?_⟩
  · obtain ⟨r, q, r', q', hx, hy, hxy⟩ := feed_honest_append disciplined_cbcEncByte s.cbc.core x y hp
    obtain ⟨t, ht, htctx, htport⟩ := cbcEncUpdate_runs rfl hphase (by rw [List.length_append]; exact hlen) hxy
    obtain ⟨t1, ht1, ht1ctx, rfl⟩ := cbcEncUpdate_runs rfl hphase (by omega) hx
    obtain ⟨t2, ht2, ht2ctx, ht2port⟩ := cbcEncUpdate_runs ht1ctx (.inr rfl) (by omega) hy
    exact ⟨t, t1, t2, _, _, ht, ht1, ht2, ht2ctx.trans htctx.symm, ht2port.trans htport.symm⟩
  · obtain ⟨r, q, r', q', hx, hy, hxy⟩ := feed_honest_append disciplined_cbcDecByte s.cbc x y hp
    obtain ⟨t, ht, htctx, htport⟩ := cbcDecUpdate_runs rfl hphase (by rw [List.length_append]; exact hlen) hxy
    obtain ⟨t1, ht1, ht1ctx, rfl⟩ := cbcDecUpdate_runs rfl hphase (by omega) hx
    have hphased :
        feed cbcDecByte { r.2 with phase := .dec } y t1.bc = .ok (r'.1, { r'.2 with phase := .dec }) q' := by
      rw [feed_cbcDecByte_phase, hy, andThen_ok]
    obtain ⟨t2, ht2, ht2ctx, ht2port⟩ := cbcDecUpdate_runs ht1ctx (.inr rfl) (by omega) hphased
    exact ⟨t, t1, t2, _, _, ht, ht1, ht2, ht2ctx.trans htctx.symm, ht2port.trans htport.symm⟩

/-- Settles O25: one rule per outcome, and the operands of a 19-byte payload. -/
theorem cbcInitCommand : Obligations.CbcInitCommand := by
  intro s arg outcap
  refine ⟨fun _ => execCbcInit_nullPointer (outcap := outcap), fun _ => execCbcInit_badParam (outcap := outcap),
    fun b0 b1 b2 iv hiv harg => ?_⟩
  rw [← payloadKeyRef_cons b0 b1 b2 iv, ← payloadBlock_cons b0 b1 b2 hiv, ← argPadding_eq harg]
  exact execCbcInit_ok (outcap := outcap) (by simp [hiv]) harg

/-- Settles O30: the parameter check comes first, then the capacity against the demand. -/
theorem cbcUpdateErrors : Obligations.CbcUpdateErrors := by
  intro s arg outcap data len decExact fails
  simp only [← updReq_eq_updateDemand]
  refine ⟨fun hphase => ⟨execCbcEncUpdate_badParam hphase, ?_⟩, fun hphase => ⟨execCbcDecUpdate_badParam hphase, ?_⟩⟩ <;>
    rintro rfl hcap
  · exact execCbcEncUpdate_tooSmall hphase hcap
  · exact execCbcDecUpdate_tooSmall hphase hcap

/-- Settles O31: one rule per failing check; no well-formed padding means that `unpad7` fails. -/
theorem cbcFinishErrors : Obligations.CbcFinishErrors := by
  intro s arg outcap d C fails
  refine ⟨fun hphase => ⟨execCbcEncFinish_badParam hphase, execCbcEncFinish_unaligned hphase,
      execCbcEncFinish_tooSmall hphase⟩, fun hphase => ⟨execCbcDecFinish_badParam hphase, execCbcDecFinish_noBlock hphase,
      execCbcDecFinish_padded_tooSmall hphase, fun hpad hplen hheld hcap hnot => ?_, execCbcDecFinish_unaligned hphase,
      execCbcDecFinish_zeroPadded_tooSmall hphase⟩⟩
  exact execCbcDecFinish_badPadding hphase hpad hplen hheld hcap (unpad7_eq_none hnot)

end Sys2Proof.Machine
end

section
/-! SUPPORT. A block bit by bit, as bytes and as a 128-bit integer, and what `dbl` does to it. -/

namespace Sys2Proof

/-! ## The bits of a byte string -/

/-- Bit `j` of byte `i` in the big-endian integer of a byte string (R6). -/
theorem testBit_intBe (bs : List Byte) {i j : Nat} (hi : i < bs.length) (hj : j < 8) :
    (intBe bs).testBit (8 * (bs.length - 1 - i) + j) = bs[i].getLsbD j := by
  induction bs generalizing i with
  | nil => exact absurd hi (Nat.not_lt_zero i)
  | cons b bs ih =>
    have hpow : 256 ^ bs.length = 2 ^ (8 * bs.length) := by rw [Nat.pow_mul]
    have hlt : intBe bs < 2 ^ (8 * bs.length) := hpow ▸ intBe_lt bs
    rw [intBe_cons, hpow, Nat.mul_comm, Nat.testBit_two_pow_mul_add _ hlt, List.length_cons]
    cases i with
    | zero =>
      rw [if_neg (by omega), List.getElem_cons_zero, BitVec.getLsbD]
      congr 1
      omega
    | succ i =>
      have hi' : i < bs.length := Nat.lt_of_succ_lt_succ hi
      rw [if_pos (by omega), List.getElem_cons_succ, ← ih hi']
      congr 1
      omega

/-! ## A block as a 128-bit integer -/

theorem Block.toInt_lt (x : Block) : x.toInt < 2 ^ 128 := by
  have h := intBe_lt x.toList
  rwa [Block.toList_length] at h

/-- Bit `n` of the integer is bit `n % 8` of the byte `n / 8` places before the last (R27). -/
theorem Block.testBit_toInt (x : Block) {n : Nat} (h : n < 128) :
    x.toInt.testBit n = x[15 - n / 8].getLsbD (n % 8) := by
  have hbit := testBit_intBe x.toList (i := 15 - n / 8) (j := n % 8) (by rw [Block.toList_length]; omega) (by omega)
  simp only [Vector.getElem_toList, Block.toList_length] at hbit
  rw [← hbit, Block.toInt]
  congr 1
  omega

/-- Bit `j` of byte `i` in the integer (R27). -/
theorem Block.getLsbD_getElem (x : Block) {i j : Nat} (hi : i < 16) (hj : j < 8) :
    x[i].getLsbD j = x.toInt.testBit (8 * (15 - i) + j) := by
  have hbyte : 15 - (8 * (15 - i) + j) / 8 = i := by omega
  have hbit : (8 * (15 - i) + j) % 8 = j := by omega
  simp only [Block.testBit_toInt x (n := 8 * (15 - i) + j) (by omega), hbyte, hbit]

/-- The block of an integer's 16 big-endian bytes has that integer as its value, modulo `2 ^ 128` (R27). -/
theorem Block.toInt_ofList_be (v : Nat) : (Block.ofList (be v 16)).toInt = v % 2 ^ 128 := by
  rw [Block.toInt, Block.toList_ofList (be_length v 16), intBe_be_mod]
  rfl

/-- The exclusive-or of blocks is that of their integers (R6, R27). -/
theorem Block.toInt_xor (x y : Block) : (x.xor y).toInt = x.toInt ^^^ y.toInt := by
  apply Nat.eq_of_testBit_eq
  intro n
  rw [Nat.testBit_xor]
  by_cases h : n < 128
  · simp only [Block.testBit_toInt _ h, Block.xor_getElem, BitVec.getLsbD_xor]
  · have hhigh (z : Block) : z.toInt.testBit n = false :=
      Nat.testBit_lt_two_pow ((Block.toInt_lt z).trans_le (Nat.pow_le_pow_right (by decide) (by omega)))
    simp only [hhigh, Bool.xor_false]

end Sys2Proof

namespace Sys2Proof.Machine

/-! ## The doubling -/

/-- A block shifted left by one bit (R70). -/
def shiftBlock (x : Block) : Block := Block.ofList (be (x.toInt * 2 % 2 ^ 128) 16)

/-- What `dbl` adds after the shift: the reduction constant in the last byte, when a bit was shifted out (R70). -/
def reduction (x : Block) : Block := Block.zero.set 15 (if x[0].getLsbD 7 then Config.rb else 0)

theorem toInt_shiftBlock (x : Block) : (shiftBlock x).toInt = 2 * x.toInt % 2 ^ 128 := by
  rw [shiftBlock, Block.toInt_ofList_be, Nat.mod_mod, Nat.mul_comm]

/-- The bit shifted out is the highest bit of the integer (R70). -/
theorem topBit_iff (x : Block) : x[0].getLsbD 7 = true ↔ 2 ^ 127 ≤ x.toInt := by
  have hlt := Block.toInt_lt x
  rw [Block.getLsbD_getElem x (by decide) (by decide), Nat.testBit_eq_decide_div_mod_eq, decide_eq_true_iff]
  omega

theorem toInt_reduction (x : Block) : (reduction x).toInt = if x.toInt < 2 ^ 127 then 0 else 0x87 := by
  by_cases h : 2 ^ 127 ≤ x.toInt
  · rw [reduction, if_pos ((topBit_iff x).mpr h), if_neg (not_lt.mpr h)]
    decide
  · rw [reduction, if_neg (mt (topBit_iff x).mp h), if_pos (not_le.mp h)]
    decide

/-- Changing the last byte is an exclusive-or with a block that is zero elsewhere. -/
theorem xor_zero_set_last (x : Block) (b : Byte) : x.xor (Block.zero.set 15 b) = x.set 15 (x[15] ^^^ b) := by
  ext i hi : 1
  by_cases h : 15 = i
  · subst h
    simp
  · simp [h]

/-- `dbl` is the shift, then the reduction (R70). -/
theorem dbl_eq_xor (x : Block) : dbl x = (shiftBlock x).xor (reduction x) := by
  have hlt := Block.toInt_lt x
  by_cases h : 2 ^ 127 ≤ x.toInt
  · rw [reduction, if_pos ((topBit_iff x).mpr h), xor_zero_set_last]
    exact if_pos (by omega)
  · have hzero : (Block.zero.set 15 0 : Block) = Block.zero := rfl
    rw [reduction, if_neg (mt (topBit_iff x).mp h), hzero, Block.xor_zero]
    exact if_neg (by omega)

/-- A bit of the shifted block is the one below it in the integer (R70). -/
theorem shiftBlock_getLsbD (x : Block) {i j : Nat} (hi : i < 16) (hj : j < 8) :
    (shiftBlock x)[i].getLsbD j =
      (decide (1 ≤ 8 * (15 - i) + j) && x.toInt.testBit (8 * (15 - i) + j - 1)) := by
  have hn : 8 * (15 - i) + j < 128 := by omega
  rw [Block.getLsbD_getElem _ hi hj, toInt_shiftBlock, Nat.testBit_mod_two_pow, decide_eq_true hn, Bool.true_and,
    ← Nat.pow_one 2, Nat.testBit_two_pow_mul]

/-- The last byte is shifted left by one (R70). -/
theorem shiftBlock_last (x : Block) : (shiftBlock x)[15] = x[15] <<< 1 := by
  apply BitVec.eq_of_getLsbD_eq
  intro j hj
  rw [shiftBlock_getLsbD x (by decide) hj, BitVec.getLsbD_shiftLeft]
  cases j with
  | zero => rfl
  | succ j => simp [Block.getLsbD_getElem x (i := 15) (j := j) (by decide) (by omega), hj]

/-- Every other byte is shifted left by one, with the top bit of the byte after it below (R70). -/
theorem shiftBlock_getElem (x : Block) {i : Nat} (hi : i < 15) :
    (shiftBlock x)[i] = (x[i] <<< 1) ||| (x[i + 1] >>> 7) := by
  apply BitVec.eq_of_getLsbD_eq
  intro j hj
  rw [shiftBlock_getLsbD x (by omega) hj, BitVec.getLsbD_or, BitVec.getLsbD_shiftLeft, BitVec.getLsbD_ushiftRight]
  cases j with
  | zero =>
    have hn : 8 * (15 - i) + 0 - 1 = 8 * (15 - (i + 1)) + 7 := by omega
    rw [hn, ← Block.getLsbD_getElem x (by omega) (by decide), decide_eq_true (by omega)]
    simp
  | succ j =>
    have hn : 8 * (15 - i) + (j + 1) - 1 = 8 * (15 - i) + j := by omega
    have hhigh : x[i + 1].getLsbD (7 + (j + 1)) = false := BitVec.getLsbD_of_ge _ _ (by omega)
    rw [hn, ← Block.getLsbD_getElem x (by omega) (by omega), hhigh, decide_eq_true (by omega)]
    simp [hj]

end Sys2Proof.Machine
end

section
/-! SUPPORT. How CMAC.INIT, CMAC.UPDATE and CMAC.FINISH end, one rule per outcome of their checks, and how the two MAC
updates hand a stream on. -/

namespace Sys2Proof.Machine

section
variable {s : State} {arg : Byte} {outcap : Half} {d : List Byte} {q : BcPort}

/-! ## CMAC.INIT -/

theorem execCmacInit_badParam (h : d.length ≠ 3 ∨ arg ≠ 0) :
    execCmacInit arg outcap d s = .next ((clearEng .cmac s).addResponse ⟨.badParam, 0, 0, []⟩) := if_pos h

theorem execCmacInit_ok (hd : d.length = 3) :
    execCmacInit 0 outcap d s = .next ((s.setCmac (cmacStart d)).addResponse ⟨.ok, 0, 0, []⟩) :=
  if_neg (not_or_intro (not_not.mpr hd) (not_not.mpr rfl))

/-! ## CMAC.UPDATE -/

theorem execCmacUpdate_badParam (hphase : s.cmac.phase = .active) (harg : arg ≠ 0) :
    execCmacUpdate arg outcap d s = .next ((clearEng .cmac s).addResponse ⟨.badParam, 0, 0, []⟩) := by
  rw [execCmacUpdate, if_neg (not_not.mpr hphase), if_pos harg]
  rfl

/-- CMAC.UPDATE past its checks keeps what its data path gives (R73). -/
theorem execCmacUpdate_ok {r : List Byte × CmacCtx} (hphase : s.cmac.phase = .active)
    (hfed : feed cmacByte s.cmac d s.bc = .ok r q) :
    execCmacUpdate 0 outcap d s = .next (((s.setBc q).setCmac r.2).addResponse ⟨.ok, 0, 0, []⟩) := by
  rw [execCmacUpdate, if_neg (not_not.mpr hphase), if_neg (not_not.mpr rfl), hfed]
  rfl

/-! ## CMAC.FINISH -/

theorem execCmacFinish_badParam (hphase : s.cmac.phase = .active) (h : d ≠ [] ∨ arg.toNat > 16) :
    execCmacFinish arg outcap d s = .next ((clearEng .cmac s).addResponse ⟨.badParam, 0, 0, []⟩) := by
  rw [execCmacFinish, if_neg (not_not.mpr hphase), if_pos (h.imp_left (mt List.length_eq_zero_iff.mp))]
  rfl

/-- Past its parameter checks CMAC.FINISH depends on the capacity, then on its two requests (R74). -/
theorem execCmacFinish_checked (hphase : s.cmac.phase = .active) (harg : arg.toNat ≤ 16) :
    execCmacFinish arg outcap [] s =
      if outcap.toNat < arg.toNat then raise .cmac (.bufferTooSmall arg.toNat) s
      else runCipher .cmac (cmacTag s.cmac s.bc) s fun t s' =>
        respond 0 arg.toNat (t.toList.take arg.toNat) (s'.setCmac (clearCmac s.cmac)) := by
  have hgood : ¬(([] : List Byte).length ≠ 0 ∨ arg.toNat > 16) :=
    not_or_intro (not_not.mpr rfl) (not_lt.mpr harg)
  rw [execCmacFinish, if_neg (not_not.mpr hphase), if_neg hgood]

theorem execCmacFinish_ok {t : Block} (hphase : s.cmac.phase = .active) (harg : arg.toNat ≤ 16)
    (hcap : arg.toNat ≤ outcap.toNat) (htag : cmacTag s.cmac s.bc = .ok t q) :
    execCmacFinish arg outcap [] s = .next (((clearEng .cmac s).setBc q).addResponse
      ⟨.ok, 0, BitVec.ofNat 16 arg.toNat, t.toList.take arg.toNat⟩) := by
  rw [execCmacFinish_checked hphase harg, if_neg (not_lt.mpr hcap), htag]
  rfl

/-- The last block, with the lookahead's fill compared as the register holds it (R71). -/
theorem cmacLast_eq (C : CmacCtx) (l : Block) :
    cmacLast C l =
      if C.plen = 16 then C.pend.xor (dbl l)
      else (Block.ofList (C.pend.toList.take C.plen.val ++ [0x80] ++ List.replicate (15 - C.plen.val) 0)).xor
        (dbl (dbl l)) :=
  ite_congr (propext ⟨fun h => Fin.ext h, fun h => congrArg Fin.val h⟩) (fun _ => rfl) (fun _ => rfl)

/-- The MAC with no failure to come: the answer to the second of two requests (R71, R74). -/
theorem cmacTag_honest {C : CmacCtx} {p : BcPort} {x : Block} (hp : Honest p)
    (hx : x = (cmacLast C (bcEnc p C.cbc.keyref Block.zero)).xor C.cbc.chain) :
    cmacTag C p = .ok (bcEnc p C.cbc.keyref x) (afterRequests p (encRequests C.cbc.keyref [Block.zero, x])) := by
  subst hx
  rw [cmacTag, bcRequest_honest hp, andThen_ok, cbcEncBlock_honest (hp.after _), andThen_ok, bcEnc_afterRequests,
    afterRequests_append]
  rfl

/-! ## The updates of a stream -/

theorem cmacUpdate_runs {r : List Byte × CmacCtx} (hphase : s.cmac.phase = .active)
    (hfed : feed cmacByte s.cmac d s.bc = .ok r q) :
    ∃ t, runsTo (.cmacUpdate 0 outcap d) s t [] ∧ t.cmac = r.2 ∧ t.bc = q :=
  ⟨_, runsTo_of_next (execCmacUpdate_ok (outcap := outcap) hphase hfed) rfl, rfl, rfl⟩

/-- MAC.UPDATE past its checks keeps what `mac_feed` gives (R85). -/
theorem execMacUpdate_ok {m : MacCore} (hphase : s.mac.phase = .active) (hfed : macFeed s.mac.core d s.bc = .ok m q) :
    execMacUpdate 0 outcap d s =
      .next (((s.setBc q).setMac { s.mac with core := m }).addResponse ⟨.ok, 0, 0, []⟩) := by
  rw [execMacUpdate, if_neg (not_not.mpr hphase), if_neg (not_not.mpr rfl), hfed]
  rfl

theorem macUpdate_runs {m : MacCore} (hphase : s.mac.phase = .active) (hfed : macFeed s.mac.core d s.bc = .ok m q) :
    ∃ t, runsTo (.macUpdate 0 outcap d) s t [] ∧ t.mac = { s.mac with core := m } ∧ t.bc = q :=
  ⟨_, runsTo_of_next (execMacUpdate_ok (outcap := outcap) hphase hfed) rfl, rfl, rfl⟩

end

/-- With no failure to come `mac_feed` takes two strings in turn as it takes their concatenation (R28, R83). -/
theorem macFeed_honest_append (M : MacCore) (x y : List Byte) {p : BcPort} (hp : Honest p) :
    ∃ m q m' q', macFeed M x p = .ok m q ∧ macFeed m y q = .ok m' q' ∧ macFeed M (x ++ y) p = .ok m' q' := by
  obtain ⟨m, rs, hx⟩ := (disciplined_macFeed M x p).honest hp
  obtain ⟨m', rs', hy⟩ := (disciplined_macFeed m y (afterRequests p rs)).honest (hp.after rs)
  exact ⟨m, _, m', _, hx, hy, by rw [← macFeed_append, hx, andThen_ok, hy]⟩

end Sys2Proof.Machine
end

section
/-! CERTIFICATE. The statements of spec/42_cmac.md: the doubling, the three CMAC commands, and that splitting an update
of a CMAC or a CBC-MAC stream changes nothing. -/

namespace Sys2Proof.Machine

/-- Settles O35: `dbl` is a shift of the 128-bit integer and an exclusive-or with the reduction constant, and both are
read off bit by bit. -/
theorem doublingBytewise : Obligations.DoublingBytewise := by
  intro x
  refine ⟨fun i hi => ?_, ?_, ?_⟩
  · have hrest : (reduction x)[i] = 0 := by
      rw [reduction, Vector.getElem_set_ne _ _ (by omega), Vector.getElem_replicate]
    rw [← shiftBlock_getElem x hi, dbl_eq_xor, Block.xor_getElem, hrest]
    exact BitVec.xor_zero
  · rw [← shiftBlock_last, dbl_eq_xor, Block.xor_getElem, reduction, Vector.getElem_set_self]
    rfl
  · have hlt := Block.toInt_lt x
    rw [dbl_eq_xor, Block.toInt_xor, toInt_shiftBlock, toInt_reduction]
    by_cases h : x.toInt < 2 ^ 127
    · have hshift : 2 * x.toInt % 2 ^ 128 = 2 * x.toInt := Nat.mod_eq_of_lt (by omega)
      rw [if_pos h, if_pos h, hshift, Nat.xor_zero]
    · have hshift : 2 * x.toInt % 2 ^ 128 = 2 * x.toInt - 2 ^ 128 := by omega
      rw [if_neg h, if_neg h, hshift]

/-- Settles O36: the data path folds all but the last 1 to 16 bytes into the chain. -/
theorem cmacUpdateResult : Obligations.CmacUpdateResult := by
  intro s outcap data hinv hbc hphase C E d n xs
  obtain ⟨-, ⟨hzero, -⟩, -⟩ := hinv
  obtain ⟨plen, hplen, hfed⟩ := feed_cmacByte data hzero hbc
  exact ⟨plen, hplen, execCmacUpdate_ok (outcap := outcap) hphase hfed⟩

/-- Settles O37: past its checks the command answers with the MAC, two requests later. -/
theorem cmacFinishResult : Obligations.CmacFinishResult := by
  intro s len outcap hbc hphase hlen hcap C E k1 last x
  have hx : x = (cmacLast C (E Block.zero)).xor C.cbc.chain := congrArg (Block.xor · _) (cmacLast_eq C _).symm
  exact execCmacFinish_ok hphase hlen hcap (cmacTag_honest hbc hx)

/-- Settles O39: feeding two strings in turn is feeding their concatenation, and the stream stays active. -/
theorem macUpdateSplit : Obligations.MacUpdateSplit := by
  intro s cap x y hp
  refine ⟨fun hphase => ?_, fun hphase => ?_⟩
  · obtain ⟨r, q, r', q', hx, hy, hxy⟩ := feed_honest_append disciplined_cmacByte s.cmac x y hp
    have hactive : r.2.phase = .active := (feed_cmacByte_keyref_phase hx).2.trans hphase
    obtain ⟨t, ht, htctx, htport⟩ := cmacUpdate_runs (outcap := cap) hphase hxy
    obtain ⟨t1, ht1, ht1ctx, rfl⟩ := cmacUpdate_runs (outcap := cap) hphase hx
    rw [← ht1ctx] at hactive hy
    obtain ⟨t2, ht2, ht2ctx, ht2port⟩ := cmacUpdate_runs (outcap := cap) hactive hy
    exact ⟨t, t1, t2, ht, ht1, ht2, ht2ctx.trans htctx.symm, ht2port.trans htport.symm⟩
  · obtain ⟨m, q, m', q', hx, hy, hxy⟩ := macFeed_honest_append s.mac.core x y hp
    obtain ⟨t, ht, htctx, htport⟩ := macUpdate_runs (outcap := cap) hphase hxy
    obtain ⟨t1, ht1, ht1ctx, rfl⟩ := macUpdate_runs (outcap := cap) hphase hx
    have hactive : t1.mac.phase = .active := by rw [ht1ctx]; exact hphase
    have hcore : t1.mac.core = m := by rw [ht1ctx]
    rw [← hcore] at hy
    obtain ⟨t2, ht2, ht2ctx, ht2port⟩ := macUpdate_runs (outcap := cap) hactive hy
    rw [ht1ctx] at ht2ctx
    exact ⟨t, t1, t2, ht, ht1, ht2, ht2ctx.trans htctx.symm, ht2port.trans htport.symm⟩

/-- Settles O34: one rule per outcome, and the key handle of a 3-byte payload. -/
theorem cmacInitCommand : Obligations.CmacInitCommand := by
  intro s arg outcap
  refine ⟨fun _ => execCmacInit_badParam (outcap := outcap), ?_⟩
  rintro b0 b1 b2 rfl
  rw [← payloadKeyRef_cons b0 b1 b2 []]
  exact execCmacInit_ok (outcap := outcap) rfl

/-- Settles O38: the parameter checks come first, then the capacity. -/
theorem cmacErrors : Obligations.CmacErrors := by
  intro s arg outcap d hphase fails
  exact ⟨execCmacUpdate_badParam (outcap := outcap) hphase, execCmacFinish_badParam hphase,
    fun harg hcap => (execCmacFinish_checked hphase harg).trans (if_pos hcap)⟩

end Sys2Proof.Machine
end

section
/-! SUPPORT. The counter field of a block under `inc`, and how CTR.INIT and the function the two CTR block commands share
end, one rule per outcome of their checks. -/

namespace Sys2Proof.Machine

/-! ## The counter field -/

section
variable {w : Nat}

/-- The bytes of an incremented block: those above the field as they were, then the field (R79). -/
theorem toList_inc (x : Block) (hw : w ≤ 16) :
    (inc x w).toList =
      x.toList.take (16 - w) ++ be ((intBe (x.toList.drop (16 - w)) + 1) % 256 ^ w) w := by
  apply Block.toList_ofList
  rw [List.length_append, List.length_take, Block.toList_length, be_length]
  omega

theorem take_toList_inc (x : Block) (hw : w ≤ 16) : (inc x w).toList.take (16 - w) = x.toList.take (16 - w) := by
  rw [toList_inc x hw]
  exact List.take_left' (by simp)

theorem intBe_drop_toList_inc (x : Block) (hw : w ≤ 16) :
    intBe ((inc x w).toList.drop (16 - w)) = (intBe (x.toList.drop (16 - w)) + 1) % 256 ^ w := by
  rw [toList_inc x hw, List.drop_left' (by simp), intBe_be (Nat.mod_lt _ (by positivity))]

theorem getElem_inc_of_lt (x : Block) {i : Nat} (h : i < 16) (hi : i < 16 - w) : (inc x w)[i] = x[i] := by
  have htake := congrArg (·[i]?) (take_toList_inc x (w := w) (by omega))
  simpa [List.getElem?_take_of_lt hi, h] using htake

end

/-! ## The counter after a block -/

/-- The step of a counter, written on the counter block alone (R78). -/
theorem ctrStep_eq (C : CtrCore) : ctrStep C = { C with cb := if C.w = 0 then C.cb else inc C.cb C.w.toNat } := by
  unfold ctrStep
  by_cases h : C.w = 0
  · rw [if_neg (not_not.mpr h), if_pos h]
  · rw [if_pos h, if_neg h]

/-- The step of a counter keeps the nonce bytes, whatever its width (R82). -/
theorem getElem_ctrStep_of_lt (C : CtrCore) {i : Nat} (h : i < 16) (hi : i < 16 - C.w.toNat) :
    (ctrStep C).cb[i] = C.cb[i] := by
  unfold ctrStep
  split
  · exact getElem_inc_of_lt C.cb h hi
  · rfl

/-! ## The width check -/

/-- The check of the model refuses just the widths the statements do not accept (R81). -/
theorem ctrWidthBad_iff (st : Straps) (w : Byte) : ctrWidthBad st w = true ↔ ¬ widthAccepted st w := by
  have hstrap : st.ctrWidth0 = .reject ↔ st.ctrWidth0 ≠ .noop := by cases st.ctrWidth0 <;> decide
  simp only [ctrWidthBad, widthAccepted, Bool.or_eq_true, Bool.and_eq_true, decide_eq_true_eq, hstrap, not_and_or,
    not_le, Classical.not_imp]

section
variable {s : State} {arg : Byte} {outcap : Half} {d : List Byte}

/-! ## CTR.INIT -/

theorem execCtrInit_badParam (h : d.length ≠ 19) :
    execCtrInit arg outcap d s = .next ((clearEng .ctr s).addResponse ⟨.badParam, 0, 0, []⟩) := if_pos h

theorem execCtrInit_ok (h : d.length = 19) :
    execCtrInit arg outcap d s = .next ((s.setCtr (ctrStart arg d)).addResponse ⟨.ok, 0, 0, []⟩) :=
  if_neg (not_not.mpr h)

/-! ## The block commands -/

/-- The width check and the check of the other operands end alike, so their order is not seen (R78, R81). -/
theorem ctrBlock_badParam (hphase : s.ctr.phase = .active)
    (h : ¬ widthAccepted s.straps s.ctr.core.w ∨ d.length ≠ 16 ∨ arg ≠ 0) :
    ctrBlock arg outcap d s = .next ((clearEng .ctr s).addResponse ⟨.badParam, 0, 0, []⟩) := by
  rw [ctrBlock, if_neg (not_not.mpr hphase)]
  by_cases hw : ctrWidthBad s.straps s.ctr.core.w = true
  · rw [if_pos hw]
    rfl
  · rw [if_neg hw, if_pos (h.resolve_left (mt (ctrWidthBad_iff _ _).mpr hw))]
    rfl

/-- Past its parameter checks a block command depends on the capacity, then on its one request (R78). -/
theorem ctrBlock_checked (hphase : s.ctr.phase = .active) (hw : widthAccepted s.straps s.ctr.core.w)
    (hd : d.length = 16) :
    ctrBlock 0 outcap d s =
      if outcap.toNat < 16 then raise .ctr (.bufferTooSmall 16) s
      else runCipher .ctr (bcRequest .enc s.ctr.core.keyref s.ctr.core.cb s.bc) s fun ks s' =>
        respond 0 16 ((Block.ofList d).xor ks).toList (s'.setCtr { s.ctr with core := ctrStep s.ctr.core }) := by
  have hwidth : ¬ ctrWidthBad s.straps s.ctr.core.w = true := fun h => (ctrWidthBad_iff _ _).mp h hw
  rw [ctrBlock, if_neg (not_not.mpr hphase), if_neg hwidth, if_neg (not_or_intro (not_not.mpr hd) (not_not.mpr rfl))]

theorem ctrBlock_tooSmall (hphase : s.ctr.phase = .active) (hw : widthAccepted s.straps s.ctr.core.w)
    (hd : d.length = 16) (hcap : outcap.toNat < 16) :
    ctrBlock 0 outcap d s = .next ((clearEng .ctr s).addResponse ⟨.bufferTooSmall, 0, 16, []⟩) :=
  (ctrBlock_checked hphase hw hd).trans (if_pos hcap)

/-- A block command with no failure to come: the keystream block is the answer for the counter block as it stands before
the step (R78, R80). -/
theorem ctrBlock_honest (hbc : Honest s.bc) (hphase : s.ctr.phase = .active)
    (hw : widthAccepted s.straps s.ctr.core.w) (hd : d.length = 16) (hcap : 16 ≤ outcap.toNat) :
    ctrBlock 0 outcap d s =
      .next (((s.setBc (afterRequests s.bc (encRequests s.ctr.core.keyref [s.ctr.core.cb]))).setCtr
        { s.ctr with core := ctrStep s.ctr.core }).addResponse
        ⟨.ok, 0, 16, ((Block.ofList d).xor (bcEnc s.bc s.ctr.core.keyref s.ctr.core.cb)).toList⟩) := by
  rw [ctrBlock_checked hphase hw hd, if_neg (not_lt.mpr hcap), bcRequest_honest hbc]
  rfl

end

/-! ## Block commands that succeed -/

/-- If the last response of `t` is `OK`, then `t` holds the CTR context of `s` with its counter stepped (R78). -/
def OkSteps (s t : State) : Prop :=
  ∀ r, t.responses = s.responses ++ [r] → r.status = .ok → t.ctr = { s.ctr with core := ctrStep s.ctr.core }

/-- Error entry answers with a status that is not `OK` (R105, R112). -/
theorem errStatus_ne_ok (err : Err) : errStatus err ≠ .ok := by cases err <;> nofun

theorem okSteps_raise (e : Eng) (err : Err) {s s' : State} (hr : s'.responses = s.responses) :
    Leaves (OkSteps s) (raise e err s') := by
  apply Leaves.next
  intro r hlast hok
  rw [State.addResponse_responses, clearEng_responses, hr] at hlast
  obtain rfl : errResponse err = r := by simpa using hlast
  exact absurd hok (errStatus_ne_ok err)

/-- Whatever its operands and the answer to its request, a block command that answers `OK` steps the counter and changes
nothing else of the context (R78, R80). -/
theorem ctrBlock_okSteps (arg : Byte) (outcap : Half) (d : List Byte) (s : State) :
    Leaves (OkSteps s) (ctrBlock arg outcap d s) :=
  have fails (err : Err) : Leaves (OkSteps s) (raise .ctr err s) := okSteps_raise .ctr err rfl
  .ite (fun _ => fails _) fun _ => .ite (fun _ => fails _) fun _ => .ite (fun _ => fails _) fun _ =>
    .ite (fun _ => fails _) fun _ => .runCipher (fun _ _ _ => .respond fun _ _ _ => rfl)
      fun c _ => okSteps_raise .ctr (.ioError c) rfl

end Sys2Proof.Machine
end

section
/-! CERTIFICATE. The statements of spec/43_ctr.md: the increment, CTR.INIT, and the results and errors of the two block
commands. -/

namespace Sys2Proof.Machine

/-- Settles O41: the bytes of an incremented block are the nonce bytes, then the field; `256 ^ w` is `2 ^ (8 * w)`. -/
theorem incrementStaysInField : Obligations.IncrementStaysInField := by
  intro x w _ hw
  have hpow : 2 ^ (8 * w) = 256 ^ w := Nat.pow_mul 2 8 w
  rw [hpow]
  exact ⟨take_toList_inc x hw, intBe_drop_toList_inc x hw⟩

/-- Settles O42: both commands run the one function, whose request is answered. -/
theorem ctrBlockResult : Obligations.CtrBlockResult := by
  intro s outcap d hbc hphase hw hd hcap C res
  have hrun : ctrBlock 0 outcap d s = res := by
    rw [ctrBlock_honest hbc hphase hw hd hcap, ctrStep_eq]
  exact ⟨hrun, hrun⟩

/-- Settles O43: a block command that succeeds has stepped the counter, and a step keeps the nonce bytes. -/
theorem nonceBytesKept : Obligations.NonceBytesKept := by
  intro s t arg outcap d r hexec hlast hok i h hi
  have hrun : ctrBlock arg outcap d s = .next t := hexec.elim id id
  have hstep : t.ctr = { s.ctr with core := ctrStep s.ctr.core } := ctrBlock_okSteps arg outcap d s t hrun r hlast hok
  simp only [hstep]
  exact getElem_ctrStep_of_lt s.ctr.core h hi

/-- Settles O40: one rule per outcome, and the key handle and the counter block of a 19-byte payload. -/
theorem ctrInitCommand : Obligations.CtrInitCommand := by
  intro s arg outcap
  refine ⟨fun _ => execCtrInit_badParam (outcap := outcap), fun b0 b1 b2 cb hcb => ?_⟩
  rw [← payloadKeyRef_cons b0 b1 b2 cb, ← payloadBlock_cons b0 b1 b2 hcb]
  exact execCtrInit_ok (outcap := outcap) (by simp [hcb])

/-- Settles O44: a width out of range and a width of 0 under `REJECT` are the widths not accepted; the parameter checks
come first, then the capacity. -/
theorem ctrBlockErrors : Obligations.CtrBlockErrors := by
  intro s arg outcap d hphase fails
  have hbad (h : ¬ widthAccepted s.straps s.ctr.core.w ∨ d.length ≠ 16 ∨ arg ≠ 0) : fails ⟨.badParam, 0, 0, []⟩ :=
    ⟨ctrBlock_badParam hphase h, ctrBlock_badParam hphase h⟩
  refine ⟨fun hwide => hbad (.inl fun hw => hwide.not_ge hw.1),
    fun hzero hreject => hbad (.inl fun hw => ?_), fun hargs => hbad (.inr hargs), ?_⟩
  · have hnoop : s.straps.ctrWidth0 = .noop := hw.2 hzero
    rw [hreject] at hnoop
    nomatch hnoop
  · rintro hw hd rfl hcap
    exact ⟨ctrBlock_tooSmall hphase hw hd hcap, ctrBlock_tooSmall hphase hw hd hcap⟩

end Sys2Proof.Machine
end

section
/-! SUPPORT. How MAC.INIT, MAC.UPDATE, MAC.FINISH and CCM.AAD_UPDATE end, one rule per outcome of their checks. -/

namespace Sys2Proof.Machine

section
variable {s : State} {arg : Byte} {outcap : Half} {d : List Byte} {q : BcPort}

/-! ## MAC.INIT -/

theorem execMacInit_badParam (h : d.length ≠ 3 ∨ arg ≠ 0) :
    execMacInit arg outcap d s = .next ((clearEng .mac s).addResponse ⟨.badParam, 0, 0, []⟩) := if_pos h

theorem execMacInit_ok (hd : d.length = 3) :
    execMacInit 0 outcap d s =
      .next ((s.setMac { core := macCoreStart (payloadKeyRef d), phase := .active }).addResponse ⟨.ok, 0, 0, []⟩) :=
  if_neg (not_or_intro (not_not.mpr hd) (not_not.mpr rfl))

/-! ## MAC.UPDATE -/

theorem execMacUpdate_badParam (hphase : s.mac.phase = .active) (harg : arg ≠ 0) :
    execMacUpdate arg outcap d s = .next ((clearEng .mac s).addResponse ⟨.badParam, 0, 0, []⟩) := by
  rw [execMacUpdate, if_neg (not_not.mpr hphase), if_pos harg]
  rfl

/-! ## MAC.FINISH -/

theorem execMacFinish_badState (hphase : s.mac.phase ≠ .active) :
    execMacFinish arg outcap d s = .next ((clearEng .mac s).addResponse ⟨.badState, 0, 0, []⟩) := if_pos hphase

theorem execMacFinish_badParam (hphase : s.mac.phase = .active) (h : d ≠ [] ∨ arg.toNat > 16) :
    execMacFinish arg outcap d s = .next ((clearEng .mac s).addResponse ⟨.badParam, 0, 0, []⟩) := by
  rw [execMacFinish, if_neg (not_not.mpr hphase), if_pos (h.imp_left (mt List.length_eq_zero_iff.mp))]
  rfl

/-- Past its parameter checks MAC.FINISH depends on the alignment, then on the capacity; it makes no request (R86). -/
theorem execMacFinish_checked (hphase : s.mac.phase = .active) (harg : arg.toNat ≤ 16) :
    execMacFinish arg outcap [] s =
      if s.mac.core.plen ≠ 0 then raise .mac .protocolViolation s
      else if outcap.toNat < arg.toNat then raise .mac (.bufferTooSmall arg.toNat) s
      else respond 0 arg.toNat (s.mac.core.cbc.chain.toList.take arg.toNat) (clearEng .mac s) := by
  have hgood : ¬(([] : List Byte).length ≠ 0 ∨ arg.toNat > 16) :=
    not_or_intro (not_not.mpr rfl) (not_lt.mpr harg)
  rw [execMacFinish, if_neg (not_not.mpr hphase), if_neg hgood]
  rfl

/-- Pending bytes are an error before the capacity is looked at (R86, R87). -/
theorem execMacFinish_unaligned (hphase : s.mac.phase = .active) (harg : arg.toNat ≤ 16)
    (hplen : s.mac.core.plen ≠ 0) :
    execMacFinish arg outcap [] s = .next ((clearEng .mac s).addResponse ⟨.protocolViolation, 0, 0, []⟩) :=
  (execMacFinish_checked hphase harg).trans (if_pos hplen)

theorem execMacFinish_tooSmall (hphase : s.mac.phase = .active) (harg : arg.toNat ≤ 16) (hplen : s.mac.core.plen = 0)
    (hcap : outcap.toNat < arg.toNat) :
    execMacFinish arg outcap [] s =
      .next ((clearEng .mac s).addResponse ⟨.bufferTooSmall, 0, BitVec.ofNat 16 arg.toNat, []⟩) := by
  rw [execMacFinish_checked hphase harg, if_neg (not_not.mpr hplen), if_pos hcap]
  rfl

theorem execMacFinish_ok (hphase : s.mac.phase = .active) (harg : arg.toNat ≤ 16) (hplen : s.mac.core.plen = 0)
    (hcap : arg.toNat ≤ outcap.toNat) :
    execMacFinish arg outcap [] s = .next ((clearEng .mac s).addResponse
      ⟨.ok, 0, BitVec.ofNat 16 arg.toNat, s.mac.core.cbc.chain.toList.take arg.toNat⟩) := by
  rw [execMacFinish_checked hphase harg, if_neg (not_not.mpr hplen), if_neg (not_lt.mpr hcap)]
  rfl

/-! ## CCM.AAD_UPDATE -/

/-- CCM.AAD_UPDATE past its checks feeds the encoded AAD size, where it is due, and the payload as one string (R95). -/
theorem execCcmAadUpdate_ok {m : MacCore} (hphase : s.ccm.phase = .init ∨ s.ccm.phase = .aad)
    (hroom : s.ccm.aadcons.toNat + d.length ≤ s.ccm.aadsize.toNat)
    (hfed : macFeed s.ccm.mac (ccmFirstAad s.ccm ++ d) s.bc = .ok m q) :
    execCcmAadUpdate 0 outcap d s = .next (((s.setBc q).setCcm
      { s.ccm with mac := m, aadcons := s.ccm.aadcons + BitVec.ofNat 64 d.length, phase := .aad }).addResponse
      ⟨.ok, 0, 0, []⟩) := by
  rw [execCcmAadUpdate, if_neg (or_iff_not_and_not.mp hphase), if_neg (not_not.mpr rfl), if_neg (not_lt.mpr hroom),
    macFeed_append, hfed]
  rfl

end

end Sys2Proof.Machine
end

section
/-! CERTIFICATE. The statements of spec/44_cbcmac.md: the three CBC-MAC commands, and CCM.AAD_UPDATE, which feeds the same
data path. -/

namespace Sys2Proof.Machine

/-- Settles O46: past its checks the command keeps what the data path gives of the payload, whose pending bytes are
followed by zeros only. -/
theorem macUpdateResult : Obligations.MacUpdateResult := by
  intro s outcap data hphase
  refine ⟨fun arg => execMacUpdate_badParam (outcap := outcap) hphase, fun hinv hbc => ?_⟩
  obtain ⟨-, -, -, ⟨⟨hzero, -⟩, -⟩, -⟩ := hinv
  exact execMacUpdate_ok (outcap := outcap) hphase (macFeed_honest data hzero hbc)

/-- Settles O51: past its checks the command keeps what the data path gives of the encoded AAD size, where it
is due, and the payload. -/
theorem ccmAadUpdateResult : Obligations.CcmAadUpdateResult := by
  intro s outcap data hinv hbc hphase hroom
  obtain ⟨-, -, -, -, ⟨⟨hzero, -⟩, -⟩⟩ := hinv
  exact execCcmAadUpdate_ok (outcap := outcap) hphase hroom (macFeed_honest (ccmFirstAad s.ccm ++ data) hzero hbc)

/-- Settles O45: one rule per outcome, and the key handle of a 3-byte payload. -/
theorem macInitCommand : Obligations.MacInitCommand := by
  intro s arg outcap
  refine ⟨fun _ => execMacInit_badParam (outcap := outcap), ?_⟩
  rintro b0 b1 b2 rfl
  rw [← payloadKeyRef_cons b0 b1 b2 []]
  exact execMacInit_ok (outcap := outcap) rfl

/-- Settles O47: one rule per outcome of the checks, in their order. -/
theorem macFinishCommand : Obligations.MacFinishCommand := by
  intro s len outcap d fails
  refine ⟨execMacFinish_badState, execMacFinish_badParam, ?_, ?_, ?_⟩
  · rintro hphase rfl
    exact execMacFinish_unaligned hphase
  · rintro hphase rfl
    exact execMacFinish_tooSmall hphase
  · rintro hphase rfl
    exact execMacFinish_ok hphase

end Sys2Proof.Machine
end

section
/-! SUPPORT. What every move keeps of a CCM stream (R89 to R103): its sizes, the pending bytes of the current text
block, and the number of the next keystream block. -/

namespace Sys2Proof.Machine

/-! ## The sizes and the parameter block -/

/-- The sizes of a stream are legal and fix the width of its counter (R89, R91, R94). -/
structure CcmSizesOk (C : CcmCtx) : Prop where
  ivLow : 7 ≤ C.ivsize.toNat
  ivHigh : C.ivsize.toNat ≤ 13
  tagSize : C.tagsize.toNat ∈ ccmTagSizes
  width : C.ctr.w.toNat = 15 - C.ivsize.toNat
  textSize : C.textsize.toNat < 2 ^ (8 * C.ctr.w.toNat)

/-- The sizes of a live stream are legal. -/
theorem CcmStreamInv.sizes {C : CcmCtx} (h : CcmStreamInv C) (hlive : C.phase ≠ .idle) : CcmSizesOk C := by
  obtain ⟨hlegal, -⟩ := h
  obtain ⟨hlow, hhigh, htag, hw, htext⟩ := hlegal hlive
  exact ⟨hlow, hhigh, htag, hw, htext⟩

theorem CcmSizesOk.of_same {C C' : CcmCtx} (h : CcmSizesOk C) (hiv : C'.ivsize = C.ivsize)
    (htag : C'.tagsize = C.tagsize) (hw : C'.ctr.w = C.ctr.w) (htext : C'.textsize = C.textsize) : CcmSizesOk C' := by
  constructor
  · exact hiv ▸ h.ivLow
  · exact hiv ▸ h.ivHigh
  · exact htag ▸ h.tagSize
  · rw [hw, hiv]
    exact h.width
  · rw [hw, htext]
    exact h.textSize

/-- A counter of `w >= 2` bytes has room for the number of every keystream block of a text shorter than `2^(8w)`. -/
theorem nextBlock_lt {n w : Nat} (hw : 2 ≤ w) (h : n < 2 ^ (8 * w)) : 1 + (n + 15) / 16 < 2 ^ (8 * w) := by
  have hpow : 2 ^ (8 * 2) ≤ 2 ^ (8 * w) := Nat.pow_le_pow_right (by decide) (by omega)
  norm_num at hpow
  omega

theorem CcmSizesOk.two_le_width {C : CcmCtx} (h : CcmSizesOk C) : 2 ≤ C.ctr.w.toNat := by
  have hhigh := h.ivHigh
  have hw := h.width
  omega

theorem CcmSizesOk.width_le {C : CcmCtx} (h : CcmSizesOk C) : C.ctr.w.toNat ≤ 8 := by
  have hlow := h.ivLow
  have hw := h.width
  omega

/-- The counter of a stream has room for the next keystream block wherever in the text it is (R91, R103). -/
theorem CcmSizesOk.room {C : CcmCtx} (h : CcmSizesOk C) {n : Nat} (hn : n ≤ C.textsize.toNat) :
    1 + (n + 15) / 16 < 2 ^ (8 * C.ctr.w.toNat) :=
  nextBlock_lt h.two_le_width (hn.trans_lt h.textSize)

/-- The nonce of a legal parameter block has the size it declares (R49, R94). -/
theorem CcmParamsOk.iv_length {arg : Byte} {d : List Byte} (h : CcmParamsOk arg d) :
    (ccmIv d).length = ccmIvSize d := by
  rw [ccmIv, slice, List.length_take, List.length_drop, h.length]
  omega

/-- `B0` is one block (R90). -/
theorem ccmB0_length {iv : List Byte} (tagSize aadSize textSize : Nat) (h : iv.length ≤ 15) :
    (ccmB0 tagSize aadSize textSize iv).length = 16 := by
  simp only [ccmB0, List.length_append, List.length_singleton, be_length]
  omega

theorem CcmParamsOk.b0_length {arg : Byte} {d : List Byte} (h : CcmParamsOk arg d) (tagSize aadSize textSize : Nat) :
    (ccmB0 tagSize aadSize textSize (ccmIv d)).length = 16 := by
  have hhigh := h.ivHigh
  have hlen := h.iv_length
  exact ccmB0_length tagSize aadSize textSize (by omega)

/-- The sizes CCM.INIT stores are legal (R89, R94). -/
theorem CcmParamsOk.sizes {arg : Byte} {d : List Byte} (h : CcmParamsOk arg d) : CcmSizesOk (ccmStart arg d) := by
  obtain ⟨htag, hlow, hhigh, -, htext⟩ := h
  have hiv : (ccmStart arg d).ivsize.toNat = ccmIvSize d := Nat.mod_eq_of_lt (by omega)
  have hw : (ccmStart arg d).ctr.w.toNat = 15 - ccmIvSize d := Nat.mod_eq_of_lt (by omega)
  refine ⟨by omega, by omega, htag, by omega, ?_⟩
  rw [hw]
  exact Nat.lt_of_le_of_lt (Nat.mod_le _ _) htext

/-! ## The pending bytes -/

theorem rem16_val (n : Nat) : (rem16 n).val = n % 16 := rfl

/-- A byte through the CBC-MAC adds one to the pending bytes, modulo a block (R83). -/
theorem macByte_plen {M : MacCore} {b : Byte} {p q : BcPort} {r : List Byte × MacCore} (h : macByte M b p = .ok r q) :
    r.2.plen = rem16 (M.plen.val + 1) := by
  apply Fin.ext
  rw [rem16_val]
  rcases bufferByte_cases M.pend M.plen b with ⟨hn, hb⟩ | ⟨hn, hb⟩ <;> simp only [macByte, hb] at h
  · simp only [BcResult.ok.injEq] at h
    obtain ⟨rfl, -⟩ := h
    exact (Nat.mod_eq_of_lt hn).symm
  · obtain ⟨a, _, -, hr⟩ := andThen_eq_ok.mp h
    simp only [BcResult.ok.injEq] at hr
    obtain ⟨rfl, -⟩ := hr
    rw [hn]
    rfl

/-- `mac_feed` adds the bytes it takes to the pending ones, modulo a block (R83). -/
theorem macFeed_plen {M m : MacCore} {d : List Byte} {p q : BcPort} (h : macFeed M d p = .ok m q) :
    m.plen = rem16 (M.plen.val + d.length) := by
  obtain ⟨_, hfed⟩ := macFeed_ok h
  have hstart : M.plen = rem16 (M.plen.val + 0) := Fin.ext (Nat.mod_eq_of_lt M.plen.isLt).symm
  have hcount := feed_counts (P := fun n M' => M'.plen = rem16 (M.plen.val + n))
    (fun n M' b p r q hn hb => by
      rw [macByte_plen hb, hn]
      apply Fin.ext
      simp only [rem16_val]
      omega) hstart hfed
  rwa [Nat.zero_add] at hcount

/-- After a flush nothing is pending (R96). -/
theorem ccmFlush_plen {M m : MacCore} {p q : BcPort} (h : ccmFlush M p = .ok m q) : m.plen = 0 := by
  unfold ccmFlush at h
  split at h
  · rw [macFeed_plen h, zeros_length, Nat.add_sub_cancel' M.plen.isLt.le]
    rfl
  · simp only [BcResult.ok.injEq] at h
    rw [← h.1]
    exact not_not.mp ‹_›

/-! ## The counter block -/

/-- The counter block `x` of a stream with `w`-byte counters that has consumed `n` text bytes: the byte `L - 1` in
front, and in its low `w` bytes the number of the next keystream block (R91, R97). -/
def CounterAt (x : Block) (w n : Nat) : Prop :=
  x[0] = BitVec.ofNat 8 (w - 1) ∧ intBe (x.toList.drop (16 - w)) = 1 + (n + 15) / 16

/-- `A_1` is the counter block of a stream that has consumed no text (R91, R94). -/
theorem counterAt_ccmA {iv : List Byte} (hlow : 7 ≤ iv.length) (hhigh : iv.length ≤ 13) :
    CounterAt (ccmA iv 1) (15 - iv.length) 0 := by
  have hbytes : (ccmA iv 1).toList = (BitVec.ofNat 8 (15 - iv.length - 1) :: iv) ++ be 1 (15 - iv.length) := by
    apply Block.toList_ofList
    simp only [List.length_append, List.length_singleton, be_length]
    omega
  refine ⟨rfl, ?_⟩
  have hfront : (BitVec.ofNat 8 (15 - iv.length - 1) :: iv).length = 16 - (15 - iv.length) := by
    rw [List.length_cons]
    omega
  rw [hbytes, List.drop_left' hfront, intBe_be (Nat.one_lt_pow (by omega) (by decide))]

/-- The counter steps at the first byte of a text block, where the number of the next keystream block grows (R97). -/
theorem CounterAt.next {x : Block} {w n : Nat} (h : CounterAt x w n) (hw : w ≤ 8)
    (hroom : 1 + (n + 1 + 15) / 16 < 2 ^ (8 * w)) :
    CounterAt (if n % 16 = 0 then inc x w else x) w (n + 1) := by
  obtain ⟨hfirst, hlow⟩ := h
  split
  · refine ⟨(getElem_inc_of_lt x (by decide) (by omega)).trans hfirst, ?_⟩
    have hnext : 1 + (n + 15) / 16 + 1 = 1 + (n + 1 + 15) / 16 := by omega
    rw [intBe_drop_toList_inc x (by omega), hlow, hnext, Nat.mod_eq_of_lt (by rwa [← Nat.pow_mul 2 8 w])]
  · refine ⟨hfirst, hlow.trans ?_⟩
    omega

theorem CcmCounterInv.counterAt {C : CcmCtx} (h : CcmCounterInv C) (hlive : C.phase ≠ .idle) :
    CounterAt C.ctr.cb C.ctr.w.toNat C.textcons.toNat := by
  obtain ⟨hfirst, hlow, -⟩ := h hlive
  exact ⟨hfirst, hlow⟩

/-- Within the declared size the counter does not wrap (R91, R103). -/
theorem CounterAt.inv {C : CcmCtx} (h : CounterAt C.ctr.cb C.ctr.w.toNat C.textcons.toNat) (hsizes : CcmSizesOk C)
    (htext : C.textcons.toNat ≤ C.textsize.toNat) : CcmCounterInv C := by
  obtain ⟨hfirst, hlow⟩ := h
  exact fun _ => ⟨hfirst, hlow, hsizes.room htext⟩

/-! ## The text -/

/-- What text bytes leave of a stream: its sizes and counter width, and that the pending bytes are those of the current
text block (R97). -/
structure CcmTextStream (C C' : CcmCtx) : Prop where
  ivsize : C'.ivsize = C.ivsize
  tagsize : C'.tagsize = C.tagsize
  w : C'.ctr.w = C.ctr.w
  plen : C.mac.plen = rem16 C.textcons.toNat → C'.mac.plen = rem16 C'.textcons.toNat

/-- `TEXTCONS` counts modulo a multiple of 16, so it agrees with the pending bytes even if it wraps. -/
theorem rem16_textcons_succ (c : BitVec 64) : rem16 ((rem16 c.toNat).val + 1) = rem16 (c + 1).toNat := by
  apply Fin.ext
  simp only [rem16_val, BitVec.toNat_add]
  have hone : (1 : BitVec 64).toNat = 1 := rfl
  omega

theorem feed_ccmTextByte_stream {dir : CcmDir} {C : CcmCtx} {d : List Byte} {p q : BcPort} {r : List Byte × CcmCtx}
    (h : feed (ccmTextByte dir) C d p = .ok r q) : CcmTextStream C r.2 := by
  refine feed_keeps (P := CcmTextStream C) (fun C' b p r q hk hb => ?_) ⟨rfl, rfl, rfl, id⟩ h
  obtain ⟨_, m, x, _, hfed, hr⟩ := ccmTextByte_ok hb
  rw [hr]
  refine ⟨hk.ivsize, hk.tagsize, hk.w, fun hplen => ?_⟩
  have hm : m.plen = rem16 (C'.mac.plen.val + 1) := macFeed_plen hfed
  rw [hm, hk.plen hplen, rem16_textcons_succ]

/-- Text bytes within the declared size keep the counter block at its place in the stream (R91, R97, R103). -/
theorem feed_ccmTextByte_counter {dir : CcmDir} {C : CcmCtx} {d : List Byte} {p q : BcPort} {r : List Byte × CcmCtx}
    (hC : CcmSizesOk C) (hat : CounterAt C.ctr.cb C.ctr.w.toNat C.textcons.toNat)
    (hroom : C.textcons.toNat + d.length ≤ C.textsize.toNat) (h : feed (ccmTextByte dir) C d p = .ok r q) :
    CounterAt r.2.ctr.cb r.2.ctr.w.toNat r.2.textcons.toNat := by
  have hsize := C.textsize.isLt
  have hcount := feed_counts
    (P := fun n C' => C.textcons.toNat + n ≤ C.textsize.toNat → C'.ctr.w = C.ctr.w ∧
      C'.textcons.toNat = C.textcons.toNat + n ∧ CounterAt C'.ctr.cb C'.ctr.w.toNat C'.textcons.toNat)
    (n := 0) (fun n C' b p r q hk hb hn => ?_) (fun _ => ⟨rfl, rfl, hat⟩) h
  · rw [Nat.zero_add] at hcount
    obtain ⟨-, -, hat'⟩ := hcount hroom
    exact hat'
  · obtain ⟨hw, htext, hat'⟩ := hk (by omega)
    obtain ⟨_, _, _, _, -, hr⟩ := ccmTextByte_ok hb
    have hsucc := textcons_succ (c := C'.textcons) (by omega)
    rw [hr]
    refine ⟨hw, by simp only [hsucc]; omega, ?_⟩
    simp only [hsucc]
    rw [hw] at hat' ⊢
    exact hat'.next hC.width_le (hC.room (by omega))

/-! ## The moves -/

/-- In the phases before `AAD_FINISH` no text has been consumed (R93). -/
theorem ccmStreamInv_of_aad {C : CcmCtx} (hphase : C.phase = .init ∨ C.phase = .aad) (hsizes : CcmSizesOk C)
    (hinit : C.phase = .init → C.aadcons = 0 ∧ C.mac.plen = 0) (hnone : C.textcons = 0) : CcmStreamInv C := by
  obtain ⟨hlow, hhigh, htag, hw, htext⟩ := hsizes
  refine ⟨fun _ => ⟨hlow, hhigh, htag, hw, htext⟩, hinit, fun _ => hnone, fun hlate => ?_⟩
  obtain hphase | hphase := hphase <;> simp [hphase] at hlate

/-- From `AAD_FINISH` on all AAD is closed, and the pending bytes are those of the current text block (R96, R97). -/
theorem ccmStreamInv_of_text {C : CcmCtx}
    (hphase : C.phase = .aadFinish ∨ C.phase = .encryptText ∨ C.phase = .decryptText) (hsizes : CcmSizesOk C)
    (haad : C.aadcons = C.aadsize) (hplen : C.mac.plen = rem16 C.textcons.toNat)
    (hnone : C.phase = .aadFinish → C.textcons = 0) : CcmStreamInv C := by
  obtain ⟨hlow, hhigh, htag, hw, htext⟩ := hsizes
  refine ⟨fun _ => ⟨hlow, hhigh, htag, hw, htext⟩, fun hinit => ?_, fun hearly => ?_, fun _ => ⟨haad, hplen⟩⟩
  · simp [hinit] at hphase
  · obtain hphase | hphase | hphase := hphase
    · exact hnone hphase
    all_goals simp [hphase] at hearly

theorem phase_live_of_aad {C : CcmCtx} (hphase : C.phase = .init ∨ C.phase = .aad) : C.phase ≠ .idle := by
  obtain hphase | hphase := hphase <;> rw [hphase] <;> decide

/-- The phase of a text update's direction (R93). -/
def CcmDir.active : CcmDir → CcmPhase
  | .enc => .encryptText
  | .dec => .decryptText

section
variable {dir : CcmDir} {C : CcmCtx} {d : List Byte} {p q : BcPort} {r : List Byte × CcmCtx}

theorem phase_text_of_dir (hphase : C.phase = .aadFinish ∨ C.phase = dir.active) :
    C.phase = .aadFinish ∨ C.phase = .encryptText ∨ C.phase = .decryptText := by
  cases dir with
  | enc => exact hphase.imp_right .inl
  | dec => exact hphase.imp_right .inr

theorem phase_live_of_dir (hphase : C.phase = .aadFinish ∨ C.phase = dir.active) : C.phase ≠ .idle := by
  obtain hphase | hphase | hphase := phase_text_of_dir hphase <;> rw [hphase] <;> decide

theorem CcmSizesOk.textUpdate (h : CcmSizesOk C) (hfed : feed (ccmTextByte dir) C d p = .ok r q) :
    CcmSizesOk { r.2 with phase := dir.active } := by
  have hstream := feed_ccmTextByte_stream hfed
  exact h.of_same hstream.ivsize hstream.tagsize hstream.w (feed_ccmTextByte_kept hfed).textsize

/-- A text update, in either direction, keeps the sizes and the pending bytes in agreement (R97). -/
theorem ccmStreamInv_textUpdate (hphase : C.phase = .aadFinish ∨ C.phase = dir.active) (hC : CcmStreamInv C)
    (hfed : feed (ccmTextByte dir) C d p = .ok r q) : CcmStreamInv { r.2 with phase := dir.active } := by
  have hsizes := hC.sizes (phase_live_of_dir hphase)
  obtain ⟨-, -, -, htext⟩ := hC
  obtain ⟨haad, hplen⟩ := htext (phase_text_of_dir hphase)
  have hkept := feed_ccmTextByte_kept hfed
  refine ccmStreamInv_of_text (.inr ?_) (hsizes.textUpdate hfed) ?_ ((feed_ccmTextByte_stream hfed).plen hplen) ?_
  · cases dir <;> simp [CcmDir.active]
  · simp only [hkept.aadcons, hkept.aadsize, haad]
  · cases dir <;> exact nofun

/-- A text update, in either direction, keeps the counter block in its place (R97, R103). -/
theorem ccmCounterInv_textUpdate (hphase : C.phase = .aadFinish ∨ C.phase = dir.active) (hC : CcmStreamInv C)
    (hcounter : CcmCounterInv C) (hroom : C.textcons.toNat + d.length ≤ C.textsize.toNat)
    (hfed : feed (ccmTextByte dir) C d p = .ok r q) : CcmCounterInv { r.2 with phase := dir.active } := by
  have hlive := phase_live_of_dir hphase
  have hsizes := hC.sizes hlive
  have hkept := feed_ccmTextByte_kept hfed
  have hat := feed_ccmTextByte_counter hsizes (hcounter.counterAt hlive) hroom hfed
  refine CounterAt.inv hat (hsizes.textUpdate hfed) ?_
  simp only [hkept.textcons, hkept.textsize]
  exact consumed_le hroom

end

/-- Every command keeps a CCM stream in agreement (R93 to R103). -/
theorem CcmMove.stream {i : Instr} {C C' : CcmCtx} (h : CcmMove i C C') (hC : CcmStreamInv C) : CcmStreamInv C' := by
  cases h with
  | clear | startFailed => exact ccmStreamInv_of_idle rfl
  | @start arg _ d _ _ _ m hok hfed =>
    have hempty : (ccmStart arg d).mac.plen = 0 := rfl
    have hplen : m.plen = 0 := by
      rw [macFeed_plen hfed, hok.b0_length, hempty]
      rfl
    exact ccmStreamInv_of_aad (.inl rfl) (hok.sizes.of_same rfl rfl rfl rfl) (fun _ => ⟨rfl, hplen⟩) rfl
  | aadUpdate hphase hroom hfed =>
    have hsizes := hC.sizes (phase_live_of_aad hphase)
    obtain ⟨-, -, hnone, -⟩ := hC
    exact ccmStreamInv_of_aad (.inr rfl) (hsizes.of_same rfl rfl rfl rfl) nofun (hnone (hphase.imp_right .inl))
  | aadFinish hphase hall hfed =>
    have hsizes := hC.sizes (phase_live_of_aad hphase)
    obtain ⟨-, -, hnone, -⟩ := hC
    have htext : C.textcons = 0 := hnone (hphase.imp_right .inl)
    refine ccmStreamInv_of_text (.inl rfl) (hsizes.of_same rfl rfl rfl rfl) hall ?_ (fun _ => htext)
    simp only [ccmFlush_plen hfed, htext]
    rfl
  | encUpdate hphase _ hfed => exact ccmStreamInv_textUpdate (dir := .enc) hphase hC hfed
  | decUpdate hphase _ hfed => exact ccmStreamInv_textUpdate (dir := .dec) hphase hC hfed

/-- Every command keeps the counter block of a CCM stream in its place (R91, R94, R97, R103). -/
theorem CcmMove.counter {i : Instr} {C C' : CcmCtx} (h : CcmMove i C C') (hC : CcmStreamInv C)
    (hcounter : CcmCounterInv C) : CcmCounterInv C' := by
  cases h with
  | clear | startFailed => exact ccmCounterInv_of_idle rfl
  | @start _ _ d _ _ _ _ hok hfed =>
    have hlow := hok.ivLow
    have hhigh := hok.ivHigh
    have hlen := hok.iv_length
    have hwidth : BitVec.toNat (BitVec.ofNat 8 (15 - ccmIvSize d)) = 15 - (ccmIv d).length := by
      rw [hlen]
      exact Nat.mod_eq_of_lt (by omega)
    refine CounterAt.inv ?_ (hok.sizes.of_same rfl rfl rfl rfl) (Nat.zero_le _)
    simp only [ccmStart, hwidth]
    exact counterAt_ccmA (by omega) (by omega)
  | aadUpdate hphase | aadFinish hphase => exact fun _ => hcounter (phase_live_of_aad hphase)
  | encUpdate hphase hroom hfed => exact ccmCounterInv_textUpdate (dir := .enc) hphase hC hcounter hroom hfed
  | decUpdate hphase hroom hfed => exact ccmCounterInv_textUpdate (dir := .dec) hphase hC hcounter hroom hfed

/-- Everything a step can do to the CCM context: nothing, reset, or a move of a command. -/
theorem step_ccm {s t : State} (h : step s = .next t) :
    t.ccm = s.ccm ∨ t.ccm = CcmCtx.reset ∨ ∃ i, CcmMove i s.ccm t.ccm := by
  cases hp : s.pending with
  | nil =>
    rw [step_idle hp] at h
    exact .inl (congrArg State.ccm (Host.Outcome.next.inj h).symm)
  | cons event rest =>
    cases event with
    | reset straps =>
      rw [step_reset hp] at h
      obtain rfl := Host.Outcome.next.inj h
      exact .inr (.inl rfl)
    | command packet =>
      cases hd : decode packet with
      | error err =>
        rw [step_rejected hp hd] at h
        obtain rfl := Host.Outcome.next.inj h
        exact .inl rfl
      | ok i =>
        rw [step_command hp hd] at h
        obtain ⟨-, -, -, -, hccm⟩ := exec_contexts (s := s.setPending rest) h
        exact hccm.elim (fun hmove => .inr (.inr ⟨i, hmove⟩)) .inl

end Sys2Proof.Machine
end

section
/-! SUPPORT. How the CCM commands end, one rule per outcome of their checks, and what their data paths give when no
request fails. -/

namespace Sys2Proof.Machine

/-! ## The parameter block of CCM.INIT -/

/-- `B0`'s flags byte as a sum: its three fields do not overlap (R90). -/
theorem ccmFlags_eq {tagSize aadSize l : Nat} (htag : tagSize ≤ 16) (hl : l ≤ 8) :
    ccmFlags tagSize aadSize l =
      BitVec.ofNat 8 ((if aadSize > 0 then 64 else 0) + 8 * ((tagSize - 2) / 2) + (l - 1)) := by
  have hlow : l - 1 < 2 ^ 3 := by omega
  have hmid : ((tagSize - 2) / 2) <<< 3 + (l - 1) < 2 ^ 6 := by
    rw [Nat.shiftLeft_eq]
    omega
  rw [ccmFlags, Nat.or_assoc, ← Nat.shiftLeft_add_eq_or_of_lt hlow, ← Nat.shiftLeft_add_eq_or_of_lt hmid,
    Nat.shiftLeft_eq, Nat.shiftLeft_eq, Nat.add_assoc, Nat.mul_comm _ (2 ^ 3)]
  congr 2
  split <;> rfl

/-- The byte at a place of a string, read as a slice of length 1; 0 past the end (R6). -/
theorem intBe_slice_one (d : List Byte) (i : Nat) : intBe (slice d i 1) = (d.getD i 0).toNat := by
  rw [slice, List.take_one, List.head?_drop, List.getD_eq_getElem?_getD]
  cases d[i]? <;> simp [intBe]

/-- `B0` with its flags byte as a sum (R90). -/
theorem ccmB0_eq {tagSize aadSize textSize : Nat} {iv : List Byte} (htag : tagSize ≤ 16) (hiv : 7 ≤ iv.length) :
    ccmB0 tagSize aadSize textSize iv =
      BitVec.ofNat 8 ((if aadSize > 0 then 64 else 0) + 8 * ((tagSize - 2) / 2) + (15 - iv.length - 1)) ::
        iv ++ be textSize (15 - iv.length) := by
  rw [ccmB0, ccmFlags_eq htag (by omega)]
  rfl

/-- A part of a string read back by its place and length (R6). -/
theorem slice_middle {a b c : List Byte} {i n : Nat} (ha : a.length = i) (hb : b.length = n) :
    slice (a ++ b ++ c) i n = b := by
  rw [slice, List.append_assoc, List.drop_left' ha, List.take_left' hb]

/-- The parameter block of CCM.INIT as the host writes it (R49). -/
def ccmParams (b0 b1 b2 : Byte) (aadSize textSize : Nat) (iv : List Byte) : List Byte :=
  [b0, b1, b2] ++ be iv.length 1 ++ be aadSize 8 ++ be textSize 8 ++ iv

section
variable {b0 b1 b2 : Byte} {aadSize textSize : Nat} {iv : List Byte}

theorem ccmParams_length : (ccmParams b0 b1 b2 aadSize textSize iv).length = 20 + iv.length := by
  simp only [ccmParams, List.length_append, be_length, List.length_cons, List.length_nil]

theorem payloadKeyRef_ccmParams :
    payloadKeyRef (ccmParams b0 b1 b2 aadSize textSize iv) = { slot := b0 ++ b1, blk := b2 } :=
  payloadKeyRef_cons b0 b1 b2 _

theorem ccmIvSize_ccmParams (h : iv.length < 256 ^ 1) :
    ccmIvSize (ccmParams b0 b1 b2 aadSize textSize iv) = iv.length := by
  rw [ccmIvSize, ccmParams, List.append_assoc, List.append_assoc, slice_middle (by simp) (be_length _ _), intBe_be h]

theorem ccmAadSize_ccmParams (h : aadSize < 256 ^ 8) :
    ccmAadSize (ccmParams b0 b1 b2 aadSize textSize iv) = aadSize := by
  rw [ccmAadSize, ccmParams, List.append_assoc, slice_middle (by simp) (be_length _ _), intBe_be h]

theorem ccmTextSize_ccmParams (h : textSize < 256 ^ 8) :
    ccmTextSize (ccmParams b0 b1 b2 aadSize textSize iv) = textSize := by
  rw [ccmTextSize, ccmParams, slice_middle (by simp) (be_length _ _), intBe_be h]

theorem ccmIv_ccmParams (h : iv.length < 256 ^ 1) : ccmIv (ccmParams b0 b1 b2 aadSize textSize iv) = iv := by
  rw [ccmIv, ccmIvSize_ccmParams h, ccmParams, slice, List.drop_left' (by simp), List.take_length]

/-- The context of a new stream, written out (R49, R94). -/
theorem ccmStart_ccmParams {tag : Byte} (hiv : iv.length < 256 ^ 1) (haad : aadSize < 256 ^ 8)
    (htext : textSize < 256 ^ 8) :
    ccmStart tag (ccmParams b0 b1 b2 aadSize textSize iv) =
      { mac := macCoreStart { slot := b0 ++ b1, blk := b2 },
        ctr := { keyref := { slot := b0 ++ b1, blk := b2 }, cb := ccmA iv 1, w := BitVec.ofNat 8 (15 - iv.length) },
        ivsize := BitVec.ofNat 8 iv.length, tagsize := tag, aadsize := BitVec.ofNat 64 aadSize,
        textsize := BitVec.ofNat 64 textSize, aadcons := 0, textcons := 0, ks := Block.zero, phase := .init } := by
  rw [ccmStart, payloadKeyRef_ccmParams, ccmIv_ccmParams hiv, ccmIvSize_ccmParams hiv, ccmAadSize_ccmParams haad,
    ccmTextSize_ccmParams htext]

theorem ccmParamsOk_ccmParams {tag : Byte} (htag : tag.toNat ∈ ccmTagSizes) (hlow : 7 ≤ iv.length)
    (hhigh : iv.length ≤ 13) (hsize : textSize < 256 ^ 8) (htext : textSize < 2 ^ (8 * (15 - iv.length))) :
    CcmParamsOk tag (ccmParams b0 b1 b2 aadSize textSize iv) := by
  have hiv : ccmIvSize (ccmParams b0 b1 b2 aadSize textSize iv) = iv.length := ccmIvSize_ccmParams (by omega)
  refine ⟨htag, by omega, by omega, by rw [ccmParams_length, hiv], ?_⟩
  rwa [ccmTextSize_ccmParams hsize, hiv]

end

/-! ## CCM.INIT -/

section
variable {s : State} {arg : Byte} {outcap : Half} {d : List Byte} {q : BcPort}

/-- A parameter block that is not legal ends CCM.INIT before any request, whichever check it fails (R94). -/
theorem execCcmInit_badParam (h : ¬ CcmParamsOk arg d) :
    execCcmInit arg outcap d s = .next ((clearEng .ccm s).addResponse ⟨.badParam, 0, 0, []⟩) := by
  refine ite_eq_left_iff.mpr fun htag => ite_eq_left_iff.mpr fun _ => ite_eq_left_iff.mpr fun hiv =>
    ite_eq_left_iff.mpr fun hlen => ite_eq_left_iff.mpr fun htext => absurd ?_ h
  obtain ⟨hlow, hhigh⟩ := not_or.mp hiv
  exact ⟨not_not.mp htag, not_lt.mp hlow, not_lt.mp hhigh, not_not.mp hlen, not_le.mp htext⟩

/-- CCM.INIT past its checks feeds `B0` to a fresh CBC-MAC (R94). -/
theorem execCcmInit_ok {m : MacCore} (h : CcmParamsOk arg d)
    (hfed : macFeed (ccmStart arg d).mac (ccmB0 arg.toNat (ccmAadSize d) (ccmTextSize d) (ccmIv d)) s.bc = .ok m q) :
    execCcmInit arg outcap d s =
      .next (((s.setBc q).setCcm { ccmStart arg d with mac := m }).addResponse ⟨.ok, 0, 0, []⟩) := by
  obtain ⟨htag, hlow, hhigh, hlen, htext⟩ := h
  have hiv : ¬(ccmIvSize d < 7 ∨ ccmIvSize d > 13) := not_or_intro (not_lt.mpr hlow) (not_lt.mpr hhigh)
  simp only [execCcmInit]
  rw [if_neg (not_not.mpr htag), if_neg (by omega), if_neg hiv, if_neg (not_not.mpr hlen), if_neg (not_le.mpr htext),
    hfed]
  rfl

/-- One whole block through a fresh CBC-MAC, with no failure to come (R83). -/
theorem macFeed_start_block {k : KeyRef} {b : List Byte} {p : BcPort} (hp : Honest p) (hb : b.length = 16) :
    macFeed (macCoreStart k) b p =
      .ok { cbc := { keyref := k, chain := bcEnc p k (Block.ofList b), pend := Block.zero, plen := 0, pad := false },
            pend := Block.zero, plen := 0 }
        (afterRequests p (encRequests k [Block.ofList b])) := by
  have hbytes : pendingThen (macCoreStart k).pend (macCoreStart k).plen.val b = (Block.ofList b).toList ++ [] := by
    rw [Block.toList_ofList hb, List.append_nil]
    exact pendingThen_zero _ _
  rw [macFeed_honest b (zeroTail_zero _) hp, hbytes, wholeBlocks_block, tailBytes_block, rem16_block]
  have hfirst : (Block.ofList b).xor (macCoreStart k).cbc.chain = Block.ofList b := Block.xor_zero _
  simp only [cbcCipher, cbcInputs, hfirst]
  rfl

/-- CCM.INIT with legal parameters and no failure to come: one request, `B0` (R94). -/
theorem execCcmInit_honest (h : CcmParamsOk arg d) (hp : Honest s.bc) :
    let k := payloadKeyRef d
    let b0 := Block.ofList (ccmB0 arg.toNat (ccmAadSize d) (ccmTextSize d) (ccmIv d))
    execCcmInit arg outcap d s = .next (((s.setBc (afterRequests s.bc (encRequests k [b0]))).setCcm
      { ccmStart arg d with
        mac := { cbc := { keyref := k, chain := bcEnc s.bc k b0, pend := Block.zero, plen := 0, pad := false },
                 pend := Block.zero, plen := 0 } }).addResponse ⟨.ok, 0, 0, []⟩) :=
  execCcmInit_ok (outcap := outcap) h (macFeed_start_block hp (h.b0_length _ _ _))

/-! ## The AAD commands -/

theorem execCcmAadUpdate_badParam (hphase : s.ccm.phase = .init ∨ s.ccm.phase = .aad) (harg : arg ≠ 0) :
    execCcmAadUpdate arg outcap d s = .next ((clearEng .ccm s).addResponse ⟨.badParam, 0, 0, []⟩) := by
  rw [execCcmAadUpdate, if_neg (or_iff_not_and_not.mp hphase), if_pos harg]
  rfl

theorem execCcmAadUpdate_overBudget (hphase : s.ccm.phase = .init ∨ s.ccm.phase = .aad)
    (hover : s.ccm.aadcons.toNat + d.length > s.ccm.aadsize.toNat) :
    execCcmAadUpdate 0 outcap d s = .next ((clearEng .ccm s).addResponse ⟨.genFail, 0, 0, []⟩) := by
  rw [execCcmAadUpdate, if_neg (or_iff_not_and_not.mp hphase), if_neg (not_not.mpr rfl), if_pos hover]
  rfl

theorem execCcmAadFinish_badParam (hphase : s.ccm.phase = .init ∨ s.ccm.phase = .aad) (h : arg ≠ 0 ∨ d ≠ []) :
    execCcmAadFinish arg outcap d s = .next ((clearEng .ccm s).addResponse ⟨.badParam, 0, 0, []⟩) := by
  rw [execCcmAadFinish, if_neg (or_iff_not_and_not.mp hphase), if_pos (h.imp_right (mt List.length_eq_zero_iff.mp))]
  rfl

/-- Past its parameter checks CCM.AAD_FINISH depends on the AAD being all there, then on the flush (R96, R103). -/
theorem execCcmAadFinish_checked (hphase : s.ccm.phase = .init ∨ s.ccm.phase = .aad) :
    execCcmAadFinish 0 outcap [] s =
      if s.ccm.aadcons ≠ s.ccm.aadsize then raise .ccm .genFail s
      else runCipher .ccm (ccmFlush s.ccm.mac s.bc) s fun m s' =>
        respond 0 0 [] (s'.setCcm { s.ccm with mac := m, phase := .aadFinish }) := by
  rw [execCcmAadFinish, if_neg (or_iff_not_and_not.mp hphase), if_neg (by simp)]

/-- CCM.AAD_FINISH past its checks keeps what the flush gives (R96). -/
theorem execCcmAadFinish_ok {m : MacCore} (hphase : s.ccm.phase = .init ∨ s.ccm.phase = .aad)
    (hall : s.ccm.aadcons = s.ccm.aadsize) (hflush : ccmFlush s.ccm.mac s.bc = .ok m q) :
    execCcmAadFinish 0 outcap [] s = .next (((s.setBc q).setCcm
      { s.ccm with mac := m, phase := .aadFinish }).addResponse ⟨.ok, 0, 0, []⟩) := by
  rw [execCcmAadFinish_checked hphase, if_neg (not_not.mpr hall), hflush]
  rfl

/-! ## The text updates -/

section
variable {dir : CcmDir} {active : CcmPhase}

theorem ccmTextUpdate_badParam (hphase : s.ccm.phase = .aadFinish ∨ s.ccm.phase = active) (harg : arg ≠ 0) :
    ccmTextUpdate dir active arg outcap d s = .next ((clearEng .ccm s).addResponse ⟨.badParam, 0, 0, []⟩) := by
  rw [ccmTextUpdate, if_neg (or_iff_not_and_not.mp hphase), if_pos harg]
  rfl

theorem ccmTextUpdate_overBudget (hphase : s.ccm.phase = .aadFinish ∨ s.ccm.phase = active)
    (hover : s.ccm.textcons.toNat + d.length > s.ccm.textsize.toNat) :
    ccmTextUpdate dir active 0 outcap d s = .next ((clearEng .ccm s).addResponse ⟨.genFail, 0, 0, []⟩) := by
  rw [ccmTextUpdate, if_neg (or_iff_not_and_not.mp hphase), if_neg (not_not.mpr rfl), if_pos hover]
  rfl

theorem ccmTextUpdate_tooSmall (hphase : s.ccm.phase = .aadFinish ∨ s.ccm.phase = active)
    (hroom : s.ccm.textcons.toNat + d.length ≤ s.ccm.textsize.toNat) (hcap : outcap.toNat < d.length) :
    ccmTextUpdate dir active 0 outcap d s =
      .next ((clearEng .ccm s).addResponse ⟨.bufferTooSmall, 0, BitVec.ofNat 16 d.length, []⟩) := by
  rw [ccmTextUpdate, if_neg (or_iff_not_and_not.mp hphase), if_neg (not_not.mpr rfl), if_neg (not_lt.mpr hroom),
    if_pos hcap]
  rfl

/-- A text update past its checks puts out and keeps what its data path gives (R97 to R99). -/
theorem ccmTextUpdate_ok {r : List Byte × CcmCtx} (hphase : s.ccm.phase = .aadFinish ∨ s.ccm.phase = active)
    (hroom : s.ccm.textcons.toNat + d.length ≤ s.ccm.textsize.toNat) (hcap : d.length ≤ outcap.toNat)
    (hfed : feed (ccmTextByte dir) s.ccm d s.bc = .ok r q) :
    ccmTextUpdate dir active 0 outcap d s = .next (((s.setBc q).setCcm { r.2 with phase := active }).addResponse
      ⟨.ok, 0, BitVec.ofNat 16 d.length, r.1⟩) := by
  rw [ccmTextUpdate, if_neg (or_iff_not_and_not.mp hphase), if_neg (not_not.mpr rfl), if_neg (not_lt.mpr hroom),
    if_neg (not_lt.mpr hcap), hfed]
  rfl

end

/-! ## The finish commands -/

theorem execCcmEncFinish_badParam (hphase : s.ccm.phase = .aadFinish ∨ s.ccm.phase = .encryptText)
    (h : arg ≠ s.ccm.tagsize ∨ d ≠ []) :
    execCcmEncFinish arg outcap d s = .next ((clearEng .ccm s).addResponse ⟨.badParam, 0, 0, []⟩) := by
  rw [execCcmEncFinish, if_neg (or_iff_not_and_not.mp hphase), if_pos (h.imp_right (mt List.length_eq_zero_iff.mp))]
  rfl

/-- Past its parameter checks CCM.ENC_FINISH depends on the text being all there, then on the capacity, then on the
requests for the tag (R101, R103). -/
theorem execCcmEncFinish_checked (hphase : s.ccm.phase = .aadFinish ∨ s.ccm.phase = .encryptText) :
    execCcmEncFinish s.ccm.tagsize outcap [] s =
      if s.ccm.textcons ≠ s.ccm.textsize then raise .ccm .genFail s
      else if outcap.toNat < s.ccm.tagsize.toNat then raise .ccm (.bufferTooSmall s.ccm.tagsize.toNat) s
      else runCipher .ccm (ccmTag s.ccm s.bc) s fun t s' =>
        respond 0 s.ccm.tagsize.toNat t (s'.setCcm (clearCcm s.ccm)) := by
  rw [execCcmEncFinish, if_neg (or_iff_not_and_not.mp hphase), if_neg (by simp)]

theorem execCcmEncFinish_textMissing (hphase : s.ccm.phase = .aadFinish ∨ s.ccm.phase = .encryptText)
    (htext : s.ccm.textcons ≠ s.ccm.textsize) :
    execCcmEncFinish s.ccm.tagsize outcap [] s = .next ((clearEng .ccm s).addResponse ⟨.genFail, 0, 0, []⟩) :=
  (execCcmEncFinish_checked hphase).trans (if_pos htext)

theorem execCcmEncFinish_tooSmall (hphase : s.ccm.phase = .aadFinish ∨ s.ccm.phase = .encryptText)
    (htext : s.ccm.textcons = s.ccm.textsize) (hcap : outcap.toNat < s.ccm.tagsize.toNat) :
    execCcmEncFinish s.ccm.tagsize outcap [] s = .next ((clearEng .ccm s).addResponse
      ⟨.bufferTooSmall, 0, BitVec.ofNat 16 s.ccm.tagsize.toNat, []⟩) := by
  rw [execCcmEncFinish_checked hphase, if_neg (not_not.mpr htext), if_pos hcap]
  rfl

/-- CCM.ENC_FINISH past its checks puts out the tag and clears the context (R101). -/
theorem execCcmEncFinish_ok {t : List Byte} (hphase : s.ccm.phase = .aadFinish ∨ s.ccm.phase = .encryptText)
    (htext : s.ccm.textcons = s.ccm.textsize) (hcap : s.ccm.tagsize.toNat ≤ outcap.toNat)
    (htag : ccmTag s.ccm s.bc = .ok t q) :
    execCcmEncFinish s.ccm.tagsize outcap [] s = .next (((clearEng .ccm s).setBc q).addResponse
      ⟨.ok, 0, BitVec.ofNat 16 s.ccm.tagsize.toNat, t⟩) := by
  rw [execCcmEncFinish_checked hphase, if_neg (not_not.mpr htext), if_neg (not_lt.mpr hcap), htag]
  rfl

theorem execCcmDecFinish_badParam (hphase : s.ccm.phase = .aadFinish ∨ s.ccm.phase = .decryptText)
    (h : arg ≠ s.ccm.tagsize ∨ d.length ≠ s.ccm.tagsize.toNat) :
    execCcmDecFinish arg outcap d s = .next ((clearEng .ccm s).addResponse ⟨.badParam, 0, 0, []⟩) := by
  rw [execCcmDecFinish, if_neg (or_iff_not_and_not.mp hphase), if_pos h]
  rfl

/-- Past its parameter checks CCM.DEC_FINISH depends on the text being all there, then on the requests for the tag
(R102, R103). -/
theorem execCcmDecFinish_checked (hphase : s.ccm.phase = .aadFinish ∨ s.ccm.phase = .decryptText)
    (hd : d.length = s.ccm.tagsize.toNat) :
    execCcmDecFinish s.ccm.tagsize outcap d s =
      if s.ccm.textcons ≠ s.ccm.textsize then raise .ccm .genFail s
      else runCipher .ccm (ccmTag s.ccm s.bc) s fun t s' =>
        respond (if tagDiff t d = 0 then 1 else 0) 0 [] (s'.setCcm (clearCcm s.ccm)) := by
  rw [execCcmDecFinish, if_neg (or_iff_not_and_not.mp hphase),
    if_neg (not_or_intro (not_not.mpr rfl) (not_not.mpr hd))]

theorem execCcmDecFinish_textMissing (hphase : s.ccm.phase = .aadFinish ∨ s.ccm.phase = .decryptText)
    (hd : d.length = s.ccm.tagsize.toNat) (htext : s.ccm.textcons ≠ s.ccm.textsize) :
    execCcmDecFinish s.ccm.tagsize outcap d s = .next ((clearEng .ccm s).addResponse ⟨.genFail, 0, 0, []⟩) :=
  (execCcmDecFinish_checked hphase hd).trans (if_pos htext)

/-- CCM.DEC_FINISH past its checks gives its verdict on a tag of the right length and clears the context (R102). -/
theorem execCcmDecFinish_ok {t : List Byte} (hphase : s.ccm.phase = .aadFinish ∨ s.ccm.phase = .decryptText)
    (hd : d.length = s.ccm.tagsize.toNat) (htext : s.ccm.textcons = s.ccm.textsize)
    (htag : ccmTag s.ccm s.bc = .ok t q) (ht : t.length = d.length) :
    execCcmDecFinish s.ccm.tagsize outcap d s = .next (((clearEng .ccm s).setBc q).addResponse
      ⟨.ok, if d = t then 1 else 0, 0, []⟩) := by
  rw [execCcmDecFinish_checked hphase hd, if_neg (not_not.mpr htext), htag, runCipher_ok]
  simp only [tagDiff_eq_zero t d ht]
  rfl

end

/-! ## The tag -/

/-- `ccm_tag()` with no failure to come: the two parts of a CCM context hold one key handle, so its requests and its
answers are all under that one (R18, R100). -/
theorem ccmTag_honest {s : State} (hC : CcmInv s.ccm) (hp : Honest s.bc) :
    ccmTag s.ccm s.bc = .ok (tagOf s) (afterRequests s.bc (tagRequests s)) := by
  obtain ⟨⟨hzero, -⟩, -, -, hkey, -⟩ := hC
  rw [ccmTag, ccmFlush_honest hzero hp, andThen_ok, bcRequest_honest (hp.after _), andThen_ok, afterRequests_append,
    hkey]
  simp only [tagOf, tagRequests, encRequests, List.map_append]
  rfl

/-- The tag has the declared size (R89, R100). -/
theorem tagOf_length {s : State} (h : s.ccm.tagsize.toNat ≤ 16) : (tagOf s).length = s.ccm.tagsize.toNat := by
  simp only [tagOf, List.length_take, Block.toList_length, Nat.min_eq_left h]

/-- A tag is no longer than a block (R89). -/
theorem ccmTagSizes_le : ∀ n ∈ ccmTagSizes, n ≤ 16 := by decide

end Sys2Proof.Machine
end

section
/-! SUPPORT. CCM streams with no failing request: what each command of a stream hands to the next one. -/

namespace Sys2Proof.Machine

/-! ## The text data path and the phase -/

/-- A change of the context that every byte carries along is carried along by a byte string. -/
theorem feed_carries {σ : Type} {f : σ → Byte → BcPort → BcResult (List Byte × σ)} {g : σ → σ}
    (hf : ∀ S b p, f (g S) b p = (f S b p).andThen fun r q => .ok (r.1, g r.2) q) (S : σ) (d : List Byte)
    (p : BcPort) :
    feed f (g S) d p = (feed f S d p).andThen fun r q => .ok (r.1, g r.2) q := by
  induction d generalizing S p with
  | nil => rfl
  | cons b bs ih => simp only [feed_cons, hf, andThen_assoc, andThen_ok, ih]

theorem ccmKeystream_phase (C : CcmCtx) (ph : CcmPhase) (p : BcPort) :
    ccmKeystream { C with phase := ph } p = (ccmKeystream C p).andThen fun C' q => .ok { C' with phase := ph } q := by
  unfold ccmKeystream
  split
  · simp only [andThen_assoc, andThen_ok]
  · rfl

/-- A text byte neither reads nor writes the phase. -/
theorem ccmTextByte_phase (dir : CcmDir) (ph : CcmPhase) (C : CcmCtx) (b : Byte) (p : BcPort) :
    ccmTextByte dir { C with phase := ph } b p =
      (ccmTextByte dir C b p).andThen fun r q => .ok (r.1, { r.2 with phase := ph }) q := by
  simp only [ccmTextByte, ccmKeystream_phase, andThen_assoc, andThen_ok]

/-- A text update neither reads nor writes the phase on its way. -/
theorem feed_ccmTextByte_phase (dir : CcmDir) (ph : CcmPhase) (C : CcmCtx) (d : List Byte) (p : BcPort) :
    feed (ccmTextByte dir) { C with phase := ph } d p =
      (feed (ccmTextByte dir) C d p).andThen fun r q => .ok (r.1, { r.2 with phase := ph }) q :=
  feed_carries (g := fun C : CcmCtx => { C with phase := ph }) (ccmTextByte_phase dir ph) C d p

/-! ## The text -/

/-- Masking a byte string twice with one keystream gives it back (R97). -/
theorem xorBytes_cancel {d k : List Byte} (h : d.length ≤ k.length) : xorBytes (xorBytes d k) k = d := by
  induction d generalizing k with
  | nil => rfl
  | cons b bs ih =>
    cases k with
    | nil => nomatch h
    | cons x xs => rw [xorBytes_cons, xorBytes_cons, ih (Nat.le_of_succ_le_succ h), BitVec.xor_assoc, BitVec.xor_self,
        BitVec.xor_zero]

theorem xorBytes_nextKeystream_length (E : Block → Block) (C : CcmCtx) (d : List Byte) :
    (xorBytes d (nextKeystream E C d.length)).length = d.length := by
  rw [xorBytes_length]
  exact Nat.min_eq_left (nextKeystream_length E C d.length)

/-- The state after a text update that puts out `out` and authenticates `plain`. -/
def afterText (s : State) (active : CcmPhase) (plain out : List Byte) : State :=
  ((s.setBc (afterRequests s.bc (textRequests s.ccm s.bc plain))).setCcm
    { textContext s.ccm s.bc plain with phase := active }).addResponse ⟨.ok, 0, BitVec.ofNat 16 plain.length, out⟩

theorem textUpdateResult_eq (s : State) (active : CcmPhase) (plain out : List Byte) :
    textUpdateResult s active plain out = .next (afterText s active plain out) := rfl

section
variable {s : State} {outcap : Half} {d : List Byte} {q : BcPort}

/-- A text update with no failure to come, in either direction (R97 to R99). -/
theorem ccmTextUpdate_honest {dir : CcmDir} (hinv : CcmInv s.ccm) (hstream : CcmStreamInv s.ccm) (hp : Honest s.bc)
    (hphase : s.ccm.phase = .aadFinish ∨ s.ccm.phase = dir.active)
    (hroom : s.ccm.textcons.toNat + d.length ≤ s.ccm.textsize.toNat) (hcap : d.length ≤ outcap.toNat) :
    let out := xorBytes d (nextKeystream (bcEnc s.bc s.ccm.ctr.keyref) s.ccm d.length)
    ccmTextUpdate dir dir.active 0 outcap d s = textUpdateResult s dir.active (plainOf dir d out) out := by
  intro out
  obtain ⟨⟨hzero, -⟩, -⟩ := hinv
  obtain ⟨-, -, -, htext⟩ := hstream
  obtain ⟨-, hplen⟩ := htext (phase_text_of_dir hphase)
  have hsize := s.ccm.textsize.isLt
  have hfed : feed (ccmTextByte dir) s.ccm d s.bc = .ok (out, textContext s.ccm s.bc (plainOf dir d out))
      (afterRequests s.bc (textRequests s.ccm s.bc (plainOf dir d out))) :=
    feed_ccmTextByte dir d hzero (congrArg Fin.val hplen) (by omega) hp
  have hlen : (plainOf dir d out).length = d.length := plainOf_length (xorBytes_nextKeystream_length _ _ d)
  rw [ccmTextUpdate_ok hphase hroom hcap hfed, textUpdateResult_eq, afterText, hlen]

/-! ## Updates in turn -/

/-- Bytes within the declared size are counted without wrapping (R103). -/
theorem consumed_toNat {c size : BitVec 64} {n : Nat} (h : c.toNat + n ≤ size.toNat) :
    (c + BitVec.ofNat 64 n).toNat = c.toNat + n := by
  have hsize := size.isLt
  rw [BitVec.toNat_add, BitVec.toNat_ofNat]
  omega

theorem ofNat_length_append (c : BitVec 64) (x y : List Byte) :
    c + BitVec.ofNat 64 (x ++ y).length = c + BitVec.ofNat 64 x.length + BitVec.ofNat 64 y.length := by
  rw [List.length_append, BitVec.ofNat_add, BitVec.add_assoc]

theorem ccmAadUpdate_runs {m : MacCore} (hphase : s.ccm.phase = .init ∨ s.ccm.phase = .aad)
    (hroom : s.ccm.aadcons.toNat + d.length ≤ s.ccm.aadsize.toNat)
    (hfed : macFeed s.ccm.mac (ccmFirstAad s.ccm ++ d) s.bc = .ok m q) :
    ∃ t, runsTo (.ccmAadUpdate 0 outcap d) s t [] ∧
      t.ccm = { s.ccm with mac := m, aadcons := s.ccm.aadcons + BitVec.ofNat 64 d.length, phase := .aad } ∧
      t.bc = q :=
  ⟨_, runsTo_of_next (execCcmAadUpdate_ok (outcap := outcap) hphase hroom hfed) rfl, rfl, rfl⟩

/-- The text update command of a direction (R98, R99). -/
def CcmDir.update : CcmDir → Byte → Half → List Byte → Instr
  | .enc => .ccmEncUpdate
  | .dec => .ccmDecUpdate

theorem exec_textUpdate (dir : CcmDir) (arg : Byte) (outcap : Half) (d : List Byte) (s : State) :
    exec (dir.update arg outcap d) s = ccmTextUpdate dir dir.active arg outcap d s := by
  cases dir <;> rfl

theorem ccmTextUpdate_runs {dir : CcmDir} {r : List Byte × CcmCtx}
    (hphase : s.ccm.phase = .aadFinish ∨ s.ccm.phase = dir.active)
    (hroom : s.ccm.textcons.toNat + d.length ≤ s.ccm.textsize.toNat) (hlen : d.length ≤ 65520)
    (hfed : feed (ccmTextByte dir) s.ccm d s.bc = .ok r q) :
    ∃ t, runsTo (dir.update 0 0xFFFF d) s t r.1 ∧ t.ccm = { r.2 with phase := dir.active } ∧ t.bc = q := by
  have hcap : d.length ≤ (0xFFFF : Half).toNat := hlen.trans (by decide)
  have hrun := (exec_textUpdate dir 0 0xFFFF d s).trans (ccmTextUpdate_ok hphase hroom hcap hfed)
  exact ⟨_, runsTo_of_next hrun rfl, rfl, rfl⟩

end

section
variable {s : State} {x y : List Byte}

/-- The first of two AAD updates feeds the encoded size, the second does not (R95, R104). -/
theorem ccmAadUpdate_split (hp : Honest s.bc) (hphase : s.ccm.phase = .init ∨ s.ccm.phase = .aad)
    (hroom : s.ccm.aadcons.toNat + x.length + y.length ≤ s.ccm.aadsize.toNat) :
    ∃ t t1 t2, runsTo (.ccmAadUpdate 0 0 (x ++ y)) s t [] ∧ runsTo (.ccmAadUpdate 0 0 x) s t1 [] ∧
      runsTo (.ccmAadUpdate 0 0 y) t1 t2 [] ∧ t2.ccm = t.ccm ∧ t2.bc = t.bc := by
  obtain ⟨m, q, m', q', hx, hy, hxy⟩ := macFeed_honest_append s.ccm.mac (ccmFirstAad s.ccm ++ x) y hp
  rw [List.append_assoc] at hxy
  obtain ⟨t, ht, htctx, htport⟩ := ccmAadUpdate_runs (outcap := 0) hphase (by rw [List.length_append]; omega) hxy
  obtain ⟨t1, ht1, ht1ctx, rfl⟩ := ccmAadUpdate_runs (outcap := 0) hphase (by omega) hx
  have hphase1 : t1.ccm.phase = .aad := by rw [ht1ctx]
  have hroom1 : t1.ccm.aadcons.toNat + y.length ≤ t1.ccm.aadsize.toNat := by
    rw [ht1ctx]
    simp only [consumed_toNat (c := s.ccm.aadcons) (size := s.ccm.aadsize) (n := x.length) (by omega)]
    exact hroom
  have hy1 : macFeed t1.ccm.mac (ccmFirstAad t1.ccm ++ y) t1.bc = .ok m' q' := by
    have hnone : ccmFirstAad t1.ccm = [] := if_neg (by rw [hphase1]; decide)
    rw [hnone, ht1ctx]
    exact hy
  obtain ⟨t2, ht2, ht2ctx, ht2port⟩ := ccmAadUpdate_runs (outcap := 0) (.inr hphase1) hroom1 hy1
  refine ⟨t, t1, t2, ht, ht1, ht2, ?_, ht2port.trans htport.symm⟩
  rw [ht2ctx, htctx, ht1ctx, ofNat_length_append]

/-- The second of two text updates takes up the text block where the first left it, and does not read the phase the
first wrote (R97, R104). -/
theorem ccmTextUpdate_split (dir : CcmDir) (hp : Honest s.bc)
    (hphase : s.ccm.phase = .aadFinish ∨ s.ccm.phase = dir.active) (hlen : x.length + y.length ≤ 65520)
    (hroom : s.ccm.textcons.toNat + x.length + y.length ≤ s.ccm.textsize.toNat) :
    ∃ t t1 t2 o1 o2, runsTo (dir.update 0 0xFFFF (x ++ y)) s t (o1 ++ o2) ∧ runsTo (dir.update 0 0xFFFF x) s t1 o1 ∧
      runsTo (dir.update 0 0xFFFF y) t1 t2 o2 ∧ t2.ccm = t.ccm ∧ t2.bc = t.bc := by
  obtain ⟨r, q, r', q', hx, hy, hxy⟩ := feed_honest_append (disciplined_ccmTextByte dir) s.ccm x y hp
  have happend : (x ++ y).length = x.length + y.length := List.length_append
  obtain ⟨t, ht, htctx, htport⟩ := ccmTextUpdate_runs hphase (by omega) (by omega) hxy
  obtain ⟨t1, ht1, ht1ctx, rfl⟩ := ccmTextUpdate_runs hphase (by omega) (by omega) hx
  have hroom1 : t1.ccm.textcons.toNat + y.length ≤ t1.ccm.textsize.toNat := by
    have hkept := feed_ccmTextByte_kept hx
    rw [ht1ctx]
    simp only [hkept.textcons, hkept.textsize]
    rw [consumed_toNat (size := s.ccm.textsize) (by omega)]
    exact hroom
  have hy1 : feed (ccmTextByte dir) t1.ccm y t1.bc = .ok (r'.1, { r'.2 with phase := dir.active }) q' := by
    rw [ht1ctx, feed_ccmTextByte_phase, hy, andThen_ok]
  obtain ⟨t2, ht2, ht2ctx, ht2port⟩ := ccmTextUpdate_runs (.inr (by rw [ht1ctx])) hroom1 (by omega) hy1
  exact ⟨t, t1, t2, _, _, ht, ht1, ht2, ht2ctx.trans htctx.symm, ht2port.trans htport.symm⟩

end

/-! ## A whole text, from the close of the AAD -/

/-- All AAD of a stream is closed, and `d` has the size of its text and fits one packet (R47, R93). -/
structure WholeText (s : State) (d : List Byte) : Prop where
  stream : CcmStreamInv s.ccm
  phase : s.ccm.phase = .aadFinish
  length : d.length = s.ccm.textsize.toNat
  fits : d.length ≤ 65520

/-- The bytes masked with the keystream from the current text position on (R97). -/
def masked (s : State) (d : List Byte) : List Byte :=
  xorBytes d (nextKeystream (bcEnc s.bc s.ccm.ctr.keyref) s.ccm d.length)

theorem masked_length (s : State) (d : List Byte) : (masked s d).length = d.length :=
  xorBytes_nextKeystream_length _ _ d

theorem masked_masked (s : State) (d : List Byte) : masked s (masked s d) = d := by
  rw [masked, masked_length]
  exact xorBytes_cancel (nextKeystream_length _ _ _)

section
variable {s : State} {d plain out out' : List Byte} {ph : CcmPhase}

theorem WholeText.textcons (h : WholeText s d) : s.ccm.textcons = 0 := by
  obtain ⟨⟨-, -, hnone, -⟩, hphase, -, -⟩ := h
  exact hnone (.inr (.inr hphase))

/-- The tag size of a live stream is legal (R89). -/
theorem WholeText.tagsize_le (h : WholeText s d) : s.ccm.tagsize.toNat ≤ 16 := by
  have hlive : s.ccm.phase ≠ .idle := phase_live_of_dir (dir := .enc) (.inl h.phase)
  exact ccmTagSizes_le _ (h.stream.sizes hlive).tagSize

/-- The whole text in one update, in either direction (R97 to R99). -/
theorem WholeText.exec (h : WholeText s d) (dir : CcmDir) (hinv : ContextInv s) (hp : Honest s.bc) :
    Machine.exec (dir.update 0 0xFFFF d) s =
      .next (afterText s dir.active (plainOf dir d (masked s d)) (masked s d)) := by
  obtain ⟨-, -, -, -, hccm⟩ := hinv
  have hroom : s.ccm.textcons.toNat + d.length ≤ s.ccm.textsize.toNat := by
    rw [h.textcons, h.length]
    exact (Nat.zero_add _).le
  rw [exec_textUpdate]
  exact ccmTextUpdate_honest hccm h.stream hp (.inl h.phase) hroom (h.fits.trans (by decide))

/-- After the whole text in one update all declared text has been consumed (R97, R103). -/
theorem WholeText.all (h : WholeText s plain) :
    (afterText s ph plain out).ccm.textcons = (afterText s ph plain out).ccm.textsize := by
  change s.ccm.textcons + BitVec.ofNat 64 plain.length = s.ccm.textsize
  rw [h.textcons, h.length, BitVec.ofNat_toNat, BitVec.setWidth_eq]
  exact BitVec.zero_add _

/-- The tag depends neither on the direction of the text nor on what was put out (R100). -/
theorem tagOf_afterText (s : State) (ph ph' : CcmPhase) (plain out out' : List Byte) :
    tagOf (afterText s ph plain out) = tagOf (afterText s ph' plain out') := rfl

/-- CCM.ENC_FINISH after the whole text puts out the tag (R101). -/
theorem WholeText.seal (h : WholeText s plain) (hinv : ContextInv (afterText s .encryptText plain out))
    (hp : Honest s.bc) :
    ∃ t, runsTo (.ccmEncFinish s.ccm.tagsize 0xFFFF []) (afterText s .encryptText plain out) t
      (tagOf (afterText s .encryptText plain out)) := by
  obtain ⟨-, -, -, -, hccm⟩ := hinv
  have htag := ccmTag_honest hccm (hp.after _)
  exact ⟨_, runsTo_of_next (execCcmEncFinish_ok (.inr rfl) h.all (h.tagsize_le.trans (by decide)) htag) rfl⟩

/-- CCM.DEC_FINISH after the whole text verifies the tag put out for the same text (R102). -/
theorem WholeText.verify (h : WholeText s plain) (hinv : ContextInv (afterText s .decryptText plain out'))
    (hp : Honest s.bc) :
    ∃ t, Machine.exec (.ccmDecFinish s.ccm.tagsize 0 (tagOf (afterText s .encryptText plain out)))
        (afterText s .decryptText plain out') = .next t ∧
      t.responses = (afterText s .decryptText plain out').responses ++ [⟨.ok, 1, 0, []⟩] := by
  obtain ⟨-, -, -, -, hccm⟩ := hinv
  have htag := ccmTag_honest hccm (hp.after _)
  rw [tagOf_afterText s .encryptText .decryptText plain out out']
  have hrun := execCcmDecFinish_ok (s := afterText s .decryptText plain out') (outcap := 0) (.inr rfl)
    (tagOf_length h.tagsize_le) h.all htag rfl
  rw [if_pos rfl] at hrun
  exact ⟨_, hrun, rfl⟩

end

end Sys2Proof.Machine
end

section
/-! CERTIFICATE. The statements of spec/45_ccm.md: the invariant of a CCM stream, how each CCM command ends, and the
laws of a CCM stream. -/

namespace Sys2Proof.Machine

/-- Settles O20: an idle context holds no stream, and every move of a command keeps the stream and its counter block. -/
theorem stepKeepsCcmStreamInvariant : Obligations.StepKeepsCcmStreamInvariant := by
  intro s t _ hstream h
  obtain hsame | hreset | ⟨i, hmove⟩ := step_ccm h
  · rw [hsame]
    exact ⟨hstream, id⟩
  · rw [hreset]
    exact ⟨ccmStreamInv_of_idle rfl, fun _ => ccmCounterInv_of_idle rfl⟩
  · exact ⟨hmove.stream hstream, hmove.counter hstream⟩

/-- Settles O48: past its checks the command feeds one block, `B0`, whose flags byte is a sum of its three fields. -/
theorem ccmInitResult : Obligations.CcmInitResult := by
  intro s tag outcap b0 b1 b2 aadSize textSize iv hp htag hlow hhigh haad hsize htext l k flags first
  have hiv : iv.length < 256 ^ 1 := by omega
  have hok : CcmParamsOk tag (ccmParams b0 b1 b2 aadSize textSize iv) :=
    ccmParamsOk_ccmParams htag hlow hhigh hsize htext
  have hrun := execCcmInit_honest (outcap := outcap) hok hp
  rw [ccmAadSize_ccmParams haad, ccmTextSize_ccmParams hsize, ccmIv_ccmParams hiv, payloadKeyRef_ccmParams,
    ccmStart_ccmParams hiv haad hsize, ccmB0_eq (ccmTagSizes_le _ htag) hlow] at hrun
  exact hrun

/-- Settles O52: past its checks the command keeps what the flush gives. -/
theorem ccmAadFinishResult : Obligations.CcmAadFinishResult := by
  intro s outcap hinv hp hphase hall
  obtain ⟨-, -, -, -, ⟨⟨hzero, -⟩, -⟩⟩ := hinv
  exact execCcmAadFinish_ok (outcap := outcap) hphase hall (ccmFlush_honest hzero hp)

/-- Settles O53: both commands run the one function, in their own direction. -/
theorem ccmTextUpdateResult : Obligations.CcmTextUpdateResult := by
  intro s outcap data hinv hstream hp hroom hcap out
  obtain ⟨-, -, -, -, hccm⟩ := hinv
  exact ⟨fun hphase => ccmTextUpdate_honest (dir := .enc) hccm hstream hp hphase hroom hcap,
    fun hphase => ccmTextUpdate_honest (dir := .dec) hccm hstream hp hphase hroom hcap⟩

/-- Settles O54: past its checks the command puts out the tag its requests give. -/
theorem ccmEncFinishResult : Obligations.CcmEncFinishResult := by
  intro s outcap hinv _ hp hphase htext hcap
  obtain ⟨-, -, -, -, hccm⟩ := hinv
  exact execCcmEncFinish_ok hphase htext hcap (ccmTag_honest hccm hp)

/-- Settles O55: the tag has the declared size, so the comparison of R102 finds every difference. -/
theorem ccmDecFinishResult : Obligations.CcmDecFinishResult := by
  intro s outcap expected hinv hstream hp hphase htext hlen
  obtain ⟨-, -, -, -, hccm⟩ := hinv
  have hlive : s.ccm.phase ≠ .idle := phase_live_of_dir (dir := .dec) hphase
  have htag : (tagOf s).length = s.ccm.tagsize.toNat := tagOf_length (ccmTagSizes_le _ (hstream.sizes hlive).tagSize)
  exact execCcmDecFinish_ok (outcap := outcap) hphase hlen htext (ccmTag_honest hccm hp) (htag.trans hlen.symm)

/-- Settles O56: the two updates leave contexts that differ in the phase alone, so the two finish commands compute one
tag. -/
theorem ccmOpenOfSeal : Obligations.CcmOpenOfSeal := by
  intro s text hinv hstream hp hphase hlen hfits
  have hwhole : WholeText s text := ⟨hstream, hphase, hlen, hfits⟩
  have hclen := masked_length s text
  have hciphertext : WholeText s (masked s text) := ⟨hstream, hphase, hclen.trans hlen, hclen.trans_le hfits⟩
  have henc := hwhole.exec .enc hinv hp
  have hdec := hciphertext.exec .dec hinv hp
  rw [masked_masked] at hdec
  obtain ⟨s2, hs2⟩ := hwhole.seal (exec_contextInv hinv henc) hp
  obtain ⟨t2, ht2, hverdict⟩ := hwhole.verify (exec_contextInv hinv hdec) hp
  exact ⟨_, s2, _, t2, masked s text, _, ⟨_, henc, rfl⟩, hs2, ⟨_, hdec, rfl⟩, ht2, hverdict⟩

/-- Settles O60: feeding two strings in turn is feeding their concatenation. -/
theorem ccmUpdateSplit : Obligations.CcmUpdateSplit := by
  intro s x y _ _ hp hlen
  exact ⟨ccmAadUpdate_split hp, fun hroom => ⟨fun hphase => ccmTextUpdate_split .enc hp hphase hlen hroom,
    fun hphase => ccmTextUpdate_split .dec hp hphase hlen hroom⟩⟩

/-- Settles O49: each clause denies one of the five conditions on the parameters. -/
theorem ccmInitErrors : Obligations.CcmInitErrors := by
  intro s tag outcap d ivSize h
  have hiv : ccmIvSize d = ivSize := intBe_slice_one d 3
  refine execCcmInit_badParam (outcap := outcap) fun ⟨htag, hlow, hhigh, hlen, htext⟩ => ?_
  rw [hiv] at hlow hhigh hlen htext
  obtain hbad | hbad | hbad | hbad | hbad | hbad := h
  · exact hbad htag
  · omega
  · omega
  · omega
  · exact hbad hlen
  · exact hbad.not_gt htext

/-- Settles O50: `aadPrefix` branch by branch. -/
theorem aadPrefixForms : Obligations.AadPrefixForms := by
  refine ⟨rfl, fun n hpos hn => ?_, fun n hlow hn => ⟨be n 4, ?_, be_length n 4, intBe_be hn⟩,
    fun n hlow hn => ⟨be n 8, ?_, be_length n 8, intBe_be hn⟩⟩
  · have hbytes : aadPrefix n = be n 2 := by rw [aadPrefix, if_neg (by omega), if_pos hn]
    rw [hbytes]
    exact ⟨be_length n 2, intBe_be (by omega)⟩
  · rw [aadPrefix, if_neg (by omega), if_neg (by omega), if_pos hn]
    rfl
  · rw [aadPrefix, if_neg (by omega), if_neg (by omega), if_neg (by omega)]
    rfl

/-- Settles O58: one rule per check. -/
theorem ccmBudgetChecks : Obligations.CcmBudgetChecks := by
  intro s outcap data C fails
  refine ⟨fun hphase => ⟨execCcmAadUpdate_overBudget (outcap := outcap) hphase, fun hmissing => ?_⟩,
    fun hphase => ⟨ccmTextUpdate_overBudget hphase, execCcmEncFinish_textMissing hphase⟩,
    fun hphase => ⟨ccmTextUpdate_overBudget hphase, fun hmissing hlen =>
      execCcmDecFinish_textMissing (outcap := outcap) hphase hlen hmissing⟩⟩
  exact (execCcmAadFinish_checked (outcap := outcap) hphase).trans (if_pos hmissing)

/-- Settles O59: one rule per check. -/
theorem ccmArgumentErrors : Obligations.CcmArgumentErrors := by
  intro s arg outcap d C fails bad
  exact ⟨fun hphase => ⟨execCcmAadUpdate_badParam (outcap := outcap) hphase,
      execCcmAadFinish_badParam (outcap := outcap) hphase⟩,
    fun hphase => ⟨ccmTextUpdate_badParam hphase, ccmTextUpdate_tooSmall hphase, execCcmEncFinish_badParam hphase,
      execCcmEncFinish_tooSmall hphase⟩,
    fun hphase => ⟨ccmTextUpdate_badParam hphase, ccmTextUpdate_tooSmall hphase,
      execCcmDecFinish_badParam (outcap := outcap) hphase⟩⟩

end Sys2Proof.Machine
end

section
/-! SUPPORT. How a command that does not answer `OK` ends, and the state it leaves (R112): error entry clears the
context but for its key handles, so what is left is fixed by what the command found. -/

namespace Sys2Proof.Machine

variable {i : Instr} {e : Eng} {s t : State} {r : Response}

/-- A command whose answer is not `OK` ended in error entry: on a check, from the state it found, or on a failed
request, after which its context is clear. -/
theorem exec_error (h : exec i s = .next t) (hresp : t.responses = s.responses ++ [r]) (hr : r.status ≠ .ok) :
    (r.status ≠ .ioError ∧ t = (clearEng (engOf i) s).addResponse r) ∨
      (r.status = .ioError ∧ clearEng (engOf i) t = t) := by
  obtain ⟨err, hcheck, hend⟩ | ⟨aux, req, out, s', rs, hend, -, hs', -⟩ | ⟨c, s', rs, hend, -, hs', -⟩ := exec_ends i s
  all_goals
    rw [hend] at h
    obtain rfl := Host.Outcome.next.inj h
  · obtain rfl : errResponse err = r := by simpa using hresp
    refine .inl ⟨fun hio => ?_, rfl⟩
    obtain ⟨c, rfl⟩ := errStatus_eq_ioError hio
    exact hcheck c rfl
  · obtain rfl : okResponse aux req out = r := by simpa [hs'] using hresp
    exact absurd rfl hr
  · obtain rfl : errResponse (.ioError c) = r := by simpa [hs'] using hresp
    exact .inr ⟨rfl, clearEng_raised _ s' _⟩

/-- `clear` keeps nothing of a context but its key handles, so it leaves the same context before and after a command
that writes no key handle (R11, R21). -/
theorem sameContext_clearEng_of_exec (hi : isInit i = false) (h : exec i s = .next t) (e : Eng) :
    sameContext e (clearEng e s) (clearEng e t) := by
  obtain ⟨hcbc, hcmac, hctr, hmac, hccmMac, hccmCtr⟩ := keyrefWrittenOnlyByInit i s t hi h
  cases e with
  | p7 => trivial
  | cbc => simp [sameContext, clearEng, clearCbc, clearCbcCore, hcbc]
  | cmac => simp [sameContext, clearEng, clearCmac, clearCbcCore, hcmac]
  | ctr => simp [sameContext, clearEng, clearCtr, clearCtrCore, hctr]
  | mac => simp [sameContext, clearEng, clearMac, clearMacCore, clearCbcCore, hmac]
  | ccm => simp [sameContext, clearEng, clearCcm, clearMacCore, clearCbcCore, clearCtrCore, hccmMac, hccmCtr]

theorem sameOutside_symm (h : sameOutside e s t) : sameOutside e t s := by
  simpa only [sameOutside, eq_comm] using h

/-- A state that agrees with `s` on engine `e`'s context and outside it differs from `s` only in the port and the
responses. -/
theorem eq_setBc_addResponse (hout : sameOutside e s t) (hctx : sameContext e s t)
    (hresp : t.responses = s.responses ++ [r]) : t = (s.setBc t.bc).addResponse r := by
  obtain ⟨hcbc, hcmac, hctr, hmac, hccm, hstraps, hpending⟩ := hout
  have hall : t.cbc = s.cbc ∧ t.cmac = s.cmac ∧ t.ctr = s.ctr ∧ t.mac = s.mac ∧ t.ccm = s.ccm := by
    cases e <;> simp_all [sameContext]
  obtain ⟨hcbc, hcmac, hctr, hmac, hccm⟩ := hall
  exact State.ext_fields hcbc hcmac hctr hmac hccm hstraps hpending hresp rfl

/-- A command that is no INIT and leaves its context cleared leaves exactly `clear` of the context it found, the port
advanced and its response presented. -/
theorem exec_eq_of_cleared (hi : isInit i = false) (h : exec i s = .next t)
    (hresp : t.responses = s.responses ++ [r]) (hclear : clearEng (engOf i) t = t) :
    t = ((clearEng (engOf i) s).setBc t.bc).addResponse r := by
  have hctx := sameContext_clearEng_of_exec hi h (engOf i)
  rw [hclear] at hctx
  have hout := sameOutside_trans (sameOutside_symm (sameOutside_clearEng (engOf i) s)) (exec_sameOutside h)
  exact eq_setBc_addResponse hout hctx (by rw [clearEng_responses, hresp])

end Sys2Proof.Machine
end

section
/-! CERTIFICATE. The statements of spec/60_exceptions.md: what error entry leaves, that every check comes before the
first request, and a command in a phase that does not accept it. -/

namespace Sys2Proof.Machine

/-- Settles O11: the response is sound, which says what an error carries, and the command ended in error entry. After a
failed request a command that is no INIT still has its key handles, which is all that `clear` keeps. -/
theorem errorEntryClearsContext : Obligations.ErrorEntryClearsContext := by
  intro i s t r h hresp hr
  obtain ⟨r', hresp', -, herror, -⟩ := exec_sound i s t h
  obtain rfl : r' = r := by simpa [hresp'] using hresp
  obtain ⟨hout, haux, hreq⟩ := herror hr
  have hframe := exec_sameOutside h
  refine ⟨hout, haux, hreq, ?_⟩
  obtain ⟨-, rfl⟩ | ⟨hio, hclear⟩ := exec_error h hresp hr
  · exact ⟨clearEng_raised _ s _, hframe, fun _ => rfl⟩
  · refine ⟨hclear, hframe, fun hexact => ?_⟩
    have hi : isInit i = false := hexact.resolve_right (absurd hio)
    exact exec_eq_of_cleared hi h hresp hclear

/-- Settles O14: such a response comes from error entry on a check, which leaves the port of the state it found. -/
theorem checksPrecedeRequests : Obligations.ChecksPrecedeRequests := by
  intro i s t r h hresp hok hio
  obtain ⟨-, rfl⟩ | ⟨hio', -⟩ := exec_error h hresp hok
  · rw [State.addResponse_bc, clearEng_bc]
  · exact absurd hio' hio

/-- Settles O12: the phase is the first check of every command that has one, and the INITs and the PKCS7 codec accept
every phase. -/
theorem wrongPhaseRaisesBadState : Obligations.WrongPhaseRaisesBadState := by
  intro i s h
  cases i with
  | p7Pad | p7Unpad | cbcInit | cmacInit | ctrInit | macInit | ccmInit => nomatch h
  | cmacUpdate | cmacFinish | ctrEncBlock | ctrDecBlock | macUpdate | macFinish =>
    exact if_pos (of_decide_eq_false h)
  | cbcEncUpdate | cbcEncFinish | cbcDecUpdate | cbcDecFinish | ccmAadUpdate | ccmAadFinish | ccmEncUpdate
  | ccmEncFinish | ccmDecUpdate | ccmDecFinish =>
    exact if_pos (not_or.mp (of_decide_eq_false h))

end Sys2Proof.Machine
end

section
/-! SUPPORT. What CCM.DEC_FINISH makes of its expected tag (R102): the checks look at its length alone and the requests
are those of the tag computed, so it reaches nothing but the verdict. -/

namespace Sys2Proof.Machine

/-- Over the expected tags of one length CCM.DEC_FINISH comes to one end, whatever their bytes are: the same error from
the same state, or the verdict against the same computed tag in the same state. -/
theorem execCcmDecFinish_end_of_length (s : State) (arg : Byte) (outcap : Half) (n : Nat) :
    ∃ u : State, u.responses = s.responses ∧
      ((∃ err, ∀ d, d.length = n → execCcmDecFinish arg outcap d s = raise .ccm err u) ∨
        ∃ tag, ∀ d, d.length = n →
          execCcmDecFinish arg outcap d s = respond (if tagDiff tag d = 0 then 1 else 0) 0 [] u) := by
  by_cases hphase : s.ccm.phase = .aadFinish ∨ s.ccm.phase = .decryptText
  case neg => exact ⟨s, rfl, .inl ⟨.badState, fun _ _ => if_pos (not_or.mp hphase)⟩⟩
  by_cases hbad : arg ≠ s.ccm.tagsize ∨ n ≠ s.ccm.tagsize.toNat
  · exact ⟨s, rfl, .inl ⟨.badParam, fun d hd => execCcmDecFinish_badParam hphase (by rwa [hd])⟩⟩
  obtain ⟨rfl, rfl⟩ : arg = s.ccm.tagsize ∧ n = s.ccm.tagsize.toNat := by simpa only [not_or, not_not] using hbad
  by_cases htext : s.ccm.textcons = s.ccm.textsize
  case neg => exact ⟨s, rfl, .inl ⟨.genFail, fun _ hd => execCcmDecFinish_textMissing hphase hd htext⟩⟩
  have hwhole : ¬ s.ccm.textcons ≠ s.ccm.textsize := not_not.mpr htext
  cases htag : ccmTag s.ccm s.bc with
  | failed c q =>
    refine ⟨s.setBc q, rfl, .inl ⟨.ioError c, fun d hd => ?_⟩⟩
    rw [execCcmDecFinish_checked hphase hd, if_neg hwhole, htag, runCipher_failed]
  | ok tag q =>
    refine ⟨(s.setBc q).setCcm (clearCcm s.ccm), rfl, .inr ⟨tag, fun d hd => ?_⟩⟩
    rw [execCcmDecFinish_checked hphase hd, if_neg hwhole, htag, runCipher_ok]

end Sys2Proof.Machine
end

section
/-! CERTIFICATE. The statement of spec/70_reset_and_hazards.md: the comparison of tags leaves no trace but its verdict. -/

namespace Sys2Proof.Machine

/-- Settles O57: both commands end in the state of their common end, with the same error response or with two verdicts,
which differ in `AUX` alone. -/
theorem tagCompareLeavesNoTrace : Obligations.TagCompareLeavesNoTrace := by
  intro s arg outcap e1 e2 hlen
  obtain ⟨u, hu, ⟨err, hend⟩ | ⟨tag, hend⟩⟩ := execCcmDecFinish_end_of_length s arg outcap e2.length
  · have hresp : ((clearEng .ccm u).addResponse (errResponse err)).responses = s.responses ++ [errResponse err] := by
      rw [State.addResponse_responses, clearEng_responses, hu]
    exact ⟨_, _, _, _, hend e1 hlen, hend e2 rfl, hresp, hresp, rfl, rfl, rfl, rfl, fun hne => absurd rfl hne⟩
  · have hresp (r : Response) : (u.addResponse r).responses = s.responses ++ [r] := by
      rw [State.addResponse_responses, hu]
    exact ⟨_, _, _, _, hend e1 hlen, hend e2 rfl, hresp _, hresp _, rfl, rfl, rfl, rfl, fun _ => rfl⟩

end Sys2Proof.Machine
end
